-- ==== Sys2Proof/Word.lean ====
section
/-! DEFINITION. The words of the block: binary64 bit patterns, record words and the register and offset fields of a record (R7, R8, R62). -/

namespace Sys2Proof

/-- A 64-bit word: a binary64 bit pattern (R8) or a record word `IR[63:0]` (R62). -/
abbrev Word := BitVec 64

/-- One byte of the memory's listing. -/
abbrev Byte := BitVec 8

/-- The 4-bit index of an FP register: index `i` is the assembler register `F<2i>` (R26, R63). -/
abbrev FReg := BitVec 4

/-- The 5-bit index of an integer register (R27, R63). -/
abbrev IReg := BitVec 5

/-- The `OFFW`-bit signed byte offset of a memory record (R6, R62, R64). -/
abbrev Offset := BitVec 32

end Sys2Proof
end

