-- ==== Sys2Proof/Config.lean ====
section
/-! DEFINITION. The implementation parameters of R5 and R6 with the document's defaults, and the free values the spec leaves open. -/

namespace Sys2Proof.Config

/-- R6, R50 (D10): how a load and a store, or two stores, of one cell in one write-back batch are ordered. -/
inductive MemBatchPolicy where
  | snapshot
  | race
  deriving DecidableEq, Repr, Inhabited

/-- R5 and R6: the named parameters of the block. A block is constructed with one value of this type and keeps it (log 1). -/
structure Params where
  /-- `N_ADD`, add/subtract reservation stations. -/
  nAdd : Nat
  /-- `N_MUL`, multiply/divide reservation stations. -/
  nMul : Nat
  /-- `N_LOAD`, load buffers. -/
  nLoad : Nat
  /-- `N_STORE`, store buffers. -/
  nStore : Nat
  /-- `N_FPR`, FP registers. -/
  nFpr : Nat
  /-- `N_INTR`, integer registers. -/
  nIntr : Nat
  /-- `N_MEM`, memory cells. -/
  nMem : Nat
  /-- `CELL_BYTES`, byte-address divisor of a cell. -/
  cellBytes : Nat
  /-- `LAT_LOAD`. -/
  latLoad : Nat
  /-- `LAT_STORE`. -/
  latStore : Nat
  /-- `LAT_ADD`. -/
  latAdd : Nat
  /-- `LAT_MUL`. -/
  latMul : Nat
  /-- `LAT_DIV`. -/
  latDiv : Nat
  /-- `CAP`, the safety cap in cycles. -/
  cap : Nat
  /-- `MEM_BATCH_POLICY`. -/
  policy : MemBatchPolicy
  deriving DecidableEq, Repr, Inhabited

/-- The default column of R5 and R6. -/
def Params.default : Params where
  nAdd := 3
  nMul := 2
  nLoad := 2
  nStore := 2
  nFpr := 16
  nIntr := 32
  nMem := 8
  cellBytes := 8
  latLoad := 2
  latStore := 1
  latAdd := 2
  latMul := 10
  latDiv := 40
  cap := 2000
  policy := .snapshot

/-- The constraints on the parameters: every `N_*` and `LAT_*` at least 1 and `N_FPR` at most 16 (R5), the total slot
capacity at most 15 (R29), every 5-bit base field names an integer register (R63; DEDUCED, log 11), and a divisor of at
least 1. `CAP` has no constraint in R5 and none here: 0 is legal (log 20). -/
abbrev Params.wf (p : Params) : Prop :=
  (1 ≤ p.nAdd ∧ 1 ≤ p.nMul ∧ 1 ≤ p.nLoad ∧ 1 ≤ p.nStore ∧ p.nAdd + p.nMul + p.nLoad + p.nStore ≤ 15) ∧
  (1 ≤ p.nFpr ∧ p.nFpr ≤ 16 ∧ 32 ≤ p.nIntr ∧ 1 ≤ p.nMem ∧ 1 ≤ p.cellBytes) ∧
  (1 ≤ p.latLoad ∧ 1 ≤ p.latStore ∧ 1 ≤ p.latAdd ∧ 1 ≤ p.latMul ∧ 1 ≤ p.latDiv)

/-- binary64 1.0, the default of `FP_INIT` and `MEM_INIT` (R6, R26, R38, R150; D21). -/
def one : Word := 0x3FF0000000000000

/-- `INT_INIT` at reset, for each integer register. DESIGN CHOICE (log 3): the spec leaves it open but for `R[2] = 0` (R6, R27; D6). -/
def intInit : Word := 0

/-- `NAN_RESULT` before it is bent to a NaN (R110; D7): the draw of cycle-draw `n` for the slot of tag code `code`. Free value (log 6). -/
opaque freeNaN : Nat → Nat → Word

/-- Which of the allowed values a load of tag code `code` sees under `Race` (R50; D10). Free value (log 7). -/
opaque freeLoadChoice : Nat → Nat → Nat

/-- Which of the same-cycle stores cell `j` ends with under `Race` (R50; D10). Free value (log 7). -/
opaque freeCellChoice : Nat → Nat → Nat

/-- What a station whose op is none of the four arithmetic ops broadcasts: no run reaches such a station. Free value (log 10). -/
opaque freeForeignResult : Nat → Nat → Word

/-- `clk` after a `MEM_RANGE` fault (R132: unspecified). Free value (log 8). -/
opaque anyClk : Nat → Nat

/-- `NEXT` after a `MEM_RANGE` fault (R132). Free value (log 8). -/
opaque anyNext : Nat → Nat

/-- A record of the record store after a `MEM_RANGE` fault (R132). Free value (log 8). -/
opaque anyRecord : Nat → Nat → Word

/-- FP register `i` after a `MEM_RANGE` fault (R132). Free value (log 8). -/
opaque anyFpr : Nat → Nat → Word

/-- Integer register `i` after a `MEM_RANGE` fault (R132). Free value (log 8). -/
opaque anyGpr : Nat → Nat → Word

/-- Memory cell `j` after a `MEM_RANGE` fault (R132). Free value (log 8). -/
opaque anyCell : Nat → Nat → Word

end Sys2Proof.Config
end

