-- ==== Sys2Proof/Machine/Binary64.lean ====
section
/-! DEFINITION. The binary64 arithmetic of R110: operands as exact integers in units of 2^-1074, the exact result, and one rounding to nearest, ties to even. The rounding and the special cases are IEEE 754's, which the spec adopts (R110; D7; log 13). -/

namespace Sys2Proof.Machine

/-- The sign bit of a binary64 pattern. -/
def fpSign (x : Word) : Bool := x.getLsbD 63

/-- The biased exponent field. -/
def fpExp (x : Word) : Nat := (x.extractLsb' 52 11).toNat

/-- The fraction field. -/
def fpFrac (x : Word) : Nat := (x.extractLsb' 0 52).toNat

/-- A NaN: exponent field all ones and a fraction that is not 0. -/
def isNaN (x : Word) : Bool := fpExp x == 2047 && !(fpFrac x == 0)

/-- An infinity: exponent field all ones and fraction 0. -/
def isInf (x : Word) : Bool := fpExp x == 2047 && fpFrac x == 0

/-- Neither a NaN nor an infinity. -/
def isFinite (x : Word) : Bool := !(fpExp x == 2047)

/-- The magnitude of a finite value, in units of 2^-1074 (subnormals kept, R110). -/
def magnitude (x : Word) : Nat :=
  if fpExp x = 0 then fpFrac x else (2 ^ 52 + fpFrac x) * 2 ^ (fpExp x - 1)

/-- The signed value of a finite pattern, in units of 2^-1074. -/
def signedValue (x : Word) : Int := if fpSign x then -(magnitude x : Int) else (magnitude x : Int)

/-- The pattern with a sign and the 63 bits of exponent and fraction. -/
def packSign (s : Bool) (m : Nat) : Word := BitVec.ofNat 64 ((if s then 2 ^ 63 else 0) + m)

/-- The exponent-and-fraction bits of infinity. -/
def infBits : Nat := 2047 * 2 ^ 52

/-- How many low bits of the exact magnitude `n / d` fall below the last place of its rounded significand: 0 where the result is
subnormal or has the least normal exponent. -/
def roundShift (n d : Nat) : Nat := Nat.log2 (n / d) - 52

/-- `n / d` (in units of 2^-1074) divided by `2 ^ roundShift`, rounded to the nearest integer, ties to even. -/
def roundedSignificand (n d : Nat) : Nat :=
  let u := d * 2 ^ roundShift n d
  if 2 * (n % u) > u ∨ (2 * (n % u) = u ∧ n / u % 2 = 1) then n / u + 1 else n / u

/-- The binary64 pattern nearest to the magnitude `n / d` (in units of 2^-1074) with sign `s`, ties to even, infinity on overflow.
A carry out of the significand moves the exponent field up by itself. -/
def roundToBinary64 (s : Bool) (n d : Nat) : Word :=
  packSign s (min (roundShift n d * 2 ^ 52 + roundedSignificand n d) infBits)

/-- `NAN_RESULT`: any binary64 NaN; a draw that is a NaN stands for itself (R110; D7). -/
def nanOf (draw : Word) : Word := if isNaN draw then draw else 0x7FF8000000000000

/-- `fadd(a, b)` of R110; `draw` supplies `NAN_RESULT`. -/
def fadd (draw a b : Word) : Word :=
  if isNaN a || isNaN b then nanOf draw
  else if isInf a then (if isInf b && (fpSign a != fpSign b) then nanOf draw else a)
  else if isInf b then b
  else
    let z := signedValue a + signedValue b
    if z = 0 then packSign (fpSign a && fpSign b) 0 else roundToBinary64 (decide (z < 0)) z.natAbs 1

/-- The same magnitude with the other sign. -/
def fneg (x : Word) : Word := x ^^^ 0x8000000000000000

/-- `fsub(a, b)` of R110: `a + (-b)`. -/
def fsub (draw a b : Word) : Word := fadd draw a (fneg b)

/-- `fmul(a, b)` of R110. -/
def fmul (draw a b : Word) : Word :=
  let s := fpSign a != fpSign b
  if isNaN a || isNaN b then nanOf draw
  else if isInf a then (if isFinite b && magnitude b == 0 then nanOf draw else packSign s infBits)
  else if isInf b then (if magnitude a == 0 then nanOf draw else packSign s infBits)
  else roundToBinary64 s (magnitude a * magnitude b) (2 ^ 1074)

/-- `fdiv(a, b)` of R110: never a trap. -/
def fdiv (draw a b : Word) : Word :=
  let s := fpSign a != fpSign b
  if isNaN a || isNaN b then nanOf draw
  else if isInf a then (if isInf b then nanOf draw else packSign s infBits)
  else if isInf b then packSign s 0
  else if magnitude b = 0 then (if magnitude a = 0 then nanOf draw else packSign s infBits)
  else roundToBinary64 s (magnitude a * 2 ^ 1074) (magnitude b)

end Sys2Proof.Machine
end

