-- ==== Sys2Proof/Syntax.lean ====
section
/-! DEFINITION. The six operations (R2, R61) and the instruction records as syntax (R60, R65): one constructor of `Instr` per row of the opcode table. -/

namespace Sys2Proof

/-- The six operations of R2, in the order of their codes. -/
inductive Op where
  | ld
  | sd
  | addD
  | subD
  | mulD
  | divD
  deriving DecidableEq, Repr, Inhabited

/-- A decoded instruction record with the operands its op uses (R60, R65). -/
inductive Instr where
  /-- `L.D Fd, off(Rb)` (R120). -/
  | ld (fa : FReg) (base : IReg) (off : Offset)
  /-- `S.D Fs, off(Rb)` (R121): `fa` is the data source. -/
  | sd (fa : FReg) (base : IReg) (off : Offset)
  /-- `ADD.D Fd, Fj, Fk` (R111). -/
  | addD (fa fb fc : FReg)
  /-- `SUB.D Fd, Fj, Fk` (R112). -/
  | subD (fa fb fc : FReg)
  /-- `MUL.D Fd, Fj, Fk` (R113). -/
  | mulD (fa fb fc : FReg)
  /-- `DIV.D Fd, Fj, Fk` (R114). -/
  | divD (fa fb fc : FReg)
  deriving DecidableEq, Repr, Inhabited

/-- The operation of a record. -/
def Instr.op : Instr → Op
  | .ld .. => .ld
  | .sd .. => .sd
  | .addD .. => .addD
  | .subD .. => .subD
  | .mulD .. => .mulD
  | .divD .. => .divD

/-- R65, column "writes FP": the destination register, absent for `S.D` only. -/
def Instr.dest : Instr → Option FReg
  | .ld fa _ _ => some fa
  | .sd _ _ _ => none
  | .addD fa _ _ => some fa
  | .subD fa _ _ => some fa
  | .mulD fa _ _ => some fa
  | .divD fa _ _ => some fa

/-- R65, column "reads FP": the FP source registers in operand order. -/
def Instr.sources : Instr → List FReg
  | .ld _ _ _ => []
  | .sd fa _ _ => [fa]
  | .addD _ fb fc => [fb, fc]
  | .subD _ fb fc => [fb, fc]
  | .mulD _ fb fc => [fb, fc]
  | .divD _ fb fc => [fb, fc]

/-- R60, R85: the base register and offset of a memory record. -/
def Instr.addressing : Instr → Option (IReg × Offset)
  | .ld _ base off => some (base, off)
  | .sd _ base off => some (base, off)
  | .addD _ _ _ => none
  | .subD _ _ _ => none
  | .mulD _ _ _ => none
  | .divD _ _ _ => none

/-- Every FP index field the op uses (R68, last clause). -/
def Instr.fpFields : Instr → List FReg
  | .ld fa _ _ => [fa]
  | .sd fa _ _ => [fa]
  | .addD fa fb fc => [fa, fb, fc]
  | .subD fa fb fc => [fa, fb, fc]
  | .mulD fa fb fc => [fa, fb, fc]
  | .divD fa fb fc => [fa, fb, fc]

end Sys2Proof
end

