-- ==== Sys2Proof/Machine/State.lean ====
section
/-! DEFINITION. The state of the block (10_state.md) as plain data, its memory's canonical form, the reasons a step can stop, and the state after reset (R150). -/

namespace Sys2Proof.Machine

open Sys2Proof.Config (Params)

/-- R21: the run state. -/
inductive Status where
  /-- `RUN` (0): the block advances on `step`. -/
  | run
  /-- `DONE` (1): every instruction has a write-back timestamp. -/
  | done
  /-- `CAP_HALT` (2): the safety cap was reached first. -/
  | capHalt
  /-- `FAULT` (3): a fault was raised. -/
  | fault
  deriving DecidableEq, Repr, Inhabited

/-- R131: the fault codes. -/
inductive FaultCode where
  | none
  | invalidRecord
  | memRange
  deriving DecidableEq, Repr, Inhabited

/-- R23, R131: `FAULT_INFO` when it is not `⊥`: the instruction index and, for `MEM_RANGE`, the effective address. -/
structure FaultInfo where
  index : Nat
  value : Option Int
  deriving DecidableEq, Repr, Inhabited

/-- R25: the four timestamps of an instruction; `none` is `⊥`. -/
structure Stamps where
  iss : Option Nat
  exs : Option Nat
  cmp : Option Nat
  wbk : Option Nat
  deriving DecidableEq, Repr, Inhabited

/-- R25: the timestamps of an instruction at reset. -/
abbrev Stamps.empty : Stamps := ⟨none, none, none, none⟩

/-- R28: the four pools. -/
inductive Pool where
  | add
  | mul
  | load
  | store
  deriving DecidableEq, Repr, Inhabited

/-- R28: a slot's identity, the pair (pool, index). -/
structure SlotId where
  pool : Pool
  idx : Nat
  deriving DecidableEq, Repr, Inhabited

/-- R29: a tag is `⊥` or a slot identity. -/
abbrev Tag := Option SlotId

/-- R30: the fields every slot has. -/
structure Head where
  busy : Bool
  op : Op
  instr : Option Nat
  count : Nat
  deriving DecidableEq, Repr, Inhabited

/-- R33: the head of a free slot; `op = 0` is the code of `L.D`. -/
abbrev Head.free : Head := ⟨false, .ld, none, 0⟩

/-- R31: a reservation station of pool `Add` or `Mul`. -/
structure Station where
  head : Head
  vj : Word
  qj : Tag
  vk : Word
  qk : Tag
  dest : FReg
  deriving DecidableEq, Repr, Inhabited

/-- R33: a free station. -/
abbrev Station.free : Station := ⟨Head.free, 0, none, 0, none, 0⟩

/-- R32: a load buffer. -/
structure LoadBuffer where
  head : Head
  base : IReg
  off : Offset
  dest : FReg
  deriving DecidableEq, Repr, Inhabited

/-- R33: a free load buffer. -/
abbrev LoadBuffer.free : LoadBuffer := ⟨Head.free, 0, 0, 0⟩

/-- R32: a store buffer. -/
structure StoreBuffer where
  head : Head
  base : IReg
  off : Offset
  vd : Word
  qd : Tag
  deriving DecidableEq, Repr, Inhabited

/-- R33: a free store buffer. -/
abbrev StoreBuffer.free : StoreBuffer := ⟨Head.free, 0, 0, 0, none⟩

/-- The flat memory of R38, R40 as the list of its bytes that differ from the reset contents: cell `j` is the bytes at `8j`
to `8j + 7` (log 2; R45: no instruction can see a byte of a cell). -/
abbrev Memory := List Host.Cell

/-- What an unlisted byte reads as: its byte of the binary64 1.0 every cell holds by default at reset (R38, R150; D21). -/
def Memory.initByte (a : Nat) : Byte := Config.one.extractLsb' (8 * (a % 8)) 8

/-- The canonical form: addresses strictly rising, and no entry equal to what an unlisted address reads as. -/
abbrev Memory.wf (m : Memory) : Prop :=
  m.Pairwise (fun x y => x.1 < y.1) ∧ ∀ c ∈ m, c.2 ≠ Memory.initByte c.1

/-- Every state element of 10_state.md, and two fields of the model's own: `params` (log 1) and `draws` (log 6). -/
structure State where
  /-- The parameters the block was constructed with (R5, R6; log 1). -/
  params : Params
  /-- `clk`, the cycle clock (R20). -/
  clk : Nat
  /-- `STATUS` (R21). -/
  status : Status
  /-- `NEXT`, the issue pointer (R22). -/
  next : Nat
  /-- `FAULT_CODE` (R23). -/
  faultCode : FaultCode
  /-- `FAULT_INFO` (R23). -/
  faultInfo : Option FaultInfo
  /-- The instruction record store `P[0..N-1]`, as record words (R24, R62). -/
  prog : List Word
  /-- The timestamps `T[0..N-1]` (R25). -/
  stamps : List Stamps
  /-- The FP register file `F` (R26). -/
  fpr : List Word
  /-- The integer register file `R` (R27). -/
  gpr : List Word
  /-- Pool `Add` (R28). -/
  adds : List Station
  /-- Pool `Mul` (R28). -/
  muls : List Station
  /-- Pool `Load` (R28). -/
  loads : List LoadBuffer
  /-- Pool `Store` (R28). -/
  stores : List StoreBuffer
  /-- The rename table `RRS` (R34). -/
  rrs : List Tag
  /-- The flat memory `M` (R38). -/
  mem : Memory
  /-- How many sets of free values have been drawn: the model's own counter (log 6). -/
  draws : Nat
  deriving DecidableEq, Repr, Inhabited

/-- Why a step stops without a next state. -/
inductive Fault where
  /-- Raised by `step` alone, when `STATUS = RUN` and the record `P[k]` at `NEXT = k` fails R68: the engine "aborts loudly
  rather than guessing" (R69). No construction gives such a state, because the record check of R70 refuses the program
  first (log 5). Safe: the machine stops and gives the word no meaning. -/
  | invalidRecord (k : Nat)
  deriving DecidableEq, Repr

/-- Why an instruction has no meaning. -/
inductive Refusal where
  /-- Raised by an arm of `exec` whose instruction has no meaning in the model; no arm raises it now. Safe. -/
  | notModelled (mnemonic : String)
  deriving DecidableEq, Repr

/-- The state after construction with the defaults and no program (R150): every element at its reset value, and `DONE` by
the completion test on the empty program (R104; log 4). -/
def State.reset : State where
  params := Params.default
  clk := 0
  status := .done
  next := 0
  faultCode := .none
  faultInfo := none
  prog := []
  stamps := []
  fpr := List.replicate Params.default.nFpr Config.one
  gpr := List.replicate Params.default.nIntr Config.intInit
  adds := List.replicate Params.default.nAdd Station.free
  muls := List.replicate Params.default.nMul Station.free
  loads := List.replicate Params.default.nLoad LoadBuffer.free
  stores := List.replicate Params.default.nStore StoreBuffer.free
  rrs := List.replicate Params.default.nFpr none
  mem := []
  draws := 0

end Sys2Proof.Machine

namespace Sys2Proof.Config

/-- A timestamp row after a `MEM_RANGE` fault (R132: unspecified). Free value (log 8). -/
opaque anyStamps : Nat → Nat → Machine.Stamps

/-- A slot of pool `Add` after a `MEM_RANGE` fault (R132). Free value (log 8). -/
opaque anyAdd : Nat → Nat → Machine.Station

/-- A slot of pool `Mul` after a `MEM_RANGE` fault (R132). Free value (log 8). -/
opaque anyMul : Nat → Nat → Machine.Station

/-- A slot of pool `Load` after a `MEM_RANGE` fault (R132). Free value (log 8). -/
opaque anyLoad : Nat → Nat → Machine.LoadBuffer

/-- A slot of pool `Store` after a `MEM_RANGE` fault (R132). Free value (log 8). -/
opaque anyStore : Nat → Nat → Machine.StoreBuffer

/-- An entry of the rename table after a `MEM_RANGE` fault (R132). Free value (log 8). -/
opaque anyTag : Nat → Nat → Machine.Tag

end Sys2Proof.Config
end

