-- ==== Sys2Proof/Machine/Ops.lean ====
section
/-! DEFINITION. The named operations over memory, registers, slots, tags and the rename table that every instruction shares, and the taking of a fault (R29, R33, R34, R41, R83, R86, R99 to R101, R131 to R134). -/

namespace Sys2Proof.Machine

open Sys2Proof.Config (Params)

/-! ### Memory (R38, R40, R41, R44) -/

/-- One byte of the memory's listing. -/
def Memory.readByte : Memory → Nat → Byte
  | [], a => Memory.initByte a
  | (x, b) :: rest, a => if x = a then b else Memory.readByte rest a

/-- One byte written, the listing kept in its canonical form. -/
def Memory.writeByte : Memory → Nat → Byte → Memory
  | [], a, v => if v = Memory.initByte a then [] else [(a, v)]
  | (x, b) :: rest, a, v =>
    if a < x then (if v = Memory.initByte a then (x, b) :: rest else (a, v) :: (x, b) :: rest)
    else if a = x then (if v = Memory.initByte a then rest else (a, v) :: rest)
    else (x, b) :: Memory.writeByte rest a v

/-- `M[j]`: the binary64 value of cell `j` (R38, R44). -/
def Memory.readCell (m : Memory) (j : Nat) : Word :=
  m.readByte (8 * j + 7) ++ m.readByte (8 * j + 6) ++ m.readByte (8 * j + 5) ++ m.readByte (8 * j + 4) ++
  m.readByte (8 * j + 3) ++ m.readByte (8 * j + 2) ++ m.readByte (8 * j + 1) ++ m.readByte (8 * j)

/-- `M[j] <- v` (R38, R44). -/
def Memory.writeCell (m : Memory) (j : Nat) (v : Word) : Memory :=
  (List.range 8).foldl (fun m b => m.writeByte (8 * j + b) (v.extractLsb' (8 * b) 8)) m

/-- R40, R41: the cell a byte address selects, or nothing where `MemRead` and `MemWrite` raise `MEM_RANGE`. -/
def cellOf (p : Params) (addr : Int) : Option Nat :=
  if 0 ≤ addr ∧ addr < ((p.nMem * p.cellBytes : Nat) : Int) then some (addr.toNat / p.cellBytes) else none

/-- R41, `MemRead(addr, 8)`; `none` is `raise Fault(MEM_RANGE, addr)`. -/
def memRead (p : Params) (m : Memory) (addr : Int) : Option Word :=
  (cellOf p addr).map m.readCell

/-- R41, `MemWrite(addr, 8, v)`; `none` is `raise Fault(MEM_RANGE, addr)`. -/
def memWrite (p : Params) (m : Memory) (addr : Int) (v : Word) : Option Memory :=
  (cellOf p addr).map fun j => m.writeCell j v

/-! ### Registers, the rename table and the timestamps -/

/-- `F[i]` (R26). An index no register has reads as 0; no valid record holds one (log 15). -/
def State.readF (s : State) (i : FReg) : Word := s.fpr.getD i.toNat 0

/-- `F[i] <- v` (R26). -/
def State.writeF (s : State) (i : FReg) (v : Word) : State := { s with fpr := s.fpr.set i.toNat v }

/-- `R[i]`, an `XLEN`-bit signed integer (R27). -/
def State.readR (s : State) (i : IReg) : Word := s.gpr.getD i.toNat 0

/-- `RRS[i]` (R34). -/
def State.readRRS (s : State) (i : FReg) : Tag := s.rrs.getD i.toNat none

/-- `RRS[i] <- q` (R34). -/
def State.writeRRS (s : State) (i : FReg) (q : Tag) : State := { s with rrs := s.rrs.set i.toNat q }

/-- `T[k]` (R25). -/
def State.stamp (s : State) (k : Nat) : Stamps := s.stamps.getD k Stamps.empty

/-- `F[0..]` and `R[0..]` and the rest untouched, `clk <- clk + 1`: the first line of `Cycle()` (R80, R20). -/
def tick (s : State) : State := { s with clk := s.clk + 1 }

/-! ### Slots and tags (R28, R29, R33) -/

/-- R29: the global position of a slot, counting the pools in the order `Add`, `Mul`, `Load`, `Store`. -/
def SlotId.position (p : Params) : SlotId → Nat
  | ⟨.add, i⟩ => i
  | ⟨.mul, i⟩ => p.nAdd + i
  | ⟨.load, i⟩ => p.nAdd + p.nMul + i
  | ⟨.store, i⟩ => p.nAdd + p.nMul + p.nLoad + i

/-- R29: the code of a slot, `1 + g` for global position `g`. -/
def SlotId.code (p : Params) (q : SlotId) : Nat := 1 + q.position p

/-- R29: the 4-bit code of a tag; 0 is `⊥`. -/
def tagCode (p : Params) : Tag → BitVec 4
  | none => 0
  | some q => BitVec.ofNat 4 (q.code p)

/-- R28: the capacity of a pool. -/
def Pool.capacity (p : Params) : Pool → Nat
  | .add => p.nAdd
  | .mul => p.nMul
  | .load => p.nLoad
  | .store => p.nStore

/-- R61, R82: the pool an operation's instructions go to. -/
def poolOf : Op → Pool
  | .ld => .load
  | .sd => .store
  | .addD => .add
  | .subD => .add
  | .mulD => .mul
  | .divD => .mul

/-- R83, `Lat(op)`. -/
def latency (p : Params) : Op → Nat
  | .ld => p.latLoad
  | .sd => p.latStore
  | .addD => p.latAdd
  | .subD => p.latAdd
  | .mulD => p.latMul
  | .divD => p.latDiv

/-- The slots of a pool with their identities. -/
def tagged {α : Type} (pool : Pool) (slots : List α) : List (SlotId × α) :=
  slots.zipIdx.map fun x => (⟨pool, x.2⟩, x.1)

/-- R83: the index of the free slot with the lowest index, if a slot is free (D11). -/
def firstFree {α : Type} (head : α → Head) (slots : List α) : Option Nat :=
  slots.findIdx? fun x => !(head x).busy

/-- R83: the head of a slot as Issue fills it for the instruction at `NEXT`; the countdown is loaded, not started (R87). -/
def State.issuedHead (s : State) (op : Op) : Head := ⟨true, op, some s.next, latency s.params op⟩

/-- R86, `ClaimDestination`: the entry is overwritten unconditionally. -/
def claimDestination (slot : SlotId) (fa : FReg) (s : State) : State := s.writeRRS fa (some slot)

/-- R83, last two lines: `T[NEXT].iss <- clk` and `NEXT <- NEXT + 1`. -/
def noteIssue (s : State) : State :=
  { s with stamps := s.stamps.set s.next { s.stamp s.next with iss := some s.clk }, next := s.next + 1 }

/-! ### The broadcast network (R99, R100) and the release of slots (R101) -/

/-- R97: a queued broadcast tuple `(S, v, S.dest)`. -/
structure Broadcast where
  src : SlotId
  value : Word
  dest : FReg
  deriving DecidableEq, Repr, Inhabited

/-- R97: a queued memory write `(k, EA(S), S.Vd)`. -/
structure StoreWrite where
  index : Nat
  addr : Int
  data : Word
  deriving DecidableEq, Repr, Inhabited

/-- R100 on one operand: a tag that names the broadcasting slot becomes the delivered value. -/
def deliver (b : Broadcast) (v : Word) (q : Tag) : Word × Tag :=
  if q = some b.src then (b.value, none) else (v, q)

/-- R100 on a station. -/
def forwardStation (b : Broadcast) (x : Station) : Station :=
  if x.head.busy then
    { x with vj := (deliver b x.vj x.qj).1, qj := (deliver b x.vj x.qj).2,
             vk := (deliver b x.vk x.qk).1, qk := (deliver b x.vk x.qk).2 }
  else x

/-- R100 on a store buffer. -/
def forwardStore (b : Broadcast) (x : StoreBuffer) : StoreBuffer :=
  if x.head.busy then { x with vd := (deliver b x.vd x.qd).1, qd := (deliver b x.vd x.qd).2 } else x

/-- R99: the register file and the rename table take a broadcast only if the entry still names its slot. -/
def updateRegister (b : Broadcast) (s : State) : State :=
  if s.readRRS b.dest = some b.src then (s.writeF b.dest b.value).writeRRS b.dest none else s

/-- R100: a broadcast forwarded to every waiting slot of `Add`, `Mul` and `Store`. -/
def forward (b : Broadcast) (s : State) : State :=
  { s with adds := s.adds.map (forwardStation b), muls := s.muls.map (forwardStation b),
           stores := s.stores.map (forwardStore b) }

/-- R99 and R100 for one queued broadcast. -/
def applyBroadcast (s : State) (b : Broadcast) : State := forward b (updateRegister b s)

/-- R101 on one pool: the slots named are cleared to the free state of R33. -/
def releaseIn {α : Type} (pool : Pool) (free : α) (done : List SlotId) (slots : List α) : List α :=
  slots.zipIdx.map fun x => if (⟨pool, x.2⟩ : SlotId) ∈ done then free else x.1

/-- R101: every named slot is released. -/
def release (done : List SlotId) (s : State) : State :=
  { s with adds := releaseIn .add Station.free done s.adds, muls := releaseIn .mul Station.free done s.muls,
           loads := releaseIn .load LoadBuffer.free done s.loads,
           stores := releaseIn .store StoreBuffer.free done s.stores }

/-! ### Faults (R131 to R134) -/

/-- R131, R134: taking a fault. Nothing is saved but the code and the info, and control goes nowhere: the block stops. -/
def raiseFault (code : FaultCode) (info : FaultInfo) (s : State) : State :=
  { s with status := .fault, faultCode := code, faultInfo := some info }

/-- R132: every state element as a `MEM_RANGE` fault leaves it, unspecified: a free value for each (log 8). The parameters are
no state element, the record count `N` among them (R6: fixed at construction; D23), and each list keeps the length its type gives it:
`N` records and `N` rows of timestamps. -/
def unspecified (s : State) : State :=
  let d := s.draws
  let p := s.params
  let n := s.prog.length
  { params := p
    clk := Config.anyClk d
    status := s.status
    next := Config.anyNext d
    faultCode := s.faultCode
    faultInfo := s.faultInfo
    prog := (List.range n).map (Config.anyRecord d)
    stamps := (List.range n).map (Config.anyStamps d)
    fpr := (List.range p.nFpr).map (Config.anyFpr d)
    gpr := (List.range p.nIntr).map (Config.anyGpr d)
    adds := (List.range p.nAdd).map (Config.anyAdd d)
    muls := (List.range p.nMul).map (Config.anyMul d)
    loads := (List.range p.nLoad).map (Config.anyLoad d)
    stores := (List.range p.nStore).map (Config.anyStore d)
    rrs := (List.range p.nFpr).map (Config.anyTag d)
    mem := (List.range p.nMem).foldl (fun m j => m.writeCell j (Config.anyCell d j)) []
    draws := d + 1 }

/-- R132: raising `MEM_RANGE` for instruction `k` with effective address `ea`. -/
def raiseMemRange (k : Nat) (ea : Int) (s : State) : State :=
  raiseFault .memRange ⟨k, some ea⟩ (unspecified s)

end Sys2Proof.Machine
end

