-- ==== Sys2Proof/Machine/Operands.lean ====
section
/-! DEFINITION. The operand forms: an FP source read through the rename table (R84), the capture of operands into a slot (R85), and the effective address of a load or store (R42, R64). -/

namespace Sys2Proof.Machine

/-- R84, `ReadOperand(i)`: the pending producer's tag with the cleared value, or the live register value. -/
def readOperand (s : State) (i : FReg) : Word × Tag :=
  match s.readRRS i with
  | some q => (0, some q)
  | none => (s.readF i, none)

/-- R83, R85 for the arithmetic ops: the station Issue fills. -/
def captureStation (s : State) (op : Op) (fa fb fc : FReg) : Station where
  head := s.issuedHead op
  vj := (readOperand s fb).1
  qj := (readOperand s fb).2
  vk := (readOperand s fc).1
  qk := (readOperand s fc).2
  dest := fa

/-- R83, R85 for `L.D`: the load buffer Issue fills. -/
def captureLoad (s : State) (fa : FReg) (base : IReg) (off : Offset) : LoadBuffer where
  head := s.issuedHead .ld
  base := base
  off := off
  dest := fa

/-- R83, R85 for `S.D`: the store buffer Issue fills; the data operand is renamed like any other source. -/
def captureStore (s : State) (fa : FReg) (base : IReg) (off : Offset) : StoreBuffer where
  head := s.issuedHead .sd
  base := base
  off := off
  vd := (readOperand s fa).1
  qd := (readOperand s fa).2

/-- R42, `EA(S) = R[S.base] + sext_OFFW(S.off)`, an exact integer sum (R64, R126). -/
def effectiveAddress (s : State) (base : IReg) (off : Offset) : Int := (s.readR base).toInt + off.toInt

/-- R89, R95: a station's operands hold no pending tag. -/
def Station.ready (x : Station) : Bool := x.qj.isNone && x.qk.isNone

end Sys2Proof.Machine
end

