-- ==== Sys2Proof/Machine/Flags.lean ====
section
/-! DEFINITION. The conditions of the engine. The block has no condition codes, status flags or FP exception flags (R37, R110), so no instruction computes one; what the engine tests instead is here: eligibility (R89), write-back candidacy (R95), completion and the unfinished list (R104, R105). -/

namespace Sys2Proof.Machine

/-- R89: a busy slot of an instruction issued in an earlier cycle and not completed, with its operands ready. -/
def State.eligible (s : State) (ready : Bool) (h : Head) : Bool :=
  match h.busy, h.instr with
  | true, some k =>
    (match (s.stamp k).iss with
     | some t => decide (t < s.clk)
     | none => false) && (s.stamp k).cmp.isNone && ready
  | _, _ => false

/-- R95, conditions 1 to 3: busy, completed in an earlier cycle, not yet written back. -/
def State.writable (s : State) (h : Head) : Bool :=
  match h.busy, h.instr with
  | true, some k =>
    (match (s.stamp k).cmp with
     | some t => decide (t < s.clk)
     | none => false) && (s.stamp k).wbk.isNone
  | _, _ => false

/-- R104: every instruction has a write-back timestamp. -/
def State.complete (s : State) : Bool := s.stamps.all fun t => t.wbk.isSome

/-- R105: the ascending list of every `k` with `T[k].wbk = ⊥`. -/
def State.unfinished (s : State) : List Nat :=
  (s.stamps.zipIdx.filter fun x => x.1.wbk.isNone).map fun x => x.2

end Sys2Proof.Machine
end

