-- ==== Sys2Proof/Machine/FpArith.lean ====
section
/-! DEFINITION. `ADD.D`, `SUB.D`, `MUL.D` and `DIV.D` (41_fp_arith.md): the meaning of each at Issue (R81 to R87), and the result each broadcasts at write-back (R96, R110 to R114). -/

namespace Sys2Proof.Machine

/-- R82 to R86 for an op of pool `Add`: a stall if no station is free, else the lowest free station filled, the destination
claimed after the operands are read, and the issue recorded. -/
def issueToAdd (op : Op) (fa fb fc : FReg) (s : State) : State :=
  match firstFree Station.head s.adds with
  | none => s
  | some j =>
    noteIssue (claimDestination ⟨.add, j⟩ fa { s with adds := s.adds.set j (captureStation s op fa fb fc) })

/-- R82 to R86 for an op of pool `Mul`. -/
def issueToMul (op : Op) (fa fb fc : FReg) (s : State) : State :=
  match firstFree Station.head s.muls with
  | none => s
  | some j =>
    noteIssue (claimDestination ⟨.mul, j⟩ fa { s with muls := s.muls.set j (captureStation s op fa fb fc) })

/-- R111: `ADD.D Fd, Fj, Fk` at Issue. -/
def execAddD (fa fb fc : FReg) (s : State) : Host.Outcome State Fault Refusal :=
  .next (issueToAdd .addD fa fb fc s)

/-- R112: `SUB.D Fd, Fj, Fk` at Issue. -/
def execSubD (fa fb fc : FReg) (s : State) : Host.Outcome State Fault Refusal :=
  .next (issueToAdd .subD fa fb fc s)

/-- R113: `MUL.D Fd, Fj, Fk` at Issue. -/
def execMulD (fa fb fc : FReg) (s : State) : Host.Outcome State Fault Refusal :=
  .next (issueToMul .mulD fa fb fc s)

/-- R114: `DIV.D Fd, Fj, Fk` at Issue. -/
def execDivD (fa fb fc : FReg) (s : State) : Host.Outcome State Fault Refusal :=
  .next (issueToMul .divD fa fb fc s)

/-- The draw of `NAN_RESULT` for slot `id` in this cycle (R110; D7; log 6). -/
def State.nanDraw (s : State) (id : SlotId) : Word := Config.freeNaN s.draws (id.code s.params)

/-- R111: `v = fadd(Vj, Vk)`. -/
def resultAddD (s : State) (id : SlotId) (x : Station) : Word := fadd (s.nanDraw id) x.vj x.vk

/-- R112: `v = fsub(Vj, Vk)`, first operand minus second. -/
def resultSubD (s : State) (id : SlotId) (x : Station) : Word := fsub (s.nanDraw id) x.vj x.vk

/-- R113: `v = fmul(Vj, Vk)`. -/
def resultMulD (s : State) (id : SlotId) (x : Station) : Word := fmul (s.nanDraw id) x.vj x.vk

/-- R114: `v = fdiv(Vj, Vk)`, first operand divided by second. -/
def resultDivD (s : State) (id : SlotId) (x : Station) : Word := fdiv (s.nanDraw id) x.vj x.vk

/-- R96 for a station, by its op field. A station of a load's or store's op is reached by no run; its result is a free value (log 10). -/
def stationResult (s : State) (id : SlotId) (x : Station) : Word :=
  match x.head.op with
  | .addD => resultAddD s id x
  | .subD => resultSubD s id x
  | .mulD => resultMulD s id x
  | .divD => resultDivD s id x
  | .ld => Config.freeForeignResult s.draws (id.code s.params)
  | .sd => Config.freeForeignResult s.draws (id.code s.params)

end Sys2Proof.Machine
end

