-- ==== Sys2Proof/Machine/LoadStore.lean ====
section
/-! DEFINITION. `L.D` and `S.D` (42_load_store.md): the meaning of each at Issue (R120, R121), the value a load reads and the write a store makes at write-back (R96, R98), under both batch policies (R50). -/

namespace Sys2Proof.Machine

/-- R120: `L.D Fd, off(Rb)` at Issue: a stall if no load buffer is free, else the lowest free one filled, the destination claimed
and the issue recorded. -/
def execLD (fa : FReg) (base : IReg) (off : Offset) (s : State) : Host.Outcome State Fault Refusal :=
  .next <|
    match firstFree LoadBuffer.head s.loads with
    | none => s
    | some j => noteIssue (claimDestination ⟨.load, j⟩ fa { s with loads := s.loads.set j (captureLoad s fa base off) })

/-- R121: `S.D Fs, off(Rb)` at Issue: no rename entry is claimed. -/
def execSD (fa : FReg) (base : IReg) (off : Offset) (s : State) : Host.Outcome State Fault Refusal :=
  .next <|
    match firstFree StoreBuffer.head s.stores with
    | none => s
    | some j => noteIssue { s with stores := s.stores.set j (captureStore s fa base off) }

/-- The effective address of a load buffer (R42). -/
def LoadBuffer.address (s : State) (x : LoadBuffer) : Int := effectiveAddress s x.base x.off

/-- The effective address of a store buffer (R42). -/
def StoreBuffer.address (s : State) (x : StoreBuffer) : Int := effectiveAddress s x.base x.off

/-- The queued writes that select cell `j` (R50). -/
def writesTo (s : State) (writes : List StoreWrite) (j : Nat) : List StoreWrite :=
  writes.filter fun w => cellOf s.params w.addr == some j

/-- R96, R120: the value a load reads from `M` as it stood at the start of Writeback. Under `Race` it is that value or the data
of any same-cycle store to the cell, by a free choice (R50; log 7). `none` where `MemRead` raises `MEM_RANGE`. -/
def loadValue (s : State) (writes : List StoreWrite) (id : SlotId) (addr : Int) : Option Word :=
  match s.params.policy with
  | .snapshot => memRead s.params s.mem addr
  | .race =>
    (cellOf s.params addr).map fun j =>
      let old := s.mem.readCell j
      let seen := old :: (writesTo s writes j).map StoreWrite.data
      seen.getD (Config.freeLoadChoice s.draws (id.code s.params) % seen.length) old

/-- One write put in its place by increasing instruction index (R98). -/
def insertWrite (w : StoreWrite) : List StoreWrite → List StoreWrite
  | [] => [w]
  | x :: rest => if w.index ≤ x.index then w :: x :: rest else x :: insertWrite w rest

/-- R98: the queued writes in increasing instruction index. -/
def orderWrites (writes : List StoreWrite) : List StoreWrite := writes.foldr insertWrite []

/-- R98 for one queued write; a write out of range changes nothing here, because it has already raised `MEM_RANGE` (R132). -/
def applyWrite (s : State) (m : Memory) (w : StoreWrite) : Memory := (memWrite s.params m w.addr w.data).getD m

/-- R50, `Race`: cell `j` ends with the data of any one of the stores that wrote it, by a free choice (log 7). -/
def raceWrite (s : State) (writes : List StoreWrite) (m : Memory) (j : Nat) : Memory :=
  match writesTo s writes j with
  | [] => m
  | w :: rest =>
    m.writeCell j (((w :: rest).map StoreWrite.data).getD (Config.freeCellChoice s.draws j % (rest.length + 1)) w.data)

/-- R50, R98: the memory after the batch's stores. -/
def applyWrites (s : State) (writes : List StoreWrite) : Memory :=
  match s.params.policy with
  | .snapshot => (orderWrites writes).foldl (applyWrite s) s.mem
  | .race => (List.range s.params.nMem).foldl (raceWrite s writes) s.mem

end Sys2Proof.Machine
end

