-- ==== Sys2Proof/Machine/Dispatch.lean ====
section
/-! DEFINITION. The Issue stage's meaning of each instruction, one arm per constructor of `Instr`. -/

namespace Sys2Proof.Machine

def exec (i : Instr) (s : State) : Host.Outcome State Fault Refusal :=
  match i with
  | .ld fa base off => Sys2Proof.Machine.execLD fa base off s
  | .sd fa base off => Sys2Proof.Machine.execSD fa base off s
  | .addD fa fb fc => Sys2Proof.Machine.execAddD fa fb fc s
  | .subD fa fb fc => Sys2Proof.Machine.execSubD fa fb fc s
  | .mulD fa fb fc => Sys2Proof.Machine.execMulD fa fb fc s
  | .divD fa fb fc => Sys2Proof.Machine.execDivD fa fb fc s

end Sys2Proof.Machine
end

