-- ==== Sys2Proof/WellFormed.lean ====
section
/-! DEFINITION. When an instruction record is well formed for a block with `N_FPR` FP registers (R63, R68). -/

namespace Sys2Proof

/-- R68, last clause: every FP index field the op uses is below `N_FPR`. With `N_FPR = 16` every record is well formed (R63). -/
def Instr.wellFormed (nFpr : Nat) (i : Instr) : Bool :=
  i.fpFields.all fun f => decide (f.toNat < nFpr)

end Sys2Proof
end

