-- ==== Sys2Proof/Decode.lean ====
section
/-! DEFINITION. The record word (R61 to R68): decoder, encoder, the validity check of R68, the opcode table's masks (R62), the abstract record (R60) and `decodeTableWord`. -/

namespace Sys2Proof

/-- Why a word is no record (R66, R67): the names under which `decode` rejects. -/
inductive DecodeError where
  /-- `IR[2:0]` is 6 or 7 (R66). -/
  | illegalOp
  /-- A bit of `IR[7:3]` or `IR[31:25]` is 1 (R67). -/
  | reservedBits
  /-- A field the format does not use is not 0 (R67). -/
  | unusedField
  deriving DecidableEq, Repr

/-- R61: the 3-bit code of an operation, the slot field `op` of R30. -/
def Op.code : Op → BitVec 3
  | .ld => 0
  | .sd => 1
  | .addD => 2
  | .subD => 3
  | .mulD => 4
  | .divD => 5

/-- R61: the operation an op field selects; 6 and 7 select none. -/
def Op.ofCode (c : BitVec 3) : Option Op :=
  match c.toNat with
  | 0 => some .ld
  | 1 => some .sd
  | 2 => some .addD
  | 3 => some .subD
  | 4 => some .mulD
  | 5 => some .divD
  | _ => none

namespace Word

/-- `IR[2:0]`, the field `OP` of R62. -/
def opField (w : Word) : BitVec 3 := w.extractLsb' 0 3

/-- `IR[11:8]`, the field `FA`. -/
def faField (w : Word) : FReg := w.extractLsb' 8 4

/-- `IR[15:12]`, the field `FB`. -/
def fbField (w : Word) : FReg := w.extractLsb' 12 4

/-- `IR[19:16]`, the field `FC`. -/
def fcField (w : Word) : FReg := w.extractLsb' 16 4

/-- `IR[24:20]`, the field `RB`. -/
def rbField (w : Word) : IReg := w.extractLsb' 20 5

/-- `IR[63:32]`, the field `OFF`. -/
def offField (w : Word) : Offset := w.extractLsb' 32 32

/-- R67: the reserved bits `IR[7:3]` and `IR[31:25]` are 0. -/
def reservedClear (w : Word) : Bool := w.extractLsb' 3 5 == 0 && w.extractLsb' 25 7 == 0

/-- R67: M format leaves `FB` and `FC` unused. -/
def unusedClearM (w : Word) : Bool := w.extractLsb' 12 8 == 0

/-- R67: A format leaves `RB` and `OFF` unused. -/
def unusedClearA (w : Word) : Bool := w.extractLsb' 20 5 == 0 && w.extractLsb' 32 32 == 0

end Word

/-- The instruction an M-format word of an op holds, once its unused fields are known to be clear (R62, R67). -/
def decodeM (mk : FReg → IReg → Offset → Instr) (w : Word) : Except DecodeError Instr :=
  if Word.unusedClearM w then .ok (mk (Word.faField w) (Word.rbField w) (Word.offField w)) else .error .unusedField

/-- The instruction an A-format word of an op holds (R62, R67). -/
def decodeA (mk : FReg → FReg → FReg → Instr) (w : Word) : Except DecodeError Instr :=
  if Word.unusedClearA w then .ok (mk (Word.faField w) (Word.fbField w) (Word.fcField w)) else .error .unusedField

/-- R61 to R67: the instruction a record word holds, or the name of what is wrong with it. -/
def decode (w : Word) : Except DecodeError Instr :=
  match Op.ofCode (Word.opField w) with
  | none => .error .illegalOp
  | some op =>
    if Word.reservedClear w then
      match op with
      | .ld => decodeM .ld w
      | .sd => decodeM .sd w
      | .addD => decodeA .addD w
      | .subD => decodeA .subD w
      | .mulD => decodeA .mulD w
      | .divD => decodeA .divD w
    else .error .reservedBits

/-- The M-format word of R62: `OFF 0000000 RB 0000 0000 FA 00000 OP`. -/
def encodeM (op : Op) (fa : FReg) (base : IReg) (off : Offset) : Word :=
  off ++ 0#7 ++ base ++ 0#4 ++ 0#4 ++ fa ++ 0#5 ++ op.code

/-- The A-format word of R62: `0 0000000 00000 FC FB FA 00000 OP`. -/
def encodeA (op : Op) (fa fb fc : FReg) : Word :=
  0#32 ++ 0#7 ++ 0#5 ++ fc ++ fb ++ fa ++ 0#5 ++ op.code

/-- R61 to R64: the record word of an instruction. -/
def encode : Instr → Word
  | .ld fa base off => encodeM .ld fa base off
  | .sd fa base off => encodeM .sd fa base off
  | .addD fa fb fc => encodeA .addD fa fb fc
  | .subD fa fb fc => encodeA .subD fa fb fc
  | .mulD fa fb fc => encodeA .mulD fa fb fc
  | .divD fa fb fc => encodeA .divD fa fb fc

/-- R62: the fixed-bit mask of an operation's format. -/
def Op.mask : Op → Word
  | .ld | .sd => 0x00000000FE0FF0FF
  | .addD | .subD | .mulD | .divD => 0xFFFFFFFFFFF000FF

/-- R62: "The match of each operation equals its op code in the low bits and zero elsewhere". -/
def Op.matchBits (op : Op) : Word := op.code.setWidth 64

/-- The opcode table's test of one row (R62). -/
def Op.matchesWord (op : Op) (w : Word) : Bool := w &&& op.mask == op.matchBits

/-- The six operations, in the order of the opcode table. -/
def Op.all : List Op := [.ld, .sd, .addD, .subD, .mulD, .divD]

/-- R68, `valid(IR)`, clause by clause as the spec writes it. -/
def validRecord (nFpr : Nat) (w : Word) : Bool :=
  let op := (w.extractLsb' 0 3).toNat
  let fa := (w.extractLsb' 8 4).toNat
  let fb := (w.extractLsb' 12 4).toNat
  let fc := (w.extractLsb' 16 4).toNat
  decide (op ≤ 5) &&
  (w.extractLsb' 3 5 == 0 && w.extractLsb' 25 7 == 0) &&
  (!(op == 0 || op == 1) || w.extractLsb' 12 8 == 0) &&
  (!(op == 2 || op == 3 || op == 4 || op == 5) || (w.extractLsb' 20 5 == 0 && w.extractLsb' 32 32 == 0)) &&
  (decide (fa < nFpr) && ((op == 0 || op == 1) || (decide (fb < nFpr) && decide (fc < nFpr))))

/-- The instruction the block issues from a record word: the decoded one, if it is well formed (R68, R69). -/
def decodeRecord (nFpr : Nat) (w : Word) : Option Instr :=
  match decode w with
  | .ok i => if i.wellFormed nFpr then some i else none
  | .error _ => none

/-- The abstract record of R60: "op kind, up to three register operands, optional base+offset". -/
structure Record where
  op : Option Op
  fa : Option FReg
  fb : Option FReg
  fc : Option FReg
  base : Option IReg
  off : Option Offset
  deriving DecidableEq, Repr

/-- R68, second reading (R65, R69): every field the op requires is present and no other is; the instruction it is then. -/
def Record.instr? (r : Record) : Option Instr :=
  match r.op, r.fa, r.fb, r.fc, r.base, r.off with
  | some .ld, some fa, none, none, some base, some off => some (.ld fa base off)
  | some .sd, some fa, none, none, some base, some off => some (.sd fa base off)
  | some .addD, some fa, some fb, some fc, none, none => some (.addD fa fb fc)
  | some .subD, some fa, some fb, some fc, none, none => some (.subD fa fb fc)
  | some .mulD, some fa, some fb, some fc, none, none => some (.mulD fa fb fc)
  | some .divD, some fa, some fb, some fc, none, none => some (.divD fa fb fc)
  | _, _, _, _, _, _ => none

/-- The instruction the decoder reads from a table row's word: `w` is the record word's number (bit 0 is `IR[0]`), and
every bit from `nbits` up is 0. -/
def decodeTableWord (nbits w : Nat) : Option Instr :=
  match decode (BitVec.ofNat 64 (w % 2 ^ nbits)) with
  | .ok i => some i
  | .error _ => none

end Sys2Proof
end

