-- ==== Sys2Proof/Machine/Cycle.lean ====
section
/-! DEFINITION. The Execute stage (R89 to R94), the Writeback stage with its atomic batch (R95 to R103), and the completion check (R104, R105). -/

namespace Sys2Proof.Machine

/-! ### Execute -/

/-- The heads of the slots eligible in this cycle's Execute (R89); a load or store is always ready (R89, R94). -/
def State.executing (s : State) : List Head :=
  ((s.adds.filter fun x => s.eligible x.ready x.head).map Station.head) ++
  ((s.muls.filter fun x => s.eligible x.ready x.head).map Station.head) ++
  ((s.loads.filter fun x => s.eligible true x.head).map LoadBuffer.head) ++
  ((s.stores.filter fun x => s.eligible true x.head).map StoreBuffer.head)

/-- R90, R91 on the timestamps: the start is recorded in the first eligible cycle, the completion when the countdown reaches 0. -/
def executeStamp (clk count : Nat) (t : Stamps) : Stamps :=
  match t.exs with
  | none => { t with exs := some clk }
  | some _ => if count - 1 = 0 then { t with cmp := some clk } else t

/-- R90 to R92 on a slot's head: the countdown ticks in every eligible cycle after the first. -/
def State.executeHead (s : State) (ready : Bool) (h : Head) : Head :=
  if s.eligible ready h && (s.stamp (h.instr.getD 0)).exs.isSome then { h with count := h.count - 1 } else h

/-- R89 to R93: every eligible slot advances, each on its own fields and its own instruction's timestamps. -/
def executeStage (s : State) : State :=
  { s with
    adds := s.adds.map fun x => { x with head := s.executeHead x.ready x.head }
    muls := s.muls.map fun x => { x with head := s.executeHead x.ready x.head }
    loads := s.loads.map fun x => { x with head := s.executeHead true x.head }
    stores := s.stores.map fun x => { x with head := s.executeHead true x.head }
    stamps := s.stamps.zipIdx.map fun x =>
      match s.executing.find? fun h => h.instr == some x.2 with
      | some h => executeStamp s.clk h.count x.1
      | none => x.1 }

/-! ### Writeback: the candidates and their evaluation (R95 to R97) -/

/-- R95: the candidate stations, `Add` then `Mul`. -/
def State.stationCandidates (s : State) : List (SlotId × Station) :=
  (tagged .add s.adds ++ tagged .mul s.muls).filter fun c => s.writable c.2.head

/-- R95: the candidate load buffers. -/
def State.loadCandidates (s : State) : List (SlotId × LoadBuffer) :=
  (tagged .load s.loads).filter fun c => s.writable c.2.head

/-- R95: the candidate store buffers; one whose data is pending is skipped (condition 4). -/
def State.storeCandidates (s : State) : List (SlotId × StoreBuffer) :=
  (tagged .store s.stores).filter fun c => s.writable c.2.head && c.2.qd.isNone

/-- The slots that write back in this cycle. -/
def State.candidateSlots (s : State) : List SlotId :=
  s.stationCandidates.map Prod.fst ++ s.loadCandidates.map Prod.fst ++ s.storeCandidates.map Prod.fst

/-- The instructions that write back in this cycle. -/
def State.candidateInstrs (s : State) : List Nat :=
  s.stationCandidates.filterMap (fun c => c.2.head.instr) ++ s.loadCandidates.filterMap (fun c => c.2.head.instr) ++
  s.storeCandidates.filterMap (fun c => c.2.head.instr)

/-- The candidates' memory accesses: instruction index and effective address. -/
def State.accesses (s : State) : List (Nat × Int) :=
  s.loadCandidates.map (fun c => (c.2.head.instr.getD 0, c.2.address s)) ++
  s.storeCandidates.map (fun c => (c.2.head.instr.getD 0, c.2.address s))

/-- Of two accesses, the one of the lower instruction index. -/
def lowerAccess (a : Nat × Int) : Option (Nat × Int) → Option (Nat × Int)
  | none => some a
  | some b => if b.1 < a.1 then some b else some a

/-- R132, R133: the faulting access of the lowest instruction index, if a candidate's address is out of range. -/
def State.faultingAccess (s : State) : Option (Nat × Int) :=
  (s.accesses.filter fun a => (cellOf s.params a.2).isNone).foldr lowerAccess none

/-- R96, R97: the queued memory writes. -/
def State.queuedWrites (s : State) : List StoreWrite :=
  s.storeCandidates.map fun c => ⟨c.2.head.instr.getD 0, c.2.address s, c.2.vd⟩

/-- R96, R97: the queued broadcasts, every one evaluated from the state at the start of Writeback. -/
def State.broadcasts (s : State) : List Broadcast :=
  (s.stationCandidates.map fun c => ⟨c.1, stationResult s c.1 c.2, c.2.dest⟩) ++
  (s.loadCandidates.filterMap fun c =>
    (loadValue s s.queuedWrites c.1 (c.2.address s)).map fun v => ⟨c.1, v, c.2.dest⟩)

/-- R97: `T[k].wbk <- clk` for every candidate. -/
def recordWriteback (ks : List Nat) (s : State) : State :=
  { s with stamps := s.stamps.zipIdx.map fun x => if x.2 ∈ ks then { x.1 with wbk := some s.clk } else x.1 }

/-- R97 to R101 when no candidate faults: timestamps, memory writes, broadcasts, releases, all computed from `s`. -/
def commitBatch (s : State) : State :=
  release s.candidateSlots <|
    s.broadcasts.foldl applyBroadcast
      { recordWriteback s.candidateInstrs s with mem := applyWrites s s.queuedWrites, draws := s.draws + 1 }

/-- R95 to R103, R132: the Writeback stage. -/
def writebackStage (s : State) : State :=
  match s.faultingAccess with
  | some a => raiseMemRange a.1 a.2 s
  | none => commitBatch s

/-! ### Completion and the cap (R104, R105) -/

/-- R104, R105, R133: `DONE` first, then the cap; no check is made after a fault (R132). DESIGN CHOICE (log 20): with `CAP = 0`, where
this end-of-cycle test and "at most `CAP` cycles run" cannot both hold, the test is kept, so a non-empty program runs one cycle. -/
def completionCheck (s : State) : State :=
  if s.status = .fault then s
  else if s.complete then { s with status := .done }
  else if s.params.cap ≤ s.clk then { s with status := .capHalt }
  else s

/-- R80: what follows Issue in a cycle. -/
def finishCycle (s : State) : State := completionCheck (writebackStage (executeStage s))

end Sys2Proof.Machine
end

