-- ==== Sys2Proof/Machine/Construct.lean ====
section
/-! DEFINITION. Construction, the only reset (R150, R10): the inputs are loaded, the rest of the state set, every record checked (R70) and the completion test made (R104). -/

namespace Sys2Proof.Machine

open Sys2Proof.Config (Params)

/-- R10: what the host supplies at construction; `none` for an initial file takes the default (R150). -/
structure Inputs where
  params : Params
  prog : List Word
  intInit : Option (List Word)
  fpInit : Option (List Word)
  memInit : Option (List Word)
  deriving DecidableEq, Repr, Inhabited

/-- An initial file of `n` values; a value the host leaves out is the default (log 16). -/
def loadFile (n : Nat) (dflt : Word) (init : Option (List Word)) : List Word :=
  (List.range n).map fun i => (init.getD []).getD i dflt

/-- The initial memory (R38, R150). -/
def loadMemory (n : Nat) (init : Option (List Word)) : Memory :=
  (List.range n).foldl (fun m j => m.writeCell j ((init.getD []).getD j Config.one)) []

/-- R70: the lowest index of a record that fails R68. -/
def firstInvalid (nFpr : Nat) (prog : List Word) : Option Nat := prog.findIdx? fun w => !validRecord nFpr w

/-- R150, steps 1 and 2. -/
def loadInputs (inp : Inputs) : State where
  params := inp.params
  clk := 0
  status := .run
  next := 0
  faultCode := .none
  faultInfo := none
  prog := inp.prog
  stamps := List.replicate inp.prog.length Stamps.empty
  fpr := loadFile inp.params.nFpr Config.one inp.fpInit
  gpr := loadFile inp.params.nIntr Config.intInit inp.intInit
  adds := List.replicate inp.params.nAdd Station.free
  muls := List.replicate inp.params.nMul Station.free
  loads := List.replicate inp.params.nLoad LoadBuffer.free
  stores := List.replicate inp.params.nStore StoreBuffer.free
  rrs := List.replicate inp.params.nFpr none
  mem := loadMemory inp.params.nMem inp.memInit
  draws := 0

/-- R150: construction. Step 3 is the record check (R70), step 4 the completion test on the empty program (R104). -/
def construct (inp : Inputs) : State :=
  let s := loadInputs inp
  match firstInvalid inp.params.nFpr inp.prog with
  | some k => raiseFault .invalidRecord ⟨k, none⟩ s
  | none => if s.complete then { s with status := .done } else s

end Sys2Proof.Machine
end

