-- ==== Sys2Proof/Machine/Fetch.lean ====
section
/-! DEFINITION. Where Issue finds its instruction (R81): the record at `NEXT`; and the load of one record there, for `withFetchWord`. -/

namespace Sys2Proof.Machine

/-- R81: the record word `P[NEXT]`, absent when `NEXT = N`. -/
def fetch (s : State) : Option Word := s.prog[s.next]?

/-- One record word loaded where `step` issues from: `P[NEXT] = w`, its timestamps `⊥`, and `STATUS = RUN` (log 4). The records
before and after it stay. -/
def loadRecord (s : State) (w : Word) : State :=
  let n := min s.next s.prog.length
  { s with
    prog := s.prog.take n ++ w :: s.prog.drop (n + 1)
    stamps := s.stamps.take n ++ Stamps.empty :: s.stamps.drop (n + 1)
    next := n
    status := .run }

end Sys2Proof.Machine
end

