-- ==== Sys2Proof/Machine/Engine.lean ====
section
/-! DEFINITION. One assertion of `step` (R80) and the Issue stage inside it (R81). -/

namespace Sys2Proof.Machine

/-- R80 from Issue on, for the instruction Issue considers. -/
def cycleWith (i : Instr) (s : State) : Host.Outcome State Fault Refusal :=
  match exec i (tick s) with
  | .next t => .next (finishCycle t)
  | .fault r => .fault r
  | .refused r => .refused r

/-- R80 when `STATUS = RUN`: the clock advances, the instruction at `NEXT` (if there is one, R81) goes through Issue, and Execute,
Writeback and the completion check follow. A record that fails R68 is never issued (R69; log 5). -/
def runCycle (s : State) : Host.Outcome State Fault Refusal :=
  match fetch s with
  | none => .next (finishCycle (tick s))
  | some w =>
    match decodeRecord s.params.nFpr w with
    | none => .fault (.invalidRecord s.next)
    | some i => cycleWith i s

/-- R80: one cycle when `STATUS = RUN`; otherwise `step` has no effect (R21). -/
def stepBlock (s : State) : Host.Outcome State Fault Refusal :=
  match s.status with
  | .run => runCycle s
  | .done => .next s
  | .capHalt => .next s
  | .fault => .next s

end Sys2Proof.Machine
end

