-- ==== Sys2Proof/Machine/Step.lean ====
section
/-! DEFINITION. The step function and the load of one instruction where it issues from. -/

namespace Sys2Proof.Machine

/-- One assertion of the port `step` (R10, R80). -/
def step (s : State) : Host.Outcome State Fault Refusal := stepBlock s

/-- The table word `w` of `nbits` bits loaded where `step` issues from (log 4). -/
def State.withFetchWord (s : State) (nbits w : Nat) : State := loadRecord s (BitVec.ofNat 64 (w % 2 ^ nbits))

end Sys2Proof.Machine
end

