-- ==== Sys2Proof/Machine/Assembler.lean ====
section
/-! DEFINITION. The output contract of the external decoder (R71 to R73, R26, R63): which tokens of a line, mnemonic and operands, are a record, and how a program's kept lines are numbered. Splitting a line into tokens is outside the block (R4). -/

namespace Sys2Proof.Machine

/-- An operand token: `F<n>`, `R<n>`, `<offset>(R<n>)` (R71), or any other text, which no line takes (R72). -/
inductive AsmOperand where
  | fp (numeral : Nat)
  | int (numeral : Nat)
  | mem (offset : Int) (numeral : Nat)
  | other (text : List Char)
  deriving DecidableEq, Repr

/-- R26, R63, R72: `F<even integer 0..30>` is register numeral/2; an odd numeral or one above 30 names no register. -/
def fpRegister (numeral : Nat) : Option FReg :=
  if numeral % 2 = 0 ∧ numeral ≤ 30 then some (BitVec.ofNat 4 (numeral / 2)) else none

/-- R63, R72: `R<0..31>`. -/
def intRegister (numeral : Nat) : Option IReg :=
  if numeral ≤ 31 then some (BitVec.ofNat 5 numeral) else none

/-- R72 (D26): an offset that does not fit in `OFFW` signed bits names nothing. -/
def offsetField (offset : Int) : Option Offset :=
  if -(2 ^ 31) ≤ offset ∧ offset < 2 ^ 31 then some (BitVec.ofInt 32 offset) else none

/-- R26: the numeral of an FP register's assembler name. -/
def fpNumeral (f : FReg) : Nat := 2 * f.toNat

/-- R71: `L.D` and `S.D` take one FP register and one memory operand. DESIGN CHOICE: extra operands, OPEN in R72 and D25, are a wrong
operand count, so the line is dropped (log 17). -/
def assembleMem (mk : FReg → IReg → Offset → Instr) : List AsmOperand → Option Instr
  | [.fp d, .mem o b] =>
    match fpRegister d, intRegister b, offsetField o with
    | some fa, some base, some off => some (mk fa base off)
    | _, _, _ => none
  | _ => none

/-- R71: the arithmetic ops take three FP registers: destination, source, source. DESIGN CHOICE: extra operands drop the line (R72, D25;
log 17). -/
def assembleArith (mk : FReg → FReg → FReg → Instr) : List AsmOperand → Option Instr
  | [.fp d, .fp j, .fp k] =>
    match fpRegister d, fpRegister j, fpRegister k with
    | some fa, some fb, some fc => some (mk fa fb fc)
    | _, _, _ => none
  | _ => none

/-- R71: the record of an operation's operand list, or nothing where the list is malformed (R72). -/
def assembleOperands (op : Op) (operands : List AsmOperand) : Option Instr :=
  match op with
  | .ld => assembleMem .ld operands
  | .sd => assembleMem .sd operands
  | .addD => assembleArith .addD operands
  | .subD => assembleArith .subD operands
  | .mulD => assembleArith .mulD operands
  | .divD => assembleArith .divD operands

/-- R71: the mnemonic of an operation, in capitals. -/
def mnemonicOf : Op → List Char
  | .ld => ['L', '.', 'D']
  | .sd => ['S', '.', 'D']
  | .addD => ['A', 'D', 'D', '.', 'D']
  | .subD => ['S', 'U', 'B', '.', 'D']
  | .mulD => ['M', 'U', 'L', '.', 'D']
  | .divD => ['D', 'I', 'V', '.', 'D']

/-- R71, R73: the operation a mnemonic token names, in either case; the six are all there are, and any other token names none. -/
def opNamed (token : List Char) : Option Op :=
  [Op.ld, .sd, .addD, .subD, .mulD, .divD].find? fun op => mnemonicOf op == token.map Char.toUpper

/-- R71, R72: the record of one line, or nothing where its mnemonic is unknown or its operands are malformed. -/
def assembleLine (mnemonic : List Char) (operands : List AsmOperand) : Option Instr :=
  match opNamed mnemonic with
  | some op => assembleOperands op operands
  | none => none

/-- R72: malformed and unrecognized lines are dropped and the records numbered densely. -/
def assemble (lines : List (List Char × List AsmOperand)) : List Word :=
  (lines.filterMap fun l => assembleLine l.1 l.2).map encode

end Sys2Proof.Machine
end

