-- ==== Sys2Proof/Machine/Ports.lean ====
section
/-! DEFINITION. The read-only ports of the block (R10): the snapshot (R140), `status`, `unfinished` and the fault registers. Reading one changes nothing, since each is a function of the state. -/

namespace Sys2Proof.Machine

/-- R21: the 2-bit register value of a run state. -/
def Status.code : Status → BitVec 2
  | .run => 0
  | .done => 1
  | .capHalt => 2
  | .fault => 3

/-- R131, R23: the 4-bit value of a fault code. -/
def FaultCode.code : FaultCode → BitVec 4
  | .none => 0
  | .invalidRecord => 1
  | .memRange => 2

/-- R140: the fields the block exposes after every cycle and after construction (D28). -/
structure Snapshot where
  prog : List Word
  adds : List Station
  muls : List Station
  loads : List LoadBuffer
  stores : List StoreBuffer
  rrs : List (BitVec 4)
  fpr : List Word
  gpr : List Word
  stamps : List Stamps
  clk : Nat
  next : Nat
  status : BitVec 2
  mem : List Word
  faultCode : BitVec 4
  faultInfo : Option FaultInfo
  deriving DecidableEq, Repr

/-- R140: the snapshot of a state, with tags, `STATUS` and `FAULT_CODE` as their codes (R21, R29, R131). -/
def State.snapshot (s : State) : Snapshot where
  prog := s.prog
  adds := s.adds
  muls := s.muls
  loads := s.loads
  stores := s.stores
  rrs := s.rrs.map (tagCode s.params)
  fpr := s.fpr
  gpr := s.gpr
  stamps := s.stamps
  clk := s.clk
  next := s.next
  status := s.status.code
  mem := (List.range s.params.nMem).map s.mem.readCell
  faultCode := s.faultCode.code
  faultInfo := s.faultInfo

/-- R10, R105: the port `unfinished`, shown when `STATUS = CAP_HALT`. -/
def State.unfinishedPort (s : State) : Option (List Nat) :=
  if s.status = .capHalt then some s.unfinished else none

/-- R10: the ports `fault_code` and `fault_info`, shown when `STATUS = FAULT`. -/
def State.faultPort (s : State) : Option (FaultCode × Option FaultInfo) :=
  if s.status = .fault then some (s.faultCode, s.faultInfo) else none

/-- R139: the retirement count, the number of `k` with `T[k].wbk ≠ ⊥`. -/
def State.retired (s : State) : Nat := s.stamps.countP fun t => t.wbk.isSome

end Sys2Proof.Machine
end

