-- ==== Sys2Proof/Safety.lean ====
section
/-! DEFINITION. What a well-formed state and a coherent run are, in the terms the statements use: the representation of State (`State.Wf`), the status and fault registers (`State.StatusWf`), and the invariants of R22, R25, R35, R36, R105 and R159 at the end of a cycle (`State.Coherent`). -/

namespace Sys2Proof.Machine

/-- One slot of any pool as the invariants see it (R30 to R32). -/
structure SlotView where
  id : SlotId
  head : Head
  /-- The destination register, absent for a store buffer. -/
  dest : Option FReg
  /-- The base register and offset, absent for a station. -/
  address : Option (IReg × Offset)
  /-- The tags the slot holds. -/
  waits : List SlotId
  /-- Whether the slot is the free slot of R33. -/
  cleared : Bool
  deriving DecidableEq, Repr

/-- A station as a slot. -/
def stationView (c : SlotId × Station) : SlotView :=
  ⟨c.1, c.2.head, some c.2.dest, none, c.2.qj.toList ++ c.2.qk.toList, c.2 == Station.free⟩

/-- A load buffer as a slot. -/
def loadView (c : SlotId × LoadBuffer) : SlotView :=
  ⟨c.1, c.2.head, some c.2.dest, some (c.2.base, c.2.off), [], c.2 == LoadBuffer.free⟩

/-- A store buffer as a slot. -/
def storeView (c : SlotId × StoreBuffer) : SlotView :=
  ⟨c.1, c.2.head, none, some (c.2.base, c.2.off), c.2.qd.toList, c.2 == StoreBuffer.free⟩

/-- Every slot of the block, in the order of the tag codes (R29). -/
def State.slots (s : State) : List SlotView :=
  (tagged .add s.adds).map stationView ++ (tagged .mul s.muls).map stationView ++
  (tagged .load s.loads).map loadView ++ (tagged .store s.stores).map storeView

/-- The instruction at index `k` of the record store. -/
def State.recordAt (s : State) (k : Nat) : Option Instr := (s.prog[k]?).bind (decodeRecord s.params.nFpr)

/-- The destination register of instruction `k`. -/
def State.destAt (s : State) (k : Nat) : Option FReg := (s.recordAt k).bind Instr.dest

/-- An issued instruction later than `k` writes register `i`. -/
abbrev State.superseded (s : State) (k : Nat) (i : FReg) : Prop := ∃ k' < s.next, k < k' ∧ s.destAt k' = some i

/-- The representation every state of the machine keeps, whatever its status: legal parameters, files, pools and tables of
their capacities (R28, R36 item 1), one timestamp row per record (R25), and the memory in canonical form inside its cells (R40). -/
structure State.Wf (s : State) : Prop where
  params : s.params.wf
  fpr : s.fpr.length = s.params.nFpr
  gpr : s.gpr.length = s.params.nIntr
  adds : s.adds.length = s.params.nAdd
  muls : s.muls.length = s.params.nMul
  loads : s.loads.length = s.params.nLoad
  stores : s.stores.length = s.params.nStore
  rrs : s.rrs.length = s.params.nFpr
  stamps : s.stamps.length = s.prog.length
  memCanonical : s.mem.wf
  memInside : ∀ c ∈ s.mem, c.1 < 8 * s.params.nMem

/-- The status and fault registers agree (R21, R23, R131). -/
abbrev State.StatusWf (s : State) : Prop :=
  (s.status = .fault ↔ s.faultCode ≠ .none) ∧ (s.faultCode = .none → s.faultInfo = none)

/-- R25, R159: issue before execution start before completion before write-back, each set only after the one before it, and
none later than the clock. -/
abbrev Stamps.Ordered (clk : Nat) (t : Stamps) : Prop :=
  (∀ a ∈ t.iss, 1 ≤ a ∧ a ≤ clk) ∧ (∀ e ∈ t.exs, ∃ a ∈ t.iss, a < e ∧ e ≤ clk) ∧
  (∀ c ∈ t.cmp, ∃ e ∈ t.exs, e < c ∧ c ≤ clk) ∧ (∀ w ∈ t.wbk, ∃ c ∈ t.cmp, c < w ∧ w ≤ clk)

/-- A busy slot holds an issued instruction that has not written back, with its op, pool, destination and addressing (R36 item 3, R85). -/
abbrev State.Holds (s : State) (x : SlotView) (k : Nat) : Prop :=
  x.head.instr = some k ∧ k < s.next ∧ (s.stamp k).wbk = none ∧
  (s.recordAt k).map Instr.op = some x.head.op ∧ poolOf x.head.op = x.id.pool ∧ s.destAt k = x.dest ∧
  (s.recordAt k).bind Instr.addressing = x.address

/-- How far the instruction in a busy slot has come at the end of a cycle: the countdown is full before the start, has ticked once in
every cycle since, and is 0 at completion; a station with a pending tag has not started (R87 to R92); a completed instruction that is
no store completed in this very cycle, since it would have written back otherwise (R95). -/
abbrev State.Progress (s : State) (x : SlotView) (k : Nat) : Prop :=
  ((s.stamp k).exs = none → x.head.count = latency s.params x.head.op) ∧
  (∀ e ∈ (s.stamp k).exs, (s.stamp k).cmp = none →
    1 ≤ x.head.count ∧ x.head.count + (s.clk - e) = latency s.params x.head.op) ∧
  ((s.stamp k).cmp ≠ none → x.head.count = 0) ∧
  (x.id.pool ≠ .store → x.waits ≠ [] → (s.stamp k).exs = none) ∧
  (x.id.pool ≠ .store → ∀ c ∈ (s.stamp k).cmp, c = s.clk)

/-- What holds at the end of every cycle, and after construction, as long as no fault was raised (R22, R25, R35, R36, R105, R159). -/
structure State.Coherent (s : State) : Prop where
  /-- R22. -/
  nextLe : s.next ≤ s.prog.length
  /-- R70: the record check has passed. -/
  records : s.prog.all (validRecord s.params.nFpr) = true
  /-- R22: every instruction below `NEXT` has been issued. -/
  issued : ∀ k < s.next, (s.stamp k).iss ≠ none
  /-- R22, R25: no other has, and its timestamps are all `⊥`. -/
  notIssued : ∀ k < s.prog.length, s.next ≤ k → s.stamp k = Stamps.empty
  /-- R25, R159. -/
  ordered : ∀ k < s.next, (s.stamp k).Ordered s.clk
  /-- R91, R107: completion comes `Lat(op)` cycles after the start. -/
  latency : ∀ k < s.next, ∀ c ∈ (s.stamp k).cmp, ∃ e ∈ (s.stamp k).exs, ∃ i ∈ s.recordAt k, c = e + latency s.params i.op
  /-- R88: issue is in program order, one instruction a cycle. -/
  issueOrder : ∀ j < s.next, ∀ i < j, ∀ a ∈ (s.stamp i).iss, ∀ b ∈ (s.stamp j).iss, a < b
  /-- R36 item 3: an issued instruction occupies a slot until it has written back. -/
  occupies : ∀ k < s.next, (s.stamp k).wbk = none → ∃ x ∈ s.slots, x.head.busy = true ∧ x.head.instr = some k
  /-- R36 items 1 and 3: a busy slot holds one such instruction. -/
  holds : ∀ x ∈ s.slots, x.head.busy = true → ∃ k < s.next, s.Holds x k ∧ s.Progress x k
  /-- R36 item 3: an instruction occupies one slot only. -/
  unique : ∀ x ∈ s.slots, ∀ y ∈ s.slots, x.head.busy = true → y.head.busy = true → x.head.instr = y.head.instr → x.id = y.id
  /-- R33: a free slot is cleared. -/
  freeCleared : ∀ x ∈ s.slots, x.head.busy = false → x.cleared = true
  /-- R36 items 2 and 4: a tag names a busy slot with a destination, whose instruction is older. -/
  tags : ∀ x ∈ s.slots, ∀ q ∈ x.waits, ∃ y ∈ s.slots, y.id = q ∧ y.head.busy = true ∧ y.dest ≠ none ∧
    ∃ k ∈ x.head.instr, ∃ j ∈ y.head.instr, j < k
  /-- R35: an entry of the rename table names the busy slot of the latest issued writer of its register. -/
  rename : ∀ i : FReg, ∀ q ∈ s.readRRS i, ∃ y ∈ s.slots, y.id = q ∧ y.head.busy = true ∧ y.dest = some i ∧
    ∃ k ∈ y.head.instr, ¬ s.superseded k i
  /-- R35, the converse for the latest writer. -/
  latestNamed : ∀ y ∈ s.slots, y.head.busy = true → ∀ i ∈ y.dest, ∀ k ∈ y.head.instr,
    ¬ s.superseded k i → s.readRRS i = some y.id
  /-- R104: a running block has an instruction that has not written back. -/
  running : s.status = .run → s.complete = false
  /-- R104. -/
  finished : s.status = .done → s.complete = true
  /-- R105, R133: a halt at the cap found an instruction that has not written back. -/
  halted : s.status = .capHalt → s.complete = false ∧ s.params.cap ≤ s.clk
  /-- R105, R20: a running block has not reached the cap, but for a block that has run no cycle (`CAP = 0`, log 20). -/
  underCap : s.status = .run → s.clk < s.params.cap ∨ s.clk = 0

/-- R36 and its kin as one invariant of the step: the state is well formed, and coherent unless a fault was raised (after a
`MEM_RANGE` fault nothing else is specified, R132). -/
structure State.Inv (s : State) : Prop where
  wf : s.Wf
  statusWf : s.StatusWf
  coherent : s.status ≠ .fault → s.Coherent

/-! ### Terms of the statements -/

/-- The heads of a pool's slots. -/
def State.poolHeads (s : State) : Pool → List Head
  | .add => s.adds.map Station.head
  | .mul => s.muls.map Station.head
  | .load => s.loads.map LoadBuffer.head
  | .store => s.stores.map StoreBuffer.head

/-- R82: no slot of the pool is free. -/
abbrev State.poolFull (s : State) (p : Pool) : Prop := ∀ h ∈ s.poolHeads p, h.busy = true

/-- R36 items 1 and 3: no instruction is in two busy slots. -/
abbrev State.UniqueOwners (s : State) : Prop :=
  ∀ x ∈ s.slots, ∀ y ∈ s.slots, x.head.busy = true → y.head.busy = true → x.head.instr = y.head.instr → x.id = y.id

/-- R89: the conditions under which a slot is eligible in Execute, as the spec lists them; a load or a store is always ready. -/
abbrev State.EligibleSlot (s : State) (x : SlotView) (k : Nat) : Prop :=
  x.head.busy = true ∧ x.head.instr = some k ∧ (∃ a ∈ (s.stamp k).iss, a < s.clk) ∧ (s.stamp k).cmp = none ∧
  (x.id.pool ≠ .store → x.waits = [])

/-- R95: the conditions under which a slot is a write-back candidate, as the spec lists them. -/
abbrev State.CandidateSlot (s : State) (x : SlotView) (k : Nat) : Prop :=
  x.head.busy = true ∧ x.head.instr = some k ∧ (∃ c ∈ (s.stamp k).cmp, c < s.clk) ∧ (s.stamp k).wbk = none ∧
  (x.id.pool = .store → x.waits = [])

/-- R95: slot `q` writes back in this Writeback. -/
abbrev State.WritesBack (s : State) (q : SlotId) : Prop := ∃ x ∈ s.slots, x.id = q ∧ ∃ k, s.CandidateSlot x k

/-- R84, R100: an operand `(v, q)` that waits for no slot of this batch is afterwards, as `(v', q')`, what it was. -/
abbrev State.OperandKept (s : State) (v : Word) (q : Tag) (v' : Word) (q' : Tag) : Prop :=
  (∀ p ∈ q, ¬ s.WritesBack p) → v' = v ∧ q' = q

/-- R132: no candidate of this Writeback has an effective address out of range. -/
abbrev State.AccessesInRange (s : State) : Prop := ∀ a ∈ s.accesses, cellOf s.params a.2 ≠ none

/-- What no issue changes: the clock, the status and fault registers, the record store, both register files, every byte of
memory, the parameters and the draw counter. -/
structure IssueFrame (s t : State) : Prop where
  params : t.params = s.params
  clk : t.clk = s.clk
  status : t.status = s.status
  faultCode : t.faultCode = s.faultCode
  faultInfo : t.faultInfo = s.faultInfo
  prog : t.prog = s.prog
  fpr : t.fpr = s.fpr
  gpr : t.gpr = s.gpr
  mem : ∀ a, t.mem.readByte a = s.mem.readByte a
  draws : t.draws = s.draws

/-- What an issue records besides the slot it fills (R83): the issue timestamp of the instruction at `NEXT`, and `NEXT + 1`. -/
structure IssueRecorded (s t : State) : Prop where
  issued : t.stamp s.next = { s.stamp s.next with iss := some s.clk }
  others : ∀ k, k ≠ s.next → t.stamp k = s.stamp k
  next : t.next = s.next + 1

/-- The destination claim of R86: `RRS[fa]` names the slot, and no other entry changes. -/
structure DestinationClaimed (fa : FReg) (slot : SlotId) (s t : State) : Prop where
  claimed : t.readRRS fa = some slot
  others : ∀ f, f ≠ fa → t.readRRS f = s.readRRS f

/-- Every slot of `t` but the one at index `j` of a pool's list is as in `s`. -/
abbrev OnlySlotChanged {α : Type} (j : Nat) (before after : List α) : Prop := ∀ i, i ≠ j → after[i]? = before[i]?

/-- R83: of a pool's slots at most one changes, and that one was free. -/
abbrev OnlyFreeSlotChanged {α : Type} (head : α → Head) (before after : List α) : Prop :=
  ∃ j, (∀ y ∈ before[j]?, (head y).busy = false) ∧ OnlySlotChanged j before after

/-- R97, R99, R100, R101: what the write-back of slot `q` of instruction `k` with destination `d` and result `v` leaves in `t`, `s`
being the state at the start of Writeback: the timestamp; the register and its entry, if the entry still names the slot, and
neither, if it names no slot of the batch; and the value in place of the tag in every waiting slot that does not itself write back. -/
structure ResultDelivered (q : SlotId) (k : Nat) (d : FReg) (v : Word) (s t : State) : Prop where
  written : t.stamp k = { s.stamp k with wbk := some s.clk }
  register : s.readRRS d = some q → t.readF d = v ∧ t.readRRS d = none
  kept : (∀ r ∈ s.readRRS d, r ∉ s.candidateSlots) → t.readF d = s.readF d ∧ t.readRRS d = s.readRRS d
  adds : ∀ (i : Nat) (y : Station), s.adds[i]? = some y → y.head.busy = true → s.writable y.head = false →
    ∃ z, t.adds[i]? = some z ∧ (y.qj = some q → z.vj = v ∧ z.qj = none) ∧ (y.qk = some q → z.vk = v ∧ z.qk = none)
  muls : ∀ (i : Nat) (y : Station), s.muls[i]? = some y → y.head.busy = true → s.writable y.head = false →
    ∃ z, t.muls[i]? = some z ∧ (y.qj = some q → z.vj = v ∧ z.qj = none) ∧ (y.qk = some q → z.vk = v ∧ z.qk = none)
  stores : ∀ (i : Nat) (y : StoreBuffer), s.stores[i]? = some y → y.head.busy = true → y.qd = some q →
    ∃ z, t.stores[i]? = some z ∧ z.vd = v ∧ z.qd = none

/-- R110 (roundTiesToEven, log 13): `r` is the exact value `n / d`, in units of 2^-1074, correctly rounded. -/
structure CorrectlyRounded (r : Word) (n d : Int) : Prop where
  /-- Overflow, and only overflow, gives an infinity: from half a unit past the largest finite value. -/
  overflow : isInf r = true ↔ (2 ^ 54 - 1) * 2 ^ 2044 * d.natAbs ≤ n.natAbs
  /-- Any other result is finite, and no finite binary64 is nearer. -/
  nearest : isInf r = false → isFinite r = true ∧
    ∀ y : Word, isFinite y = true → (signedValue r * d - n).natAbs ≤ (signedValue y * d - n).natAbs
  /-- Of two values equally near, the one with the even fraction. -/
  tie : isInf r = false → ∀ y : Word, isFinite y = true → signedValue y ≠ signedValue r →
    (signedValue y * d - n).natAbs = (signedValue r * d - n).natAbs → fpFrac r % 2 = 0
  /-- The sign is the exact value's, on underflow to 0 and overflow too. -/
  sign : n ≠ 0 → fpSign r = decide (n * d < 0)

/-- A station without its values: what a timestamp can depend on (R106). -/
def Station.timing (x : Station) : Head × Tag × Tag × FReg := (x.head, x.qj, x.qk, x.dest)

/-- A store buffer without its address and data. -/
def StoreBuffer.timing (x : StoreBuffer) : Head × Tag := (x.head, x.qd)

/-- A load buffer without its address. -/
def LoadBuffer.timing (x : LoadBuffer) : Head × FReg := (x.head, x.dest)

/-- R106: two states that agree on everything but data: `busy`, tags, countdowns, `NEXT`, timestamps, the record store, the clock,
the status and the parameters other than the batch policy agree; register and memory contents, captured values, base
registers' contents and the draws need not. -/
structure SameTiming (s t : State) : Prop where
  params : { s.params with policy := .snapshot } = { t.params with policy := .snapshot }
  clk : s.clk = t.clk
  status : s.status = t.status
  next : s.next = t.next
  prog : s.prog = t.prog
  stamps : s.stamps = t.stamps
  adds : s.adds.map Station.timing = t.adds.map Station.timing
  muls : s.muls.map Station.timing = t.muls.map Station.timing
  loads : s.loads.map LoadBuffer.timing = t.loads.map LoadBuffer.timing
  stores : s.stores.map StoreBuffer.timing = t.stores.map StoreBuffer.timing
  rrs : s.rrs = t.rrs

/-- R108: the bound on the cycle in which a program is complete. -/
def livenessBound (p : Config.Params) (prog : List Word) : Nat :=
  (prog.map fun w => match decodeRecord p.nFpr w with
    | some i => latency p i.op + 3
    | none => 0).sum

end Sys2Proof.Machine
end

