-- ==== Sys2Proof/Certificates/Slice0/Obligations.lean ====
section
/-! DEFINITION. The statements for the provers, in the order of the spec's files: encoding, construction, the cycle, Issue, Execute, Writeback, completion, the invariants, timing, arithmetic. -/

open Sys2Proof Sys2Proof.Machine

/-! ### Encoding (30_encoding.md) -/

/-- 30_encoding.md section 6 and 95_test_vectors.md V4, V5 (the layout is the spec's decision D3): words written out by the spec
decode to the instructions it names, and words it calls invalid are rejected by name. -/
def Obligations.ReferenceWordsDecode : Prop :=
  decode 0x0000002000200300 = .ok (.ld 3 2 32) ∧ decode 0xFFFFFFF800500001 = .ok (.sd 0 5 (-8)) ∧
  decode 0x0000000000021002 = .ok (.addD 0 1 2) ∧ decode 0x0000000000013403 = .ok (.subD 4 3 1) ∧
  decode 0x0000000000021004 = .ok (.mulD 0 1 2) ∧ decode 0x0000000000030505 = .ok (.divD 5 0 3) ∧
  decode 0x0000000000000006 = .error .illegalOp ∧ decode 0x0000000000000008 = .error .reservedBits ∧
  decode 0x0000000000001000 = .error .unusedField

/-- Decoding the word of any instruction, with every operand at every value, gives the instruction back. -/
def Obligations.DecodeInvertsEncode : Prop := ∀ i : Instr, decode (encode i) = .ok i

/-- No two words mean the same: a word that decodes is the word of its instruction, so every other bit of it is 0 (R67). -/
def Obligations.EncodeInvertsDecode : Prop := ∀ (w : Word) (i : Instr), decode w = .ok i → encode i = w

/-- R68 clause by clause (the spec's decision D4) accepts exactly the words the decoder reads as well-formed records. -/
def Obligations.ValidRecordsAreTheDecodableOnes : Prop :=
  ∀ (nFpr : Nat) (w : Word), validRecord nFpr w = true ↔ ∃ i, decodeRecord nFpr w = some i

/-- The masks and matches of R62 (decision D3): a word matches a row of the opcode table exactly when it decodes to an instruction
of that operation, so no word matches two rows. -/
def Obligations.DecodeFollowsOpcodeTable : Prop :=
  ∀ (w : Word) (op : Op), op.matchesWord w = true ↔ ∃ i, decode w = .ok i ∧ i.op = op

/-- R71 (the decoder's contract): each line of the syntax table, its mnemonic in either case, gives the record of its row, FP register
numerals halved, and no other line gives one: a line with an unknown mnemonic, an odd FP register numeral or one above 30, an integer
register above 31, a wrong operand count (R72), or an offset outside 32 bits (D26) is dropped. A dropped line leaves the records of the
others as if it were not there, and a kept one is the next record (R72). R72 names extra operands among the details not in the source
too (D25); that they are a wrong count is the model's choice of log 17. -/
def Obligations.AssemblerContract : Prop :=
  (mnemonicOf .ld = ['L', '.', 'D'] ∧ mnemonicOf .sd = ['S', '.', 'D'] ∧ mnemonicOf .addD = ['A', 'D', 'D', '.', 'D'] ∧
    mnemonicOf .subD = ['S', 'U', 'B', '.', 'D'] ∧ mnemonicOf .mulD = ['M', 'U', 'L', '.', 'D'] ∧ mnemonicOf .divD = ['D', 'I', 'V', '.', 'D']) ∧
  (∀ (m : List Char) (d j k : Nat), d < 16 → j < 16 → k < 16 →
    (m.map Char.toUpper = mnemonicOf .addD → assembleLine m [.fp (2 * d), .fp (2 * j), .fp (2 * k)] =
      some (.addD (BitVec.ofNat 4 d) (BitVec.ofNat 4 j) (BitVec.ofNat 4 k))) ∧
    (m.map Char.toUpper = mnemonicOf .subD → assembleLine m [.fp (2 * d), .fp (2 * j), .fp (2 * k)] =
      some (.subD (BitVec.ofNat 4 d) (BitVec.ofNat 4 j) (BitVec.ofNat 4 k))) ∧
    (m.map Char.toUpper = mnemonicOf .mulD → assembleLine m [.fp (2 * d), .fp (2 * j), .fp (2 * k)] =
      some (.mulD (BitVec.ofNat 4 d) (BitVec.ofNat 4 j) (BitVec.ofNat 4 k))) ∧
    (m.map Char.toUpper = mnemonicOf .divD → assembleLine m [.fp (2 * d), .fp (2 * j), .fp (2 * k)] =
      some (.divD (BitVec.ofNat 4 d) (BitVec.ofNat 4 j) (BitVec.ofNat 4 k)))) ∧
  (∀ (m : List Char) (d b : Nat) (off : Offset), d < 16 → b < 32 →
    (m.map Char.toUpper = mnemonicOf .ld → assembleLine m [.fp (2 * d), .mem off.toInt b] =
      some (.ld (BitVec.ofNat 4 d) (BitVec.ofNat 5 b) off)) ∧
    (m.map Char.toUpper = mnemonicOf .sd → assembleLine m [.fp (2 * d), .mem off.toInt b] =
      some (.sd (BitVec.ofNat 4 d) (BitVec.ofNat 5 b) off))) ∧
  (∀ (m : List Char) (l : List AsmOperand) (i : Instr), assembleLine m l = some i →
    m.map Char.toUpper = mnemonicOf i.op ∧
    (((i.op = .ld ∨ i.op = .sd) ∧ ∃ d < 16, ∃ b < 32, ∃ off : Offset, l = [.fp (2 * d), .mem off.toInt b]) ∨
      ((i.op ≠ .ld ∧ i.op ≠ .sd) ∧ ∃ d < 16, ∃ j < 16, ∃ k < 16, l = [.fp (2 * d), .fp (2 * j), .fp (2 * k)]))) ∧
  (∀ (m : List Char) (l : List AsmOperand),
    (∀ op, m.map Char.toUpper ≠ mnemonicOf op) ∨
      (∃ n, .fp n ∈ l ∧ (n % 2 = 1 ∨ 30 < n)) ∨ (∃ o n, .mem o n ∈ l ∧ (31 < n ∨ o < -(2 ^ 31) ∨ 2 ^ 31 ≤ o)) ∨
      (∃ op, m.map Char.toUpper = mnemonicOf op ∧ l.length ≠ (if op = .ld ∨ op = .sd then 2 else 3)) →
    assembleLine m l = none) ∧
  (∀ (before after : List (List Char × List AsmOperand)) (m : List Char) (l : List AsmOperand),
    (assembleLine m l = none → assemble (before ++ (m, l) :: after) = assemble (before ++ after)) ∧
    (∀ i, assembleLine m l = some i → assemble (before ++ (m, l) :: after) = assemble before ++ encode i :: assemble after))

/-! ### Construction (R70, R150) -/

/-- R70 (decision D4): a program with an invalid record ends construction in `FAULT` with `INVALID_RECORD` and the lowest invalid
index; the clock is 0 and no step runs a cycle. -/
def Obligations.ConstructionRefusesInvalidRecord : Prop :=
  ∀ (inp : Inputs) (k : Nat) (w : Word), inp.prog[k]? = some w → validRecord inp.params.nFpr w = false →
    (∀ j < k, ∀ v, inp.prog[j]? = some v → validRecord inp.params.nFpr v = true) →
    (construct inp).status = .fault ∧ (construct inp).faultCode = .invalidRecord ∧
    (construct inp).faultInfo = some ⟨k, none⟩ ∧ (construct inp).clk = 0 ∧ step (construct inp) = .next (construct inp)

/-- R150 (decisions D21, D27): the reset values of construction, the values the host supplies and the defaults it leaves to the block,
and the status after steps 3 and 4 for a program of valid records. -/
def Obligations.ConstructionResetValues : Prop :=
  ∀ inp : Inputs,
    (construct inp).clk = 0 ∧ (construct inp).next = 0 ∧ (∀ k, (construct inp).stamp k = ⟨none, none, none, none⟩) ∧
    (∀ x ∈ (construct inp).slots, x.head.busy = false ∧ x.cleared = true) ∧
    (∀ i, (construct inp).readRRS i = none) ∧ (construct inp).prog = inp.prog ∧
    (inp.fpInit = none → ∀ i : FReg, i.toNat < inp.params.nFpr → (construct inp).readF i = 0x3FF0000000000000) ∧
    (∀ l, inp.fpInit = some l → ∀ (i : FReg) (v : Word), i.toNat < inp.params.nFpr → l[i.toNat]? = some v → (construct inp).readF i = v) ∧
    (∀ l, inp.intInit = some l → ∀ (i : IReg) (v : Word), i.toNat < inp.params.nIntr → l[i.toNat]? = some v → (construct inp).readR i = v) ∧
    (inp.memInit = none → ∀ j < inp.params.nMem, (construct inp).mem.readCell j = 0x3FF0000000000000) ∧
    (∀ l, inp.memInit = some l → ∀ (j : Nat) (v : Word), j < inp.params.nMem → l[j]? = some v → (construct inp).mem.readCell j = v) ∧
    (inp.prog.all (validRecord inp.params.nFpr) = true →
      (construct inp).status = (if inp.prog = [] then .done else .run) ∧ (construct inp).faultCode = .none ∧ (construct inp).faultInfo = none)

/-- The model's choice of log 4: the reset state is the construction of the empty program with the defaults (R150, R104), so it is
`DONE`, and a step of it does nothing. -/
def Obligations.ResetIsDefaultConstruction : Prop :=
  State.reset = construct ⟨Config.Params.default, [], none, none, none⟩ ∧ State.reset.status = .done ∧
  State.reset.readR 2 = 0 ∧ step State.reset = .next State.reset

/-! ### The cycle (R80, R81) -/

/-- R80 and R81: one cycle advances the clock, lets Issue consider `P[NEXT]` alone (nothing when `NEXT = N`), and runs Execute,
Writeback and the completion check in that order, each on the state the one before left; when `STATUS ≠ RUN`, `step` has no effect. -/
def Obligations.CycleRunsStagesInOrder : Prop :=
  ∀ s : State,
    (s.status ≠ .run → step s = .next s) ∧
    (s.status = .run → s.next = s.prog.length →
      step s = .next (completionCheck (writebackStage (executeStage { s with clk := s.clk + 1 })))) ∧
    (s.status = .run → ∀ w i, s.prog[s.next]? = some w → decodeRecord s.params.nFpr w = some i →
      ∃ u, exec i { s with clk := s.clk + 1 } = .next u ∧
        step s = .next (completionCheck (writebackStage (executeStage u))))

/-- R69: a record that fails the check is never issued with a guessed meaning. No construction gives a running block such a record
(R70), and the stop of such a state is the model's choice of log 5. -/
def Obligations.InvalidRecordIsNeverIssued : Prop :=
  ∀ (s : State) (w : Word), s.status = .run → s.prog[s.next]? = some w → validRecord s.params.nFpr w = false →
    step s = .fault (.invalidRecord s.next)

/-- R20: the clock counts the cycles, one a step while `STATUS = RUN`, and stands still otherwise. After a `MEM_RANGE` fault it is
unspecified (R132). -/
def Obligations.ClockCountsCycles : Prop :=
  ∀ s t : State, step s = .next t →
    (s.status = .run → t.status ≠ .fault → t.clk = s.clk + 1) ∧ (s.status ≠ .run → t.clk = s.clk)

/-- R22 and R125: `NEXT` advances by exactly 1 when the instruction at `NEXT` issues and by 0 in any other cycle. -/
def Obligations.NextAdvancesOnlyByIssue : Prop :=
  ∀ s t : State, s.status = .run → step s = .next t → t.status ≠ .fault →
    (∀ i, s.recordAt s.next = some i → ¬ s.poolFull (poolOf i.op) → t.next = s.next + 1) ∧
    (∀ i, s.recordAt s.next = some i → s.poolFull (poolOf i.op) → t.next = s.next) ∧
    (s.prog.length ≤ s.next → t.next = s.next)

/-! ### Issue (R82 to R87) -/

/-- R82: the pools of the six operations; with no free slot in an instruction's pool the cycle's Issue does nothing, whatever slots other
pools have free: nothing of the state changes, and the same instruction is tried again in the next cycle. -/
def Obligations.FullPoolStallsIssue : Prop :=
  (poolOf .ld = .load ∧ poolOf .sd = .store ∧ poolOf .addD = .add ∧ poolOf .subD = .add ∧ poolOf .mulD = .mul ∧ poolOf .divD = .mul) ∧
  (∀ (i : Instr) (s : State), s.poolFull (poolOf i.op) → exec i s = .next s) ∧
  (∀ (i : Instr) (s : State), s.status = .run → s.recordAt s.next = some i → s.poolFull (poolOf i.op) →
    step s = .next (finishCycle { s with clk := s.clk + 1 }) ∧
    ((finishCycle { s with clk := s.clk + 1 }).status ≠ .fault → (finishCycle { s with clk := s.clk + 1 }).next = s.next))

/-- R83 to R87, R111, R112 (lowest free slot: decision D11; reads before the claim: D24): `ADD.D` and `SUB.D` complete their issue
whenever an add station is free: the lowest free one holds the op, the instruction, the full countdown, both operands as value or
producer tag and the destination; the destination is claimed; nothing else changes. -/
def Obligations.AddSubIssue : Prop :=
  ∀ (s : State) (fa fb fc : FReg) (j : Nat), s.Wf → fa.toNat < s.params.nFpr → s.next < s.prog.length →
    firstFree Station.head s.adds = some j →
    ∀ op ∈ [Op.addD, Op.subD], ∃ t : State,
      exec (if op = .addD then .addD fa fb fc else .subD fa fb fc) s = .next t ∧
      t.adds[j]? = some
        { head := { busy := true, op := op, instr := some s.next, count := s.params.latAdd }
          vj := if s.readRRS fb = none then s.readF fb else 0, qj := s.readRRS fb
          vk := if s.readRRS fc = none then s.readF fc else 0, qk := s.readRRS fc, dest := fa } ∧
      OnlySlotChanged j s.adds t.adds ∧ t.muls = s.muls ∧ t.loads = s.loads ∧ t.stores = s.stores ∧
      DestinationClaimed fa ⟨.add, j⟩ s t ∧ IssueRecorded s t ∧ IssueFrame s t

/-- R83 to R87, R113, R114 (D11, D24): the same for `MUL.D` and `DIV.D` and the multiply stations they share. -/
def Obligations.MulDivIssue : Prop :=
  ∀ (s : State) (fa fb fc : FReg) (j : Nat), s.Wf → fa.toNat < s.params.nFpr → s.next < s.prog.length →
    firstFree Station.head s.muls = some j →
    ∀ op ∈ [Op.mulD, Op.divD], ∃ t : State,
      exec (if op = .mulD then .mulD fa fb fc else .divD fa fb fc) s = .next t ∧
      t.muls[j]? = some
        { head := { busy := true, op := op, instr := some s.next, count := if op = .mulD then s.params.latMul else s.params.latDiv }
          vj := if s.readRRS fb = none then s.readF fb else 0, qj := s.readRRS fb
          vk := if s.readRRS fc = none then s.readF fc else 0, qk := s.readRRS fc, dest := fa } ∧
      OnlySlotChanged j s.muls t.muls ∧ t.adds = s.adds ∧ t.loads = s.loads ∧ t.stores = s.stores ∧
      DestinationClaimed fa ⟨.mul, j⟩ s t ∧ IssueRecorded s t ∧ IssueFrame s t

/-- R83, R85, R86, R120 (D11): `L.D` completes its issue whenever a load buffer is free; it holds base register index and offset, not
an address, and claims its destination. -/
def Obligations.LoadIssue : Prop :=
  ∀ (s : State) (fa : FReg) (base : IReg) (off : Offset) (j : Nat), s.Wf → fa.toNat < s.params.nFpr → s.next < s.prog.length →
    firstFree LoadBuffer.head s.loads = some j →
    ∃ t : State, exec (.ld fa base off) s = .next t ∧
      t.loads[j]? = some
        { head := { busy := true, op := .ld, instr := some s.next, count := s.params.latLoad }, base := base, off := off, dest := fa } ∧
      OnlySlotChanged j s.loads t.loads ∧ t.adds = s.adds ∧ t.muls = s.muls ∧ t.stores = s.stores ∧
      DestinationClaimed fa ⟨.load, j⟩ s t ∧ IssueRecorded s t ∧ IssueFrame s t

/-- R83, R85, R86, R121 (D11): `S.D` completes its issue whenever a store buffer is free; its data is renamed like any other source, and
it claims no register: the rename table is unchanged. -/
def Obligations.StoreIssue : Prop :=
  ∀ (s : State) (fa : FReg) (base : IReg) (off : Offset) (j : Nat), s.Wf → s.next < s.prog.length →
    firstFree StoreBuffer.head s.stores = some j →
    ∃ t : State, exec (.sd fa base off) s = .next t ∧
      t.stores[j]? = some
        { head := { busy := true, op := .sd, instr := some s.next, count := s.params.latStore }, base := base, off := off
          vd := if s.readRRS fa = none then s.readF fa else 0, qd := s.readRRS fa } ∧
      OnlySlotChanged j s.stores t.stores ∧ t.adds = s.adds ∧ t.muls = s.muls ∧ t.loads = s.loads ∧ t.rrs = s.rrs ∧
      IssueRecorded s t ∧ IssueFrame s t

/-- The frame of all six instructions at Issue (R83 to R86, R122): register files, memory, clock, status and the records are as before;
the rename table may change only at the destination, the timestamps and `NEXT` only by the issue. The pools the instruction does not
use are unchanged, and of its own at most one slot, a free one, changes. -/
def Obligations.IssueChangesOnlyIssueState : Prop :=
  ∀ (i : Instr) (s t : State), exec i s = .next t →
    IssueFrame s t ∧ (∀ f, some f ≠ i.dest → t.readRRS f = s.readRRS f) ∧ (∀ k, k ≠ s.next → t.stamp k = s.stamp k) ∧
    (poolOf i.op ≠ .add → t.adds = s.adds) ∧ (poolOf i.op ≠ .mul → t.muls = s.muls) ∧
    (poolOf i.op ≠ .load → t.loads = s.loads) ∧ (poolOf i.op ≠ .store → t.stores = s.stores) ∧
    OnlyFreeSlotChanged Station.head s.adds t.adds ∧ OnlyFreeSlotChanged Station.head s.muls t.muls ∧
    OnlyFreeSlotChanged LoadBuffer.head s.loads t.loads ∧ OnlyFreeSlotChanged StoreBuffer.head s.stores t.stores ∧
    (t = s ∨ t.next = s.next + 1)

/-! ### Execute (R89 to R94) -/

/-- R90: in the first cycle in which a slot is eligible, Execute records the start at the current cycle and does not change the slot's
countdown, nor its op, instruction, tags, destination, base or offset. (Its captured values are kept by
`ExecuteTouchesOnlyEligibleSlots`.) -/
def Obligations.ExecutionStartConsumesNoTick : Prop :=
  ∀ (s : State) (x : SlotView) (k : Nat), s.UniqueOwners → x ∈ s.slots → k < s.stamps.length → s.EligibleSlot x k →
    (s.stamp k).exs = none →
    (executeStage s).stamp k = { s.stamp k with exs := some s.clk } ∧ x ∈ (executeStage s).slots

/-- R91: in every later cycle in which a slot is eligible its countdown drops by one, and reaching 0 records completion at the
current cycle; its op, instruction, tags, destination, base and offset stay. -/
def Obligations.CountdownTicksToCompletion : Prop :=
  ∀ (s : State) (x : SlotView) (k : Nat), s.UniqueOwners → x ∈ s.slots → k < s.stamps.length → s.EligibleSlot x k →
    (s.stamp k).exs ≠ none →
    (executeStage s).stamp k = (if x.head.count - 1 = 0 then { s.stamp k with cmp := some s.clk } else s.stamp k) ∧
    { x with head := { x.head with count := x.head.count - 1 } } ∈ (executeStage s).slots

/-- R89, R92 to R94 (D15): Execute changes nothing of any slot but the countdown of an eligible one; a slot that is not eligible (issued
this cycle, waiting for an operand, completed or free) stays as it is, its captured values and tags too, and so does every timestamp of
an instruction that no eligible slot holds; a store's pending data does not keep it from executing (R94: the eligibility conditions
leave it out); every other state element is not Execute's. -/
def Obligations.ExecuteTouchesOnlyEligibleSlots : Prop :=
  ∀ s : State,
    (∀ j y, s.adds[j]? = some y → ∃ n, (executeStage s).adds[j]? = some { y with head := { y.head with count := n } } ∧
      ((∀ k, ¬ s.EligibleSlot (stationView (⟨.add, j⟩, y)) k) → n = y.head.count)) ∧
    (∀ j y, s.muls[j]? = some y → ∃ n, (executeStage s).muls[j]? = some { y with head := { y.head with count := n } } ∧
      ((∀ k, ¬ s.EligibleSlot (stationView (⟨.mul, j⟩, y)) k) → n = y.head.count)) ∧
    (∀ j y, s.loads[j]? = some y → ∃ n, (executeStage s).loads[j]? = some { y with head := { y.head with count := n } } ∧
      ((∀ k, ¬ s.EligibleSlot (loadView (⟨.load, j⟩, y)) k) → n = y.head.count)) ∧
    (∀ j y, s.stores[j]? = some y → ∃ n, (executeStage s).stores[j]? = some { y with head := { y.head with count := n } } ∧
      ((∀ k, ¬ s.EligibleSlot (storeView (⟨.store, j⟩, y)) k) → n = y.head.count)) ∧
    (∀ k, (∀ x ∈ s.slots, ¬ s.EligibleSlot x k) → (executeStage s).stamp k = s.stamp k) ∧
    (executeStage s).fpr = s.fpr ∧ (executeStage s).gpr = s.gpr ∧ (executeStage s).mem = s.mem ∧ (executeStage s).rrs = s.rrs ∧
    (executeStage s).next = s.next ∧ (executeStage s).clk = s.clk ∧ (executeStage s).status = s.status ∧
    (executeStage s).prog = s.prog ∧ (executeStage s).faultCode = s.faultCode ∧ (executeStage s).faultInfo = s.faultInfo ∧
    (executeStage s).params = s.params ∧ (executeStage s).draws = s.draws

/-! ### Writeback (R95 to R103) -/

/-- R99: a broadcast updates the register and clears the entry only if the entry still names its slot; otherwise both are unchanged, and
no other register or entry changes in either case. -/
def Obligations.BroadcastGuardsRegisterUpdate : Prop :=
  ∀ (s : State) (b : Broadcast), b.dest.toNat < s.fpr.length → b.dest.toNat < s.rrs.length →
    (s.readRRS b.dest = some b.src → (applyBroadcast s b).readF b.dest = b.value ∧ (applyBroadcast s b).readRRS b.dest = none) ∧
    (s.readRRS b.dest ≠ some b.src →
      (applyBroadcast s b).readF b.dest = s.readF b.dest ∧ (applyBroadcast s b).readRRS b.dest = s.readRRS b.dest) ∧
    (∀ f, f ≠ b.dest → (applyBroadcast s b).readF f = s.readF f ∧ (applyBroadcast s b).readRRS f = s.readRRS f)

/-- R102: the broadcasts of one batch, each from its own slot, may be applied in any order. -/
def Obligations.BroadcastOrderIsIrrelevant : Prop :=
  ∀ (s : State) (bs cs : List Broadcast), (bs.map Broadcast.src).Nodup → bs.Perm cs →
    bs.foldl applyBroadcast s = cs.foldl applyBroadcast s

/-- R103 (and R95, R97, R100, R101): every candidate of a Writeback stage without a fault writes back in that same cycle and has its slot
released, and one with a destination has broadcast: no busy slot waits for it afterwards, and its register's entry does not name
it. No other slot writes back or broadcasts: it keeps its instruction, countdown, destination and addressing (a store whose data is
pending among them, R95), no other timestamp changes, an operand of it that waits for no candidate keeps value and tag (R84), and a
register whose entry names no candidate keeps value and entry. -/
def Obligations.EveryCandidateWritesBack : Prop :=
  ∀ s : State, s.AccessesInRange →
    (∀ x ∈ s.slots, ∀ k, s.CandidateSlot x k → k < s.stamps.length →
      (writebackStage s).stamp k = { s.stamp k with wbk := some s.clk } ∧
      (∃ y ∈ (writebackStage s).slots, y.id = x.id ∧ y.head.busy = false ∧ y.cleared = true) ∧
      ∀ d ∈ x.dest, (writebackStage s).readRRS d ≠ some x.id ∧
        ∀ z ∈ (writebackStage s).slots, z.head.busy = true → x.id ∉ z.waits) ∧
    (∀ k, (∀ x ∈ s.slots, ¬ s.CandidateSlot x k) → (writebackStage s).stamp k = s.stamp k) ∧
    (∀ j y, s.adds[j]? = some y → ¬ s.WritesBack ⟨.add, j⟩ → ∃ z, (writebackStage s).adds[j]? = some z ∧ z.head = y.head ∧
      z.dest = y.dest ∧ s.OperandKept y.vj y.qj z.vj z.qj ∧ s.OperandKept y.vk y.qk z.vk z.qk) ∧
    (∀ j y, s.muls[j]? = some y → ¬ s.WritesBack ⟨.mul, j⟩ → ∃ z, (writebackStage s).muls[j]? = some z ∧ z.head = y.head ∧
      z.dest = y.dest ∧ s.OperandKept y.vj y.qj z.vj z.qj ∧ s.OperandKept y.vk y.qk z.vk z.qk) ∧
    (∀ j y, s.loads[j]? = some y → ¬ s.WritesBack ⟨.load, j⟩ → (writebackStage s).loads[j]? = some y) ∧
    (∀ j y, s.stores[j]? = some y → ¬ s.WritesBack ⟨.store, j⟩ → ∃ z, (writebackStage s).stores[j]? = some z ∧ z.head = y.head ∧
      z.base = y.base ∧ z.off = y.off ∧ s.OperandKept y.vd y.qd z.vd z.qd) ∧
    (∀ f, (∀ q ∈ s.readRRS f, ¬ s.WritesBack q) →
      (writebackStage s).readF f = s.readF f ∧ (writebackStage s).readRRS f = s.readRRS f)

/-- R96 to R101, R111, R112: a finished `ADD.D` broadcasts `fadd(Vj, Vk)` and a finished `SUB.D` `fsub(Vj, Vk)`, first operand minus
second; the register takes it if the rename table still names the station, every waiting slot takes it, and the station is freed. -/
def Obligations.AddSubResultDelivered : Prop :=
  ∀ (s : State) (j k : Nat) (x : Station), s.Wf → s.AccessesInRange → s.adds[j]? = some x → x.head.instr = some k →
    k < s.stamps.length → x.dest.toNat < s.params.nFpr → s.writable x.head = true →
    ((x.head.op = .addD → ResultDelivered ⟨.add, j⟩ k x.dest (fadd (s.nanDraw ⟨.add, j⟩) x.vj x.vk) s (writebackStage s)) ∧
     (x.head.op = .subD → ResultDelivered ⟨.add, j⟩ k x.dest (fsub (s.nanDraw ⟨.add, j⟩) x.vj x.vk) s (writebackStage s)) ∧
     (writebackStage s).adds[j]? = some Station.free)

/-- R96 to R101, R113, R114: a finished `MUL.D` broadcasts `fmul(Vj, Vk)` and a finished `DIV.D` `fdiv(Vj, Vk)`, first operand divided by
second. -/
def Obligations.MulDivResultDelivered : Prop :=
  ∀ (s : State) (j k : Nat) (x : Station), s.Wf → s.AccessesInRange → s.muls[j]? = some x → x.head.instr = some k →
    k < s.stamps.length → x.dest.toNat < s.params.nFpr → s.writable x.head = true →
    ((x.head.op = .mulD → ResultDelivered ⟨.mul, j⟩ k x.dest (fmul (s.nanDraw ⟨.mul, j⟩) x.vj x.vk) s (writebackStage s)) ∧
     (x.head.op = .divD → ResultDelivered ⟨.mul, j⟩ k x.dest (fdiv (s.nanDraw ⟨.mul, j⟩) x.vj x.vk) s (writebackStage s)) ∧
     (writebackStage s).muls[j]? = some Station.free)

/-- R48, R50, R96 to R101, R120 (`Snapshot`: decision D10): a finished `L.D` broadcasts the cell its effective address selects, read from
memory as it stood at the start of Writeback, bits unchanged. -/
def Obligations.LoadResultDelivered : Prop :=
  ∀ (s : State) (j k c : Nat) (x : LoadBuffer), s.Wf → s.AccessesInRange → s.params.policy = .snapshot → s.loads[j]? = some x →
    x.head.instr = some k → k < s.stamps.length → x.dest.toNat < s.params.nFpr → s.writable x.head = true →
    cellOf s.params ((s.readR x.base).toInt + x.off.toInt) = some c →
    ResultDelivered ⟨.load, j⟩ k x.dest (s.mem.readCell c) s (writebackStage s) ∧
    (writebackStage s).loads[j]? = some LoadBuffer.free

/-- R48, R50, R96 to R98, R121 (`Snapshot`: D10): a finished `S.D` with its data writes it to the cell its effective address selects; of
several stores to one cell in a batch the one latest in program order is left; the buffer is freed. -/
def Obligations.StoreWritesItsCell : Prop :=
  ∀ (s : State) (j k c : Nat) (x : StoreBuffer), s.Wf → s.AccessesInRange → s.params.policy = .snapshot → s.stores[j]? = some x →
    x.head.instr = some k → k < s.stamps.length → s.writable x.head = true → x.qd = none →
    cellOf s.params ((s.readR x.base).toInt + x.off.toInt) = some c →
    (∀ (i k' : Nat) (y : StoreBuffer), i ≠ j → s.stores[i]? = some y → y.head.instr = some k' → s.writable y.head = true → y.qd = none →
      cellOf s.params ((s.readR y.base).toInt + y.off.toInt) = some c → k' < k) →
    (writebackStage s).mem.readCell c = x.vd ∧ (writebackStage s).stamp k = { s.stamp k with wbk := some s.clk } ∧
    (writebackStage s).stores[j]? = some StoreBuffer.free

/-- The frame of Writeback's memory writes, under either policy (R48, R122): a byte outside the cells that the effective addresses of the
batch's candidate stores select reads as before. That cell `j` is the bytes `8j` to `8j + 7` is the model's choice of log 2: the spec has
no byte view (R45). -/
def Obligations.WritebackChangesOnlyStoredCells : Prop :=
  ∀ (s : State) (a : Nat), s.AccessesInRange →
    (∀ c ∈ s.storeCandidates, ∀ j, cellOf s.params (effectiveAddress s c.2.base c.2.off) = some j → a < 8 * j ∨ 8 * j + 8 ≤ a) →
    (writebackStage s).mem.readByte a = s.mem.readByte a

/-- R50, `Race` (D10): a finished `L.D` delivers, to its register and every waiting slot, the old value of the cell its effective address
selects or the data of a same-cycle store to it, and a cell some store of the batch writes ends with the data of one of those stores,
whatever the draws. -/
def Obligations.RaceChoosesAmongAllowedValues : Prop :=
  ∀ s : State, s.params.policy = .race →
    (∀ (q : SlotId) (addr : Int) (j : Nat) (v : Word), cellOf s.params addr = some j → loadValue s s.queuedWrites q addr = some v →
      v = s.mem.readCell j ∨ ∃ w ∈ s.queuedWrites, cellOf s.params w.addr = some j ∧ v = w.data) ∧
    (s.Wf → s.AccessesInRange → ∀ (j k c : Nat) (x : LoadBuffer), s.loads[j]? = some x → x.head.instr = some k → k < s.stamps.length →
      x.dest.toNat < s.params.nFpr → s.writable x.head = true →
      cellOf s.params ((s.readR x.base).toInt + x.off.toInt) = some c →
      (∃ v, (v = s.mem.readCell c ∨ ∃ w ∈ s.queuedWrites, cellOf s.params w.addr = some c ∧ v = w.data) ∧
        ResultDelivered ⟨.load, j⟩ k x.dest v s (writebackStage s)) ∧
      (writebackStage s).loads[j]? = some LoadBuffer.free) ∧
    (s.Wf → s.AccessesInRange → ∀ j < s.params.nMem, (∃ w ∈ s.queuedWrites, cellOf s.params w.addr = some j) →
      ∃ w ∈ s.queuedWrites, cellOf s.params w.addr = some j ∧ (writebackStage s).mem.readCell j = w.data)

/-- R47, with R41 and R43 (the spec's decision D8): every access whose address passes the range check of R41 reaches the cell that contains
it (R43: no trap on a misaligned address), and no other cell; any other address reaches none. -/
def Obligations.AccessReachesItsCell : Prop :=
  ∀ (p : Config.Params) (m : Memory) (addr : Int) (v : Word), m.wf →
    (0 ≤ addr → addr < (p.nMem * p.cellBytes : Nat) →
      memRead p m addr = some (m.readCell (addr.toNat / p.cellBytes)) ∧
      ∃ m', memWrite p m addr v = some m' ∧ m'.readCell (addr.toNat / p.cellBytes) = v ∧
        ∀ j, j ≠ addr.toNat / p.cellBytes → m'.readCell j = m.readCell j) ∧
    (addr < 0 ∨ (p.nMem * p.cellBytes : Nat) ≤ addr → memRead p m addr = none ∧ memWrite p m addr v = none)

/-- R131 to R133 (decisions D8, D19): a candidate whose effective address is out of range ends the run in `FAULT` with `MEM_RANGE` and the
lowest faulting instruction index with its address; no completion check follows and no further cycle runs. Without one,
Writeback raises no fault. -/
def Obligations.OutOfRangeAccessFaults : Prop :=
  ∀ s : State,
    (∀ a ∈ s.accesses, cellOf s.params a.2 = none → ∃ b ∈ s.accesses, cellOf s.params b.2 = none ∧
      (∀ c ∈ s.accesses, cellOf s.params c.2 = none → b.1 ≤ c.1) ∧
      (completionCheck (writebackStage s)).status = .fault ∧ (completionCheck (writebackStage s)).faultCode = .memRange ∧
      (completionCheck (writebackStage s)).faultInfo = some ⟨b.1, some b.2⟩ ∧
      step (completionCheck (writebackStage s)) = .next (completionCheck (writebackStage s))) ∧
    (s.AccessesInRange → (writebackStage s).status = s.status ∧ (writebackStage s).faultCode = s.faultCode ∧
      (writebackStage s).faultInfo = s.faultInfo)

/-! ### Completion and the cap (R104, R105) -/

/-- R104, R105, R133, R135 (cap boundary: decision D18): at the end of a cycle without a fault, `DONE` if every instruction has
written back; else `CAP_HALT` if the clock has reached the cap, with the port `unfinished` listing in ascending order exactly the
instructions that have not; else no change. Only `STATUS` changes. -/
def Obligations.CompletionBeforeCap : Prop :=
  ∀ s : State, s.status = .run →
    ((∀ k < s.stamps.length, (s.stamp k).wbk ≠ none) → completionCheck s = { s with status := .done }) ∧
    ((∃ k < s.stamps.length, (s.stamp k).wbk = none) → s.params.cap ≤ s.clk →
      completionCheck s = { s with status := .capHalt } ∧
      ∃ l, (completionCheck s).unfinishedPort = some l ∧ l.Pairwise (· < ·) ∧
        ∀ k, k ∈ l ↔ k < s.stamps.length ∧ (s.stamp k).wbk = none) ∧
    ((∃ k < s.stamps.length, (s.stamp k).wbk = none) → s.clk < s.params.cap → completionCheck s = s)

/-! ### Rules of the whole machine -/

/-- R24, R27, R52: no step changes a record or an integer register, as long as no fault leaves the state unspecified (R132); no step, one
that raises a fault included, changes the record count `N`, fixed at construction (R6, D23). That no step changes another parameter is
the model's choice of log 1 and log 8. -/
def Obligations.RecordsAndIntegersNeverChange : Prop :=
  ∀ s t : State, step s = .next t →
    t.params = s.params ∧ t.prog.length = s.prog.length ∧ (t.status ≠ .fault → t.prog = s.prog ∧ ∀ i, t.readR i = s.readR i)

/-- R26, R115, R122: an FP register changes only in a step in which the instruction of the slot that its rename entry names, a slot with
that destination, writes back; the entry is then clear. -/
def Obligations.RegisterChangesOnlyByNamedBroadcast : Prop :=
  ∀ (s t : State) (i : FReg), s.Inv → s.status = .run → step s = .next t → t.status ≠ .fault → t.readF i ≠ s.readF i →
    t.readRRS i = none ∧ ∃ x ∈ s.slots, s.readRRS i = some x.id ∧ x.dest = some i ∧
      ∃ k ∈ x.head.instr, (s.stamp k).wbk = none ∧ (t.stamp k).wbk = some t.clk

/-- R38, R48, R122: a memory cell changes only in a step in which an `S.D` whose effective address selects it writes back. -/
def Obligations.MemoryChangesOnlyByStoreWriteback : Prop :=
  ∀ (s t : State) (j : Nat), s.Inv → s.status = .run → step s = .next t → t.status ≠ .fault → t.mem.readCell j ≠ s.mem.readCell j →
    ∃ (k : Nat) (fa : FReg) (base : IReg) (off : Offset), s.recordAt k = some (.sd fa base off) ∧ (s.stamp k).wbk = none ∧
      (t.stamp k).wbk = some t.clk ∧ cellOf s.params (effectiveAddress s base off) = some j

/-- R25: each timestamp is written at most once. -/
def Obligations.TimestampsWrittenOnce : Prop :=
  ∀ s t : State, s.Inv → step s = .next t → t.status ≠ .fault → ∀ k,
    (∀ a ∈ (s.stamp k).iss, (t.stamp k).iss = some a) ∧ (∀ a ∈ (s.stamp k).exs, (t.stamp k).exs = some a) ∧
    (∀ a ∈ (s.stamp k).cmp, (t.stamp k).cmp = some a) ∧ (∀ a ∈ (s.stamp k).wbk, (t.stamp k).wbk = some a)

/-! ### Invariants (R35, R36) -/

/-- R36, R150: construction from any inputs with legal parameters (R5, R29; log 11) gives a state that meets the invariant. -/
def Obligations.ConstructionMeetsInvariant : Prop := ∀ inp : Inputs, inp.params.wf → (construct inp).Inv

/-- The reset state, the model's choice of log 3 and log 4, meets the invariant. -/
def Obligations.ResetMeetsInvariant : Prop := State.reset.Inv

/-- Every step keeps the representation, from any status and with no other premise: the files, pools and tables keep their
capacities, and memory its canonical form inside its cells. The canonical byte list is the model's choice of log 2, and so are, by
log 8, the capacities after a step that raises `MEM_RANGE` (R132 leaves all else unspecified) and, by log 1, the parameters. -/
def Obligations.StepKeepsWellFormedness : Prop := ∀ s t : State, s.Wf → step s = .next t → t.Wf

/-- R22, R25, R33, R35, R36, R88, R91, R105, R159: every step keeps the invariant: one slot to an instruction and one instruction to a
slot, tags that name busy older slots, a rename table that names the latest writers, ordered timestamps, countdowns that match
them, cleared free slots, and a status that matches completion and cap. -/
def Obligations.StepKeepsInvariant : Prop := ∀ s t : State, s.Inv → step s = .next t → t.Inv

/-- A block in a state of the invariant always answers a next state: no step of a constructed block stops the model. -/
def Obligations.InvariantStatesNeverStop : Prop := ∀ s : State, s.Inv → ∃ t, step s = .next t

/-! ### Timing (R106 to R108) -/

/-- R106: timestamps, slots, tags, countdowns, `NEXT` and the status do not depend on data: two running blocks that agree on them step to
blocks that agree on them, whatever their register and memory contents, draws and batch policies, if neither faults. -/
def Obligations.TimingIndependentOfData : Prop :=
  ∀ s t s' t' : State, SameTiming s t → step s = .next s' → step t = .next t' → s'.status ≠ .fault → t'.status ≠ .fault →
    SameTiming s' t'

/-- R107, R158: an instruction that finds a free slot and its sources ready issues in the next cycle `t`, starts in `t + 1`, completes in
`t + 1 + Lat` and writes back in `t + 2 + Lat`, whatever runs beside it, unless a fault or the cap ends the run first. -/
def Obligations.ReadyInstructionTiming : Prop :=
  ∀ (s u : State) (i : Instr), s.Inv → s.status = .run → s.recordAt s.next = some i → ¬ s.poolFull (poolOf i.op) →
    (∀ f ∈ i.sources, s.readRRS f = none) → s.clk + latency s.params i.op + 3 ≤ s.params.cap →
    Sys2Proof.core.run (latency s.params i.op + 3) s = .next u → u.status ≠ .fault →
    u.stamp s.next = ⟨some (s.clk + 1), some (s.clk + 2), some (s.clk + 2 + latency s.params i.op),
      some (s.clk + 3 + latency s.params i.op)⟩

/-- R84, R99, R111 to R114, R153, R154: the result of such an arithmetic instruction is its operation on the register values at its
issue, whatever later instructions write to its sources, and it stands in the destination after its write-back if no later
instruction has claimed the register. -/
def Obligations.ReadyArithmeticResult : Prop :=
  ∀ (s u : State) (op : Op) (fa fb fc : FReg) (i : Instr), s.Inv → s.status = .run → s.recordAt s.next = some i →
    (op, i) ∈ [(Op.addD, Instr.addD fa fb fc), (Op.subD, .subD fa fb fc), (Op.mulD, .mulD fa fb fc), (Op.divD, .divD fa fb fc)] →
    ¬ s.poolFull (poolOf op) → s.readRRS fb = none → s.readRRS fc = none → s.clk + latency s.params op + 3 ≤ s.params.cap →
    Sys2Proof.core.run (latency s.params op + 3) s = .next u → u.status ≠ .fault → ¬ u.superseded s.next fa →
    ∃ draw : Word,
      (op = .addD → u.readF fa = fadd draw (s.readF fb) (s.readF fc)) ∧ (op = .subD → u.readF fa = fsub draw (s.readF fb) (s.readF fc)) ∧
      (op = .mulD → u.readF fa = fmul draw (s.readF fb) (s.readF fc)) ∧ (op = .divD → u.readF fa = fdiv draw (s.readF fb) (s.readF fc))

/-- R108: no deadlock. Every program of valid records is done by cycle `Σ (Lat + 3)`, if the cap allows that many, unless a fault ends
the run. -/
def Obligations.EveryProgramCompletes : Prop :=
  ∀ inp : Inputs, inp.params.wf → inp.prog.all (validRecord inp.params.nFpr) = true →
    livenessBound inp.params inp.prog ≤ inp.params.cap →
    ∃ u, Sys2Proof.core.run (livenessBound inp.params inp.prog) (construct inp) = .next u ∧ (u.status = .done ∨ u.status = .fault)

/-! ### Arithmetic (R110 to R114) -/

/-- R110 (D7; IEEE 754 roundTiesToEven, log 13): rounding gives the sign asked for and, when finite, a magnitude no other finite binary64
is nearer to than, the even fraction on a tie; it gives infinity exactly from half a unit beyond the largest finite value. -/
def Obligations.RoundingIsNearestTiesToEven : Prop :=
  ∀ (sgn : Bool) (n d : Nat), 0 < d →
    fpSign (roundToBinary64 sgn n d) = sgn ∧
    (isInf (roundToBinary64 sgn n d) = true ↔ (2 ^ 54 - 1) * 2 ^ 2044 * d ≤ n) ∧
    (isInf (roundToBinary64 sgn n d) = false →
      isFinite (roundToBinary64 sgn n d) = true ∧
      ∀ y : Word, isFinite y = true →
        ((magnitude (roundToBinary64 sgn n d) * d : Int) - n).natAbs ≤ ((magnitude y * d : Int) - n).natAbs ∧
        (magnitude y ≠ magnitude (roundToBinary64 sgn n d) →
          ((magnitude (roundToBinary64 sgn n d) * d : Int) - n).natAbs = ((magnitude y * d : Int) - n).natAbs →
          fpFrac (roundToBinary64 sgn n d) % 2 = 0))

/-- R110, R111, R112 (D7; log 13): the sum and the difference of finite values are the exact one correctly rounded: infinite exactly from
half a unit past the largest finite value, else as near to the exact one as any binary64 is, with the even fraction on a tie and the
exact one's sign. -/
def Obligations.AddSubCorrectlyRounded : Prop :=
  ∀ (draw a b : Word), isFinite a = true → isFinite b = true →
    CorrectlyRounded (fadd draw a b) (signedValue a + signedValue b) 1 ∧
    CorrectlyRounded (fsub draw a b) (signedValue a - signedValue b) 1

/-- R110, R113, R114 (D7; log 13): the product and the quotient of finite values (divisor not 0) are the exact one correctly rounded, in
the sense of `AddSubCorrectlyRounded`, and have the XOR of the signs; values are counted in units of 2^-1074. -/
def Obligations.MulDivCorrectlyRounded : Prop :=
  ∀ (draw a b : Word), isFinite a = true → isFinite b = true →
    (CorrectlyRounded (fmul draw a b) (signedValue a * signedValue b) (2 ^ 1074) ∧ fpSign (fmul draw a b) = (fpSign a != fpSign b)) ∧
    (magnitude b ≠ 0 → CorrectlyRounded (fdiv draw a b) (signedValue a * 2 ^ 1074) (signedValue b) ∧
      fpSign (fdiv draw a b) = (fpSign a != fpSign b))

/-- R110 (D7): a NaN result can be any binary64 NaN and nothing else, and the operations R111 to R114 list as invalid give one, as does a
NaN operand. -/
def Obligations.InvalidOperationsGiveSomeNaN : Prop :=
  (∀ draw, isNaN (nanOf draw) = true) ∧ (∀ w, isNaN w = true → ∃ draw, nanOf draw = w) ∧
  (∀ draw a b, isNaN a = true ∨ isNaN b = true →
    fadd draw a b = nanOf draw ∧ fsub draw a b = nanOf draw ∧ fmul draw a b = nanOf draw ∧ fdiv draw a b = nanOf draw) ∧
  (∀ draw a b, isInf a = true → isInf b = true →
    (fpSign a ≠ fpSign b → fadd draw a b = nanOf draw) ∧ (fpSign a = fpSign b → fsub draw a b = nanOf draw) ∧ fdiv draw a b = nanOf draw) ∧
  (∀ draw a b, isInf a = true → isFinite b = true → magnitude b = 0 → fmul draw a b = nanOf draw ∧ fmul draw b a = nanOf draw) ∧
  (∀ draw a b, isFinite a = true → isFinite b = true → magnitude a = 0 → magnitude b = 0 → fdiv draw a b = nanOf draw)

/-- R110 to R114, signed zeros and infinities (IEEE 754 results the spec takes over, D7; log 13). With `x` finite: `x + (-x)` and `x - x`
give `+0.0`, `-0.0 + -0.0` gives `-0.0`, a zero product and `x ÷ inf` have the XOR of the signs, and `x ÷ ±0` with `x` not 0 gives an
infinity of that sign. With `x` an infinity: it is its own sum and difference with any finite value and with an infinity for which the
result is no NaN; a finite value minus it is the other infinity; its product with any value but 0 and a NaN, and its quotient by any
finite value, 0 too, are an infinity with the XOR of the signs. -/
def Obligations.SignedZerosAndInfinities : Prop :=
  ∀ (draw x y : Word),
    (isFinite x = true →
      fadd draw x (fneg x) = 0 ∧ fsub draw x x = 0 ∧
      fadd draw 0x8000000000000000 0x8000000000000000 = 0x8000000000000000 ∧
      (isFinite y = true → magnitude x = 0 ∨ magnitude y = 0 → fmul draw x y = (if fpSign x = fpSign y then 0 else 0x8000000000000000)) ∧
      (isInf y = true → fdiv draw x y = (if fpSign x = fpSign y then 0 else 0x8000000000000000)) ∧
      (isFinite y = true → magnitude x ≠ 0 → magnitude y = 0 →
        fdiv draw x y = (if fpSign x = fpSign y then 0x7FF0000000000000 else 0xFFF0000000000000))) ∧
    (isInf x = true →
      (isFinite y = true → fadd draw x y = x ∧ fadd draw y x = x ∧ fsub draw x y = x ∧
        fsub draw y x = (if fpSign x then 0x7FF0000000000000 else 0xFFF0000000000000)) ∧
      (isInf y = true → (fpSign x = fpSign y → fadd draw x y = x) ∧ (fpSign x ≠ fpSign y → fsub draw x y = x)) ∧
      (isInf y = true ∨ isFinite y = true ∧ magnitude y ≠ 0 →
        fmul draw x y = (if fpSign x = fpSign y then 0x7FF0000000000000 else 0xFFF0000000000000) ∧
        fmul draw y x = (if fpSign x = fpSign y then 0x7FF0000000000000 else 0xFFF0000000000000)) ∧
      (isFinite y = true → fdiv draw x y = (if fpSign x = fpSign y then 0x7FF0000000000000 else 0xFFF0000000000000)))

/-- R29 (decision D12; log 11): with legal parameters the tag codes of the slots are distinct, fit 4 bits, and none is 0, the code of `⊥`. -/
def Obligations.TagCodesNameSlots : Prop :=
  ∀ (p : Config.Params), p.wf → ∀ q r : SlotId, q.idx < q.pool.capacity p → r.idx < r.pool.capacity p →
    tagCode p (some q) ≠ tagCode p none ∧ (tagCode p (some q) = tagCode p (some r) → q = r) ∧ q.code p < 16
end

