-- ==== Sys2Proof/Laws/Binary64.lean ====
section
/-! SUPPORT. The classes of a binary64 pattern, and what `fneg` does to its fields (R110). -/

namespace Sys2Proof.Machine

theorem class_of_isInf {x : Word} (h : isInf x = true) : isNaN x = false ∧ isFinite x = false := by
  simp only [isInf, Bool.and_eq_true, beq_iff_eq] at h
  simp [isNaN, isFinite, h]

theorem class_of_isFinite {x : Word} (h : isFinite x = true) : isNaN x = false ∧ isInf x = false := by
  simp only [isFinite, Bool.not_eq_true', beq_eq_false_iff_ne] at h
  simp [isNaN, isInf, h]

@[simp] theorem fpSign_fneg (x : Word) : fpSign (fneg x) = !fpSign x := by simp [fpSign, fneg]

@[simp] theorem fpExp_fneg (x : Word) : fpExp (fneg x) = fpExp x := by
  refine congrArg BitVec.toNat (BitVec.eq_of_getLsbD_eq fun i hi => ?_)
  have : ∀ i < 11, (0x8000000000000000 : Word).getLsbD (52 + i) = false := by decide
  simp only [fneg, BitVec.getLsbD_extractLsb', BitVec.getLsbD_xor, this i hi, Bool.xor_false]

@[simp] theorem fpFrac_fneg (x : Word) : fpFrac (fneg x) = fpFrac x := by
  refine congrArg BitVec.toNat (BitVec.eq_of_getLsbD_eq fun i hi => ?_)
  have : ∀ i < 52, (0x8000000000000000 : Word).getLsbD (0 + i) = false := by decide
  simp only [fneg, BitVec.getLsbD_extractLsb', BitVec.getLsbD_xor, this i hi, Bool.xor_false]

@[simp] theorem isNaN_fneg (x : Word) : isNaN (fneg x) = isNaN x := by simp [isNaN]
@[simp] theorem isInf_fneg (x : Word) : isInf (fneg x) = isInf x := by simp [isInf]
@[simp] theorem isFinite_fneg (x : Word) : isFinite (fneg x) = isFinite x := by simp [isFinite]
@[simp] theorem magnitude_fneg (x : Word) : magnitude (fneg x) = magnitude x := by simp [magnitude]
@[simp] theorem signedValue_fneg (x : Word) : signedValue (fneg x) = -signedValue x := by
  cases h : fpSign x <;> simp [signedValue, h]

end Sys2Proof.Machine
end

