-- ==== Sys2Proof/Laws/Encoding.lean ====
section
/-! SUPPORT. The laws of the record word: its fields after encoding, the words that decode, and the opcode table's masks. -/

namespace Sys2Proof

/-- R62: bit `i` of an M-format word. -/
theorem encodeM_bit (op : Op) (fa : FReg) (base : IReg) (off : Offset) (i : Nat) :
    (encodeM op fa base off).getLsbD i =
      if i < 3 then op.code.getLsbD i else if i < 8 then false else if i < 12 then fa.getLsbD (i - 8)
      else if i < 20 then false else if i < 25 then base.getLsbD (i - 20) else if i < 32 then false else off.getLsbD (i - 32) := by
  change BitVec.getLsbD (w := 32 + 7 + 5 + 4 + 4 + 4 + 5 + 3) (off ++ 0#7 ++ base ++ 0#4 ++ 0#4 ++ fa ++ 0#5 ++ op.code) i = _
  simp only [BitVec.getLsbD_append, BitVec.getLsbD_zero]
  split_ifs <;> first | rfl | omega

/-- R62: bit `i` of an A-format word. -/
theorem encodeA_bit (op : Op) (fa fb fc : FReg) (i : Nat) :
    (encodeA op fa fb fc).getLsbD i =
      if i < 3 then op.code.getLsbD i else if i < 8 then false else if i < 12 then fa.getLsbD (i - 8)
      else if i < 16 then fb.getLsbD (i - 12) else if i < 20 then fc.getLsbD (i - 16) else false := by
  change BitVec.getLsbD (w := 32 + 7 + 5 + 4 + 4 + 4 + 5 + 3) (0#32 ++ 0#7 ++ 0#5 ++ fc ++ fb ++ fa ++ 0#5 ++ op.code) i = _
  simp only [BitVec.getLsbD_append, BitVec.getLsbD_zero]
  split_ifs <;> first | rfl | omega

/-- R62: the fields of an M-format word read back, and its unused bits are 0. -/
theorem fields_encodeM (op : Op) (fa : FReg) (base : IReg) (off : Offset) :
    Word.opField (encodeM op fa base off) = op.code ∧ Word.faField (encodeM op fa base off) = fa ∧
    Word.rbField (encodeM op fa base off) = base ∧ Word.offField (encodeM op fa base off) = off ∧
    Word.reservedClear (encodeM op fa base off) = true ∧ Word.unusedClearM (encodeM op fa base off) = true := by
  simp only [Word.opField, Word.faField, Word.rbField, Word.offField, Word.reservedClear, Word.unusedClearM, beq_iff_eq, Bool.and_eq_true]
  refine ⟨?_, ?_, ?_, ?_, ⟨?_, ?_⟩, ?_⟩ <;>
  · apply BitVec.eq_of_getLsbD_eq
    intro i hi
    rw [BitVec.getLsbD_extractLsb', encodeM_bit]
    simp only [hi, decide_true, Bool.true_and]
    split_ifs <;> first | omega | simp

/-- R62: the fields of an A-format word read back, and its unused bits are 0. -/
theorem fields_encodeA (op : Op) (fa fb fc : FReg) :
    Word.opField (encodeA op fa fb fc) = op.code ∧ Word.faField (encodeA op fa fb fc) = fa ∧
    Word.fbField (encodeA op fa fb fc) = fb ∧ Word.fcField (encodeA op fa fb fc) = fc ∧
    Word.reservedClear (encodeA op fa fb fc) = true ∧ Word.unusedClearA (encodeA op fa fb fc) = true := by
  simp only [Word.opField, Word.faField, Word.fbField, Word.fcField, Word.reservedClear, Word.unusedClearA, beq_iff_eq, Bool.and_eq_true]
  refine ⟨?_, ?_, ?_, ?_, ⟨?_, ?_⟩, ?_, ?_⟩ <;>
  · apply BitVec.eq_of_getLsbD_eq
    intro i hi
    rw [BitVec.getLsbD_extractLsb', encodeA_bit]
    simp only [hi, decide_true, Bool.true_and]
    split_ifs <;> first | omega | simp

theorem Op.ofCode_code (op : Op) : Op.ofCode op.code = some op := by cases op <;> rfl

theorem Op.eq_code_of_ofCode {c : BitVec 3} {op : Op} (h : Op.ofCode c = some op) : c = op.code := by
  revert c; cases op <;> decide

theorem bit_of_field_zero {w : Word} {lo len : Nat} (h : w.extractLsb' lo len = 0) (i : Nat) (h1 : lo ≤ i) (h2 : i < lo + len) : w.getLsbD i = false := by
  have := congrArg (fun b => b.getLsbD (i - lo)) h
  simp only [BitVec.getLsbD_extractLsb'] at this
  rw [show lo + (i - lo) = i by omega] at this
  simpa [show i - lo < len by omega] using this

/-- R67: an M-format word with clear unused bits is the word of its fields. -/
theorem encodeM_eq {w : Word} {op : Op} (h1 : Word.opField w = op.code) (h2 : Word.reservedClear w = true) (h3 : Word.unusedClearM w = true) :
    encodeM op (Word.faField w) (Word.rbField w) (Word.offField w) = w := by
  simp only [Word.reservedClear, Word.unusedClearM, beq_iff_eq, Bool.and_eq_true] at h2 h3
  apply BitVec.eq_of_getLsbD_eq
  intro i hi
  rw [encodeM_bit, ← h1]
  simp only [Word.opField, Word.faField, Word.rbField, Word.offField, BitVec.getLsbD_extractLsb']
  split_ifs with a b c d e f
  · simp [a]
  · exact (bit_of_field_zero h2.1 i (by omega) (by omega)).symm
  · rw [show 8 + (i - 8) = i by omega]; simp [show i - 8 < 4 by omega]
  · exact (bit_of_field_zero h3 i (by omega) (by omega)).symm
  · rw [show 20 + (i - 20) = i by omega]; simp [show i - 20 < 5 by omega]
  · exact (bit_of_field_zero h2.2 i (by omega) (by omega)).symm
  · rw [show 32 + (i - 32) = i by omega]; simp [show i - 32 < 32 by omega]

/-- R67: an A-format word with clear unused bits is the word of its fields. -/
theorem encodeA_eq {w : Word} {op : Op} (h1 : Word.opField w = op.code) (h2 : Word.reservedClear w = true) (h3 : Word.unusedClearA w = true) :
    encodeA op (Word.faField w) (Word.fbField w) (Word.fcField w) = w := by
  simp only [Word.reservedClear, Word.unusedClearA, beq_iff_eq, Bool.and_eq_true] at h2 h3
  apply BitVec.eq_of_getLsbD_eq
  intro i hi
  rw [encodeA_bit, ← h1]
  simp only [Word.opField, Word.faField, Word.fbField, Word.fcField, BitVec.getLsbD_extractLsb']
  split_ifs with a b c d e
  · simp [a]
  · exact (bit_of_field_zero h2.1 i (by omega) (by omega)).symm
  · rw [show 8 + (i - 8) = i by omega]; simp [show i - 8 < 4 by omega]
  · rw [show 12 + (i - 12) = i by omega]; simp [show i - 12 < 4 by omega]
  · rw [show 16 + (i - 16) = i by omega]; simp [show i - 16 < 4 by omega]
  · by_cases g : i < 25
    · exact (bit_of_field_zero h3.1 i (by omega) (by omega)).symm
    · by_cases g2 : i < 32
      · exact (bit_of_field_zero h2.2 i (by omega) (by omega)).symm
      · exact (bit_of_field_zero h3.2 i (by omega) (by omega)).symm

/-- R61 to R67: what a word that decodes is. -/
theorem decode_ok_cases {w : Word} {i : Instr} (h : decode w = .ok i) :
    Word.opField w = i.op.code ∧ Word.reservedClear w = true ∧
    ((Word.unusedClearM w = true ∧ (i = .ld (Word.faField w) (Word.rbField w) (Word.offField w) ∨ i = .sd (Word.faField w) (Word.rbField w) (Word.offField w))) ∨
     (Word.unusedClearA w = true ∧ (i = .addD (Word.faField w) (Word.fbField w) (Word.fcField w) ∨ i = .subD (Word.faField w) (Word.fbField w) (Word.fcField w)
       ∨ i = .mulD (Word.faField w) (Word.fbField w) (Word.fcField w) ∨ i = .divD (Word.faField w) (Word.fbField w) (Word.fcField w)))) := by
  unfold decode at h
  split at h
  · cases h
  · rename_i op hop
    have hc := Op.eq_code_of_ofCode hop
    split at h
    · rename_i hr
      cases op <;> simp only [decodeM, decodeA] at h <;> split at h <;> cases h <;> refine ⟨hc, hr, ?_⟩ <;> simp_all
    · cases h

theorem maskM_bit : ∀ i < 64, (0x00000000FE0FF0FF : Word).getLsbD i = (decide (i < 8) || (decide (12 ≤ i) && decide (i < 20)) || (decide (25 ≤ i) && decide (i < 32))) := by decide

theorem maskA_bit : ∀ i < 64, (0xFFFFFFFFFFF000FF : Word).getLsbD i = (decide (i < 8) || decide (20 ≤ i)) := by decide

theorem field_zero_of_bits {w : Word} {lo len : Nat} (h : ∀ i, lo ≤ i → i < lo + len → w.getLsbD i = false) : w.extractLsb' lo len = 0 := by
  apply BitVec.eq_of_getLsbD_eq
  intro i hi
  simp [h (lo + i) (by omega) (by omega)]

/-- R62: a row matches when every fixed bit is that of the row. -/
theorem matchesWord_iff_bits (w : Word) (op : Op) : op.matchesWord w = true ↔
    ∀ i < 64, (w.getLsbD i && op.mask.getLsbD i) = op.code.getLsbD i := by
  simp only [Op.matchesWord, beq_iff_eq, Op.matchBits]
  constructor
  · intro h i hi
    have := congrArg (fun b => b.getLsbD i) h
    simpa [hi] using this
  · intro h
    apply BitVec.eq_of_getLsbD_eq
    intro i hi
    rw [BitVec.getLsbD_and, h i hi]; simp [hi]

theorem code_bit_high (c : BitVec 3) (i : Nat) (h : 3 ≤ i) : c.getLsbD i = false := by simp [h]

theorem opField_eq_iff_bits {w : Word} {c : BitVec 3} : Word.opField w = c ↔ ∀ i < 3, w.getLsbD i = c.getLsbD i := by
  unfold Word.opField
  constructor
  · rintro rfl i hi; simp [hi]
  · intro h
    apply BitVec.eq_of_getLsbD_eq
    intro i hi
    rw [BitVec.getLsbD_extractLsb']
    simp only [hi, decide_true, Bool.true_and, Nat.zero_add]
    exact h i hi

/-- R62, R67: a row matches when the op field is the row's and every reserved or unused field is 0. -/
theorem matchesWord_iff_fields (w : Word) (op : Op) : op.matchesWord w = true ↔
    Word.opField w = op.code ∧ Word.reservedClear w = true ∧ (if op = .ld ∨ op = .sd then Word.unusedClearM w = true else Word.unusedClearA w = true) := by
  rw [matchesWord_iff_bits, opField_eq_iff_bits]
  simp only [Word.reservedClear, Word.unusedClearM, Word.unusedClearA, Bool.and_eq_true, beq_iff_eq]
  constructor
  · intro h
    have hz : ∀ i, 3 ≤ i → i < 64 → op.mask.getLsbD i = true → w.getLsbD i = false := by
      intro i h1 h2 h3
      have := h i h2
      rw [h3, code_bit_high _ _ h1] at this; simpa using this
    have hm : ∀ i, i < 8 ∨ (25 ≤ i ∧ i < 32) → op.mask.getLsbD i = true := by
      intro i hi
      cases op <;> simp only [Op.mask] <;> first | rw [maskM_bit i (by omega)] | rw [maskA_bit i (by omega)]
      all_goals simp; omega
    refine ⟨?_, ⟨field_zero_of_bits fun i a b => hz i (by omega) (by omega) (hm i (by omega)), field_zero_of_bits fun i a b => hz i (by omega) (by omega) (hm i (by omega))⟩, ?_⟩
    · intro i hi
      have := h i (by omega)
      rwa [hm i (by omega), Bool.and_true] at this
    · split_ifs with ho
      · refine field_zero_of_bits fun i a b => hz i (by omega) (by omega) ?_
        obtain rfl | rfl := ho <;> (simp only [Op.mask]; rw [maskM_bit i (by omega)]; simp; omega)
      · have hA : op.mask = 0xFFFFFFFFFFF000FF := by cases op <;> simp_all [Op.mask]
        refine ⟨field_zero_of_bits fun i a b => hz i (by omega) (by omega) ?_, field_zero_of_bits fun i a b => hz i (by omega) (by omega) ?_⟩ <;>
          (rw [hA, maskA_bit i (by omega)]; simp; omega)
  · rintro ⟨h1, ⟨h2, h3⟩, h4⟩ i hi
    by_cases a : i < 3
    · rw [h1 i a]
      have : op.mask.getLsbD i = true := by
        cases op <;> simp only [Op.mask] <;> first | rw [maskM_bit i (by omega)] | rw [maskA_bit i (by omega)]
        all_goals simp; omega
      simp [this]
    · rw [code_bit_high _ _ (by omega)]
      by_cases b : i < 8
      · simp [bit_of_field_zero h2 i (by omega) (by omega)]
      by_cases c : 25 ≤ i ∧ i < 32
      · simp [bit_of_field_zero h3 i (by omega) (by omega)]
      split_ifs at h4 with ho
      · by_cases d : 12 ≤ i ∧ i < 20
        · simp [bit_of_field_zero h4 i (by omega) (by omega)]
        · have : op.mask.getLsbD i = false := by
            obtain rfl | rfl := ho <;> (simp only [Op.mask]; rw [maskM_bit i (by omega)]; simp; omega)
          simp [this]
      · have hA : op.mask = 0xFFFFFFFFFFF000FF := by cases op <;> simp_all [Op.mask]
        by_cases d : 20 ≤ i ∧ i < 25
        · simp [bit_of_field_zero h4.1 i (by omega) (by omega)]
        by_cases e : 32 ≤ i
        · simp [bit_of_field_zero h4.2 i (by omega) (by omega)]
        have : op.mask.getLsbD i = false := by rw [hA, maskA_bit i (by omega)]; simp; omega
        simp [this]

/-- R61: the op field of an instruction's word. -/
theorem opField_encode (i : Instr) : Word.opField (encode i) = i.op.code := by
  cases i with
  | ld fa base off => exact (fields_encodeM .ld fa base off).1
  | sd fa base off => exact (fields_encodeM .sd fa base off).1
  | addD fa fb fc => exact (fields_encodeA .addD fa fb fc).1
  | subD fa fb fc => exact (fields_encodeA .subD fa fb fc).1
  | mulD fa fb fc => exact (fields_encodeA .mulD fa fb fc).1
  | divD fa fb fc => exact (fields_encodeA .divD fa fb fc).1

end Sys2Proof

namespace Sys2Proof.Machine

/-- R71: a token names an operation exactly when it is its mnemonic in either case. -/
theorem opNamed_iff (token : List Char) (op : Op) : opNamed token = some op ↔ token.map Char.toUpper = mnemonicOf op := by
  constructor
  · intro h
    have := List.find?_some h
    exact (beq_iff_eq.1 this).symm
  · intro h
    unfold opNamed
    rw [h]
    cases op <;> decide

end Sys2Proof.Machine
end

