-- ==== Sys2Proof/Laws/Slots.lean ====
section
/-! SUPPORT. The slots of all pools as one list of views (`State.slots`): membership, identity, and how each operation on slots acts on the list. -/

namespace Sys2Proof.Machine

/-! ### Lists of slots with their identities -/

theorem mem_tagged {α : Type} {p : Pool} {l : List α} {c : SlotId × α} :
    c ∈ tagged p l ↔ ∃ j, l[j]? = some c.2 ∧ c.1 = ⟨p, j⟩ := by
  unfold tagged
  rw [List.mem_map]
  constructor
  · rintro ⟨⟨y, j⟩, h, rfl⟩
    exact ⟨j, List.mem_zipIdx_iff_getElem?.1 h, rfl⟩
  · rintro ⟨j, h, hc⟩
    exact ⟨(c.2, j), List.mem_zipIdx_iff_getElem?.2 h, by rw [← hc]⟩

theorem tagged_length {α : Type} (p : Pool) (l : List α) : (tagged p l).length = l.length := by simp [tagged]

theorem tagged_getElem {α : Type} (p : Pool) (l : List α) (j : Nat) (h : j < (tagged p l).length) :
    (tagged p l)[j] = (⟨p, j⟩, l[j]'(by simpa [tagged] using h)) := by simp [tagged]

theorem tagged_map {α β : Type} (p : Pool) (f : α → β) (l : List α) :
    tagged p (l.map f) = (tagged p l).map fun c => (c.1, f c.2) := by
  apply List.ext_getElem <;> simp [tagged]

theorem tagged_set {α : Type} (p : Pool) (l : List α) (j : Nat) (y : α) :
    tagged p (l.set j y) = (tagged p l).map fun c => if c.1 = ⟨p, j⟩ then (c.1, y) else c := by
  apply List.ext_getElem
  · simp [tagged]
  · intro i h1 h2
    simp only [tagged_getElem, List.getElem_map, List.getElem_set, SlotId.mk.injEq, true_and]
    by_cases h : j = i
    · simp [h]
    · simp [h, Ne.symm h]

theorem tagged_releaseIn {α : Type} (p : Pool) (free : α) (done : List SlotId) (l : List α) :
    tagged p (releaseIn p free done l) = (tagged p l).map fun c => if c.1 ∈ done then (c.1, free) else c := by
  apply List.ext_getElem
  · simp [tagged, releaseIn]
  · intro i h1 h2
    simp only [tagged_getElem, List.getElem_map, releaseIn, List.getElem_zipIdx, Nat.zero_add]
    split <;> rfl

theorem tagged_id_inj {α : Type} {p : Pool} {l : List α} {c d : SlotId × α} (hc : c ∈ tagged p l) (hd : d ∈ tagged p l)
    (h : c.1 = d.1) : c = d := by
  obtain ⟨i, hi, hci⟩ := mem_tagged.1 hc
  obtain ⟨j, hj, hdj⟩ := mem_tagged.1 hd
  have : i = j := by rw [hci, hdj] at h; simpa using h
  subst this
  exact Prod.ext h (Option.some.inj (hi.symm.trans hj))

/-! ### The views -/

/-- What it is to be a slot of the block. -/
theorem mem_slots {s : State} {x : SlotView} :
    x ∈ s.slots ↔ (∃ j y, s.adds[j]? = some y ∧ x = stationView (⟨.add, j⟩, y)) ∨
      (∃ j y, s.muls[j]? = some y ∧ x = stationView (⟨.mul, j⟩, y)) ∨
      (∃ j y, s.loads[j]? = some y ∧ x = loadView (⟨.load, j⟩, y)) ∨
      (∃ j y, s.stores[j]? = some y ∧ x = storeView (⟨.store, j⟩, y)) := by
  have key : ∀ {α : Type} (p : Pool) (l : List α) (f : SlotId × α → SlotView),
      x ∈ (tagged p l).map f ↔ ∃ j y, l[j]? = some y ∧ x = f (⟨p, j⟩, y) := by
    intro α p l f
    rw [List.mem_map]
    constructor
    · rintro ⟨c, hc, rfl⟩
      obtain ⟨j, hj, hcj⟩ := mem_tagged.1 hc
      exact ⟨j, c.2, hj, by rw [← hcj]⟩
    · rintro ⟨j, y, hj, rfl⟩
      exact ⟨(⟨p, j⟩, y), mem_tagged.2 ⟨j, hj, rfl⟩, rfl⟩
  simp only [State.slots, List.mem_append, key, or_assoc]

@[simp] theorem stationView_id (c : SlotId × Station) : (stationView c).id = c.1 := rfl
@[simp] theorem loadView_id (c : SlotId × LoadBuffer) : (loadView c).id = c.1 := rfl
@[simp] theorem storeView_id (c : SlotId × StoreBuffer) : (storeView c).id = c.1 := rfl
@[simp] theorem stationView_head (c : SlotId × Station) : (stationView c).head = c.2.head := rfl
@[simp] theorem loadView_head (c : SlotId × LoadBuffer) : (loadView c).head = c.2.head := rfl
@[simp] theorem storeView_head (c : SlotId × StoreBuffer) : (storeView c).head = c.2.head := rfl
@[simp] theorem stationView_dest (c : SlotId × Station) : (stationView c).dest = some c.2.dest := rfl
@[simp] theorem loadView_dest (c : SlotId × LoadBuffer) : (loadView c).dest = some c.2.dest := rfl
@[simp] theorem storeView_dest (c : SlotId × StoreBuffer) : (storeView c).dest = none := rfl
@[simp] theorem loadView_waits (c : SlotId × LoadBuffer) : (loadView c).waits = [] := rfl
@[simp] theorem storeView_waits (c : SlotId × StoreBuffer) : (storeView c).waits = c.2.qd.toList := rfl
@[simp] theorem stationView_waits (c : SlotId × Station) : (stationView c).waits = c.2.qj.toList ++ c.2.qk.toList := rfl

/-- R28: two slots of one identity are one slot. -/
theorem slots_id_inj {s : State} {x y : SlotView} (hx : x ∈ s.slots) (hy : y ∈ s.slots) (h : x.id = y.id) : x = y := by
  rcases mem_slots.1 hx with ⟨i, a, ha, rfl⟩ | ⟨i, a, ha, rfl⟩ | ⟨i, a, ha, rfl⟩ | ⟨i, a, ha, rfl⟩ <;>
    rcases mem_slots.1 hy with ⟨j, b, hb, rfl⟩ | ⟨j, b, hb, rfl⟩ | ⟨j, b, hb, rfl⟩ | ⟨j, b, hb, rfl⟩ <;>
    simp only [stationView_id, loadView_id, storeView_id, SlotId.mk.injEq, reduceCtorEq, false_and, true_and] at h <;>
    (subst h; rw [ha] at hb; cases hb; rfl)

/-- A store buffer is in pool `Store`, any other slot in another pool with a destination. -/
theorem slot_pool_cases {s : State} {x : SlotView} (hx : x ∈ s.slots) :
    (x.id.pool = .store ∧ x.dest = none) ∨ (x.id.pool ≠ .store ∧ x.dest ≠ none) := by
  rcases mem_slots.1 hx with ⟨i, a, ha, rfl⟩ | ⟨i, a, ha, rfl⟩ | ⟨i, a, ha, rfl⟩ | ⟨i, a, ha, rfl⟩ <;> simp

/-- The free slot of R33 of an identity. -/
def freeView (q : SlotId) : SlotView :=
  match q.pool with
  | .add => stationView (q, Station.free)
  | .mul => stationView (q, Station.free)
  | .load => loadView (q, LoadBuffer.free)
  | .store => storeView (q, StoreBuffer.free)

@[simp] theorem freeView_id (q : SlotId) : (freeView q).id = q := by unfold freeView; split <;> rfl
@[simp] theorem freeView_head (q : SlotId) : (freeView q).head = Head.free := by unfold freeView; split <;> rfl
@[simp] theorem freeView_waits (q : SlotId) : (freeView q).waits = [] := by unfold freeView; split <;> rfl
@[simp] theorem freeView_cleared (q : SlotId) : (freeView q).cleared = true := by unfold freeView; split <;> rfl

/-- R33: a cleared slot is the free slot of its identity. -/
theorem eq_freeView {s : State} {x : SlotView} (hx : x ∈ s.slots) (h : x.cleared = true) : x = freeView x.id := by
  rcases mem_slots.1 hx with ⟨i, a, ha, rfl⟩ | ⟨i, a, ha, rfl⟩ | ⟨i, a, ha, rfl⟩ | ⟨i, a, ha, rfl⟩ <;>
    simp only [stationView, loadView, storeView, beq_iff_eq] at h <;> subst h <;> rfl

/-- A busy slot is not cleared. -/
theorem not_cleared_of_busy {s : State} {x : SlotView} (hx : x ∈ s.slots) (h : x.head.busy = true) : x.cleared = false := by
  by_contra hc
  have := eq_freeView hx (by simpa using hc)
  rw [this] at h
  simp at h

/-! ### How the operations act on the views -/

theorem stationView_if (p : Prop) [Decidable p] (a b : SlotId × Station) :
    stationView (if p then a else b) = if p then stationView a else stationView b := by split <;> rfl

/-- R101 on the views. -/
theorem release_slots (done : List SlotId) (s : State) :
    (release done s).slots = s.slots.map fun x => if x.id ∈ done then freeView x.id else x := by
  have st : ∀ (p : Pool) (l : List Station), p = .add ∨ p = .mul →
      (tagged p (releaseIn p Station.free done l)).map stationView =
        ((tagged p l).map stationView).map fun x => if x.id ∈ done then freeView x.id else x := by
    intro p l hp
    rw [tagged_releaseIn, List.map_map, List.map_map]
    refine List.map_congr_left fun c hc => ?_
    obtain ⟨j, -, hcj⟩ := mem_tagged.1 hc
    simp only [Function.comp]
    by_cases hm : c.1 ∈ done
    · rw [if_pos hm, if_pos (show (stationView c).id ∈ done from hm)]
      show stationView (c.1, Station.free) = freeView c.1
      rw [hcj]; rcases hp with rfl | rfl <;> rfl
    · rw [if_neg hm, if_neg (show (stationView c).id ∉ done from hm)]
  have ld : ∀ (l : List LoadBuffer), (tagged .load (releaseIn .load LoadBuffer.free done l)).map loadView =
      ((tagged .load l).map loadView).map fun x => if x.id ∈ done then freeView x.id else x := by
    intro l
    rw [tagged_releaseIn, List.map_map, List.map_map]
    refine List.map_congr_left fun c hc => ?_
    obtain ⟨j, -, hcj⟩ := mem_tagged.1 hc
    simp only [Function.comp]
    by_cases hm : c.1 ∈ done
    · rw [if_pos hm, if_pos (show (loadView c).id ∈ done from hm)]
      show loadView (c.1, LoadBuffer.free) = freeView c.1
      rw [hcj]; rfl
    · rw [if_neg hm, if_neg (show (loadView c).id ∉ done from hm)]
  have sr : ∀ (l : List StoreBuffer), (tagged .store (releaseIn .store StoreBuffer.free done l)).map storeView =
      ((tagged .store l).map storeView).map fun x => if x.id ∈ done then freeView x.id else x := by
    intro l
    rw [tagged_releaseIn, List.map_map, List.map_map]
    refine List.map_congr_left fun c hc => ?_
    obtain ⟨j, -, hcj⟩ := mem_tagged.1 hc
    simp only [Function.comp]
    by_cases hm : c.1 ∈ done
    · rw [if_pos hm, if_pos (show (storeView c).id ∈ done from hm)]
      show storeView (c.1, StoreBuffer.free) = freeView c.1
      rw [hcj]; rfl
    · rw [if_neg hm, if_neg (show (storeView c).id ∉ done from hm)]
  simp only [State.slots, release, List.map_append, st .add _ (.inl rfl), st .mul _ (.inr rfl), ld, sr]

/-- R100 on a view: the tag of the broadcasting slot is no longer waited for. -/
def resolveView (src : SlotId) (x : SlotView) : SlotView :=
  if x.head.busy then { x with waits := x.waits.filter fun q => q ≠ src } else x

@[simp] theorem resolveView_id (src : SlotId) (x : SlotView) : (resolveView src x).id = x.id := by
  unfold resolveView; split <;> rfl
@[simp] theorem resolveView_head (src : SlotId) (x : SlotView) : (resolveView src x).head = x.head := by
  unfold resolveView; split <;> rfl
@[simp] theorem resolveView_dest (src : SlotId) (x : SlotView) : (resolveView src x).dest = x.dest := by
  unfold resolveView; split <;> rfl
@[simp] theorem resolveView_address (src : SlotId) (x : SlotView) : (resolveView src x).address = x.address := by
  unfold resolveView; split <;> rfl
@[simp] theorem resolveView_cleared (src : SlotId) (x : SlotView) : (resolveView src x).cleared = x.cleared := by
  unfold resolveView; split <;> rfl

theorem deliver_tag (b : Broadcast) (v : Word) (q : Tag) : (deliver b v q).2.toList = q.toList.filter fun r => r ≠ b.src := by
  unfold deliver
  cases q with
  | none => simp
  | some r => by_cases h : r = b.src <;> simp [h]

theorem forwardStation_view (b : Broadcast) (q : SlotId) (x : Station) :
    stationView (q, forwardStation b x) = resolveView b.src (stationView (q, x)) := by
  by_cases h : x.head.busy = true
  · have hf : ∀ y : Station, y.head = x.head → (y == Station.free) = false := by
      intro y hy; rw [beq_eq_false_iff_ne]; rintro rfl; rw [← hy] at h; simp at h
    rw [forwardStation, if_pos h, resolveView, if_pos (show (stationView (q, x)).head.busy = true from h)]
    simp only [stationView, deliver_tag, List.filter_append, SlotView.mk.injEq, true_and]
    refine Eq.trans (hf _ ?_) (hf x rfl).symm
    rfl
  · rw [forwardStation, if_neg h, resolveView, if_neg (show ¬ (stationView (q, x)).head.busy = true from h)]

theorem forwardStore_view (b : Broadcast) (q : SlotId) (x : StoreBuffer) :
    storeView (q, forwardStore b x) = resolveView b.src (storeView (q, x)) := by
  by_cases h : x.head.busy = true
  · have hf : ∀ y : StoreBuffer, y.head = x.head → (y == StoreBuffer.free) = false := by
      intro y hy; rw [beq_eq_false_iff_ne]; rintro rfl; rw [← hy] at h; simp at h
    rw [forwardStore, if_pos h, resolveView, if_pos (show (storeView (q, x)).head.busy = true from h)]
    simp only [storeView, deliver_tag, SlotView.mk.injEq, true_and]
    refine Eq.trans (hf _ ?_) (hf x rfl).symm
    rfl
  · rw [forwardStore, if_neg h, resolveView, if_neg (show ¬ (storeView (q, x)).head.busy = true from h)]

theorem loadView_resolve (src : SlotId) (c : SlotId × LoadBuffer) : resolveView src (loadView c) = loadView c := by
  unfold resolveView; split <;> rfl

theorem updateRegister_slots (b : Broadcast) (s : State) : (updateRegister b s).slots = s.slots := by
  unfold updateRegister; split <;> rfl

/-- R99, R100 on the views. -/
theorem applyBroadcast_slots (s : State) (b : Broadcast) :
    (applyBroadcast s b).slots = s.slots.map (resolveView b.src) := by
  unfold applyBroadcast
  have h : ∀ u : State, (forward b u).slots = u.slots.map (resolveView b.src) := by
    intro u
    simp only [State.slots, forward, tagged_map, List.map_append, List.map_map]
    congr 1
    · congr 1
      · congr 1 <;> exact List.map_congr_left fun c _ => forwardStation_view b c.1 c.2
      · exact List.map_congr_left fun c _ => (loadView_resolve b.src c).symm
    · exact List.map_congr_left fun c _ => forwardStore_view b c.1 c.2
  rw [h, updateRegister_slots]

/-- The views after a batch of broadcasts. -/
theorem foldl_applyBroadcast_slots (bs : List Broadcast) (s : State) :
    (bs.foldl applyBroadcast s).slots = s.slots.map fun x =>
      if x.head.busy then { x with waits := x.waits.filter fun q => q ∉ bs.map Broadcast.src } else x := by
  induction bs generalizing s with
  | nil =>
    simp only [List.foldl_nil, List.map_nil, List.not_mem_nil, not_false_eq_true, decide_true, List.filter_true, ite_self, List.map_id']
  | cons b rest ih =>
    rw [List.foldl_cons, ih, applyBroadcast_slots, List.map_map]
    refine List.map_congr_left fun x _ => ?_
    simp only [Function.comp, resolveView_head]
    split
    · next h =>
      simp only [resolveView, h, if_true, List.filter_filter, SlotView.mk.injEq, true_and, and_true]
      refine List.filter_congr fun q _ => ?_
      simp only [List.map_cons, List.mem_cons, not_or, ne_eq, Bool.decide_and, Bool.and_comm]
    · next h => simp [resolveView, h]

end Sys2Proof.Machine
end

