-- ==== Sys2Proof/Laws/State.lean ====
section
/-! SUPPORT. The fields of State after each update, one lemma per field and update. -/

namespace Sys2Proof.Machine

/-! ### `tick` (R80) -/

@[simp] theorem tick_params (s : State) : (tick s).params = s.params := rfl
@[simp] theorem tick_clk (s : State) : (tick s).clk = s.clk + 1 := rfl
@[simp] theorem tick_status (s : State) : (tick s).status = s.status := rfl
@[simp] theorem tick_next (s : State) : (tick s).next = s.next := rfl
@[simp] theorem tick_faultCode (s : State) : (tick s).faultCode = s.faultCode := rfl
@[simp] theorem tick_faultInfo (s : State) : (tick s).faultInfo = s.faultInfo := rfl
@[simp] theorem tick_prog (s : State) : (tick s).prog = s.prog := rfl
@[simp] theorem tick_stamps (s : State) : (tick s).stamps = s.stamps := rfl
@[simp] theorem tick_fpr (s : State) : (tick s).fpr = s.fpr := rfl
@[simp] theorem tick_gpr (s : State) : (tick s).gpr = s.gpr := rfl
@[simp] theorem tick_adds (s : State) : (tick s).adds = s.adds := rfl
@[simp] theorem tick_muls (s : State) : (tick s).muls = s.muls := rfl
@[simp] theorem tick_loads (s : State) : (tick s).loads = s.loads := rfl
@[simp] theorem tick_stores (s : State) : (tick s).stores = s.stores := rfl
@[simp] theorem tick_rrs (s : State) : (tick s).rrs = s.rrs := rfl
@[simp] theorem tick_mem (s : State) : (tick s).mem = s.mem := rfl
@[simp] theorem tick_draws (s : State) : (tick s).draws = s.draws := rfl

/-! ### `writeF` (R26) -/

@[simp] theorem writeF_params (s : State) (i : FReg) (v : Word) : (s.writeF i v).params = s.params := rfl
@[simp] theorem writeF_clk (s : State) (i : FReg) (v : Word) : (s.writeF i v).clk = s.clk := rfl
@[simp] theorem writeF_status (s : State) (i : FReg) (v : Word) : (s.writeF i v).status = s.status := rfl
@[simp] theorem writeF_next (s : State) (i : FReg) (v : Word) : (s.writeF i v).next = s.next := rfl
@[simp] theorem writeF_faultCode (s : State) (i : FReg) (v : Word) : (s.writeF i v).faultCode = s.faultCode := rfl
@[simp] theorem writeF_faultInfo (s : State) (i : FReg) (v : Word) : (s.writeF i v).faultInfo = s.faultInfo := rfl
@[simp] theorem writeF_prog (s : State) (i : FReg) (v : Word) : (s.writeF i v).prog = s.prog := rfl
@[simp] theorem writeF_stamps (s : State) (i : FReg) (v : Word) : (s.writeF i v).stamps = s.stamps := rfl
@[simp] theorem writeF_fpr (s : State) (i : FReg) (v : Word) : (s.writeF i v).fpr = s.fpr.set i.toNat v := rfl
@[simp] theorem writeF_gpr (s : State) (i : FReg) (v : Word) : (s.writeF i v).gpr = s.gpr := rfl
@[simp] theorem writeF_adds (s : State) (i : FReg) (v : Word) : (s.writeF i v).adds = s.adds := rfl
@[simp] theorem writeF_muls (s : State) (i : FReg) (v : Word) : (s.writeF i v).muls = s.muls := rfl
@[simp] theorem writeF_loads (s : State) (i : FReg) (v : Word) : (s.writeF i v).loads = s.loads := rfl
@[simp] theorem writeF_stores (s : State) (i : FReg) (v : Word) : (s.writeF i v).stores = s.stores := rfl
@[simp] theorem writeF_rrs (s : State) (i : FReg) (v : Word) : (s.writeF i v).rrs = s.rrs := rfl
@[simp] theorem writeF_mem (s : State) (i : FReg) (v : Word) : (s.writeF i v).mem = s.mem := rfl
@[simp] theorem writeF_draws (s : State) (i : FReg) (v : Word) : (s.writeF i v).draws = s.draws := rfl

/-! ### `writeRRS` (R34) -/

@[simp] theorem writeRRS_params (s : State) (i : FReg) (q : Tag) : (s.writeRRS i q).params = s.params := rfl
@[simp] theorem writeRRS_clk (s : State) (i : FReg) (q : Tag) : (s.writeRRS i q).clk = s.clk := rfl
@[simp] theorem writeRRS_status (s : State) (i : FReg) (q : Tag) : (s.writeRRS i q).status = s.status := rfl
@[simp] theorem writeRRS_next (s : State) (i : FReg) (q : Tag) : (s.writeRRS i q).next = s.next := rfl
@[simp] theorem writeRRS_faultCode (s : State) (i : FReg) (q : Tag) : (s.writeRRS i q).faultCode = s.faultCode := rfl
@[simp] theorem writeRRS_faultInfo (s : State) (i : FReg) (q : Tag) : (s.writeRRS i q).faultInfo = s.faultInfo := rfl
@[simp] theorem writeRRS_prog (s : State) (i : FReg) (q : Tag) : (s.writeRRS i q).prog = s.prog := rfl
@[simp] theorem writeRRS_stamps (s : State) (i : FReg) (q : Tag) : (s.writeRRS i q).stamps = s.stamps := rfl
@[simp] theorem writeRRS_fpr (s : State) (i : FReg) (q : Tag) : (s.writeRRS i q).fpr = s.fpr := rfl
@[simp] theorem writeRRS_gpr (s : State) (i : FReg) (q : Tag) : (s.writeRRS i q).gpr = s.gpr := rfl
@[simp] theorem writeRRS_adds (s : State) (i : FReg) (q : Tag) : (s.writeRRS i q).adds = s.adds := rfl
@[simp] theorem writeRRS_muls (s : State) (i : FReg) (q : Tag) : (s.writeRRS i q).muls = s.muls := rfl
@[simp] theorem writeRRS_loads (s : State) (i : FReg) (q : Tag) : (s.writeRRS i q).loads = s.loads := rfl
@[simp] theorem writeRRS_stores (s : State) (i : FReg) (q : Tag) : (s.writeRRS i q).stores = s.stores := rfl
@[simp] theorem writeRRS_rrs (s : State) (i : FReg) (q : Tag) : (s.writeRRS i q).rrs = s.rrs.set i.toNat q := rfl
@[simp] theorem writeRRS_mem (s : State) (i : FReg) (q : Tag) : (s.writeRRS i q).mem = s.mem := rfl
@[simp] theorem writeRRS_draws (s : State) (i : FReg) (q : Tag) : (s.writeRRS i q).draws = s.draws := rfl

/-! ### `claimDestination` (R86) -/

@[simp] theorem claimDestination_params (q : SlotId) (i : FReg) (s : State) : (claimDestination q i s).params = s.params := rfl
@[simp] theorem claimDestination_clk (q : SlotId) (i : FReg) (s : State) : (claimDestination q i s).clk = s.clk := rfl
@[simp] theorem claimDestination_status (q : SlotId) (i : FReg) (s : State) : (claimDestination q i s).status = s.status := rfl
@[simp] theorem claimDestination_next (q : SlotId) (i : FReg) (s : State) : (claimDestination q i s).next = s.next := rfl
@[simp] theorem claimDestination_faultCode (q : SlotId) (i : FReg) (s : State) : (claimDestination q i s).faultCode = s.faultCode := rfl
@[simp] theorem claimDestination_faultInfo (q : SlotId) (i : FReg) (s : State) : (claimDestination q i s).faultInfo = s.faultInfo := rfl
@[simp] theorem claimDestination_prog (q : SlotId) (i : FReg) (s : State) : (claimDestination q i s).prog = s.prog := rfl
@[simp] theorem claimDestination_stamps (q : SlotId) (i : FReg) (s : State) : (claimDestination q i s).stamps = s.stamps := rfl
@[simp] theorem claimDestination_fpr (q : SlotId) (i : FReg) (s : State) : (claimDestination q i s).fpr = s.fpr := rfl
@[simp] theorem claimDestination_gpr (q : SlotId) (i : FReg) (s : State) : (claimDestination q i s).gpr = s.gpr := rfl
@[simp] theorem claimDestination_adds (q : SlotId) (i : FReg) (s : State) : (claimDestination q i s).adds = s.adds := rfl
@[simp] theorem claimDestination_muls (q : SlotId) (i : FReg) (s : State) : (claimDestination q i s).muls = s.muls := rfl
@[simp] theorem claimDestination_loads (q : SlotId) (i : FReg) (s : State) : (claimDestination q i s).loads = s.loads := rfl
@[simp] theorem claimDestination_stores (q : SlotId) (i : FReg) (s : State) : (claimDestination q i s).stores = s.stores := rfl
@[simp] theorem claimDestination_rrs (q : SlotId) (i : FReg) (s : State) : (claimDestination q i s).rrs = s.rrs.set i.toNat (some q) := rfl
@[simp] theorem claimDestination_mem (q : SlotId) (i : FReg) (s : State) : (claimDestination q i s).mem = s.mem := rfl
@[simp] theorem claimDestination_draws (q : SlotId) (i : FReg) (s : State) : (claimDestination q i s).draws = s.draws := rfl

/-! ### `noteIssue` (R83) -/

@[simp] theorem noteIssue_params (s : State) : (noteIssue s).params = s.params := rfl
@[simp] theorem noteIssue_clk (s : State) : (noteIssue s).clk = s.clk := rfl
@[simp] theorem noteIssue_status (s : State) : (noteIssue s).status = s.status := rfl
@[simp] theorem noteIssue_next (s : State) : (noteIssue s).next = s.next + 1 := rfl
@[simp] theorem noteIssue_faultCode (s : State) : (noteIssue s).faultCode = s.faultCode := rfl
@[simp] theorem noteIssue_faultInfo (s : State) : (noteIssue s).faultInfo = s.faultInfo := rfl
@[simp] theorem noteIssue_prog (s : State) : (noteIssue s).prog = s.prog := rfl
@[simp] theorem noteIssue_stamps (s : State) : (noteIssue s).stamps = s.stamps.set s.next { s.stamp s.next with iss := some s.clk } := rfl
@[simp] theorem noteIssue_fpr (s : State) : (noteIssue s).fpr = s.fpr := rfl
@[simp] theorem noteIssue_gpr (s : State) : (noteIssue s).gpr = s.gpr := rfl
@[simp] theorem noteIssue_adds (s : State) : (noteIssue s).adds = s.adds := rfl
@[simp] theorem noteIssue_muls (s : State) : (noteIssue s).muls = s.muls := rfl
@[simp] theorem noteIssue_loads (s : State) : (noteIssue s).loads = s.loads := rfl
@[simp] theorem noteIssue_stores (s : State) : (noteIssue s).stores = s.stores := rfl
@[simp] theorem noteIssue_rrs (s : State) : (noteIssue s).rrs = s.rrs := rfl
@[simp] theorem noteIssue_mem (s : State) : (noteIssue s).mem = s.mem := rfl
@[simp] theorem noteIssue_draws (s : State) : (noteIssue s).draws = s.draws := rfl

/-! ### `updateRegister` (R99) -/

@[simp] theorem updateRegister_params (b : Broadcast) (s : State) : (updateRegister b s).params = s.params := by unfold updateRegister; split <;> rfl
@[simp] theorem updateRegister_clk (b : Broadcast) (s : State) : (updateRegister b s).clk = s.clk := by unfold updateRegister; split <;> rfl
@[simp] theorem updateRegister_status (b : Broadcast) (s : State) : (updateRegister b s).status = s.status := by unfold updateRegister; split <;> rfl
@[simp] theorem updateRegister_next (b : Broadcast) (s : State) : (updateRegister b s).next = s.next := by unfold updateRegister; split <;> rfl
@[simp] theorem updateRegister_faultCode (b : Broadcast) (s : State) : (updateRegister b s).faultCode = s.faultCode := by unfold updateRegister; split <;> rfl
@[simp] theorem updateRegister_faultInfo (b : Broadcast) (s : State) : (updateRegister b s).faultInfo = s.faultInfo := by unfold updateRegister; split <;> rfl
@[simp] theorem updateRegister_prog (b : Broadcast) (s : State) : (updateRegister b s).prog = s.prog := by unfold updateRegister; split <;> rfl
@[simp] theorem updateRegister_stamps (b : Broadcast) (s : State) : (updateRegister b s).stamps = s.stamps := by unfold updateRegister; split <;> rfl
@[simp] theorem updateRegister_gpr (b : Broadcast) (s : State) : (updateRegister b s).gpr = s.gpr := by unfold updateRegister; split <;> rfl
@[simp] theorem updateRegister_adds (b : Broadcast) (s : State) : (updateRegister b s).adds = s.adds := by unfold updateRegister; split <;> rfl
@[simp] theorem updateRegister_muls (b : Broadcast) (s : State) : (updateRegister b s).muls = s.muls := by unfold updateRegister; split <;> rfl
@[simp] theorem updateRegister_loads (b : Broadcast) (s : State) : (updateRegister b s).loads = s.loads := by unfold updateRegister; split <;> rfl
@[simp] theorem updateRegister_stores (b : Broadcast) (s : State) : (updateRegister b s).stores = s.stores := by unfold updateRegister; split <;> rfl
@[simp] theorem updateRegister_mem (b : Broadcast) (s : State) : (updateRegister b s).mem = s.mem := by unfold updateRegister; split <;> rfl
@[simp] theorem updateRegister_draws (b : Broadcast) (s : State) : (updateRegister b s).draws = s.draws := by unfold updateRegister; split <;> rfl

/-! ### `forward` (R100) -/

@[simp] theorem forward_params (b : Broadcast) (s : State) : (forward b s).params = s.params := rfl
@[simp] theorem forward_clk (b : Broadcast) (s : State) : (forward b s).clk = s.clk := rfl
@[simp] theorem forward_status (b : Broadcast) (s : State) : (forward b s).status = s.status := rfl
@[simp] theorem forward_next (b : Broadcast) (s : State) : (forward b s).next = s.next := rfl
@[simp] theorem forward_faultCode (b : Broadcast) (s : State) : (forward b s).faultCode = s.faultCode := rfl
@[simp] theorem forward_faultInfo (b : Broadcast) (s : State) : (forward b s).faultInfo = s.faultInfo := rfl
@[simp] theorem forward_prog (b : Broadcast) (s : State) : (forward b s).prog = s.prog := rfl
@[simp] theorem forward_stamps (b : Broadcast) (s : State) : (forward b s).stamps = s.stamps := rfl
@[simp] theorem forward_fpr (b : Broadcast) (s : State) : (forward b s).fpr = s.fpr := rfl
@[simp] theorem forward_gpr (b : Broadcast) (s : State) : (forward b s).gpr = s.gpr := rfl
@[simp] theorem forward_adds (b : Broadcast) (s : State) : (forward b s).adds = s.adds.map (forwardStation b) := rfl
@[simp] theorem forward_muls (b : Broadcast) (s : State) : (forward b s).muls = s.muls.map (forwardStation b) := rfl
@[simp] theorem forward_loads (b : Broadcast) (s : State) : (forward b s).loads = s.loads := rfl
@[simp] theorem forward_stores (b : Broadcast) (s : State) : (forward b s).stores = s.stores.map (forwardStore b) := rfl
@[simp] theorem forward_rrs (b : Broadcast) (s : State) : (forward b s).rrs = s.rrs := rfl
@[simp] theorem forward_mem (b : Broadcast) (s : State) : (forward b s).mem = s.mem := rfl
@[simp] theorem forward_draws (b : Broadcast) (s : State) : (forward b s).draws = s.draws := rfl

/-! ### `release` (R101) -/

@[simp] theorem release_params (l : List SlotId) (s : State) : (release l s).params = s.params := rfl
@[simp] theorem release_clk (l : List SlotId) (s : State) : (release l s).clk = s.clk := rfl
@[simp] theorem release_status (l : List SlotId) (s : State) : (release l s).status = s.status := rfl
@[simp] theorem release_next (l : List SlotId) (s : State) : (release l s).next = s.next := rfl
@[simp] theorem release_faultCode (l : List SlotId) (s : State) : (release l s).faultCode = s.faultCode := rfl
@[simp] theorem release_faultInfo (l : List SlotId) (s : State) : (release l s).faultInfo = s.faultInfo := rfl
@[simp] theorem release_prog (l : List SlotId) (s : State) : (release l s).prog = s.prog := rfl
@[simp] theorem release_stamps (l : List SlotId) (s : State) : (release l s).stamps = s.stamps := rfl
@[simp] theorem release_fpr (l : List SlotId) (s : State) : (release l s).fpr = s.fpr := rfl
@[simp] theorem release_gpr (l : List SlotId) (s : State) : (release l s).gpr = s.gpr := rfl
@[simp] theorem release_adds (l : List SlotId) (s : State) : (release l s).adds = releaseIn .add Station.free l s.adds := rfl
@[simp] theorem release_muls (l : List SlotId) (s : State) : (release l s).muls = releaseIn .mul Station.free l s.muls := rfl
@[simp] theorem release_loads (l : List SlotId) (s : State) : (release l s).loads = releaseIn .load LoadBuffer.free l s.loads := rfl
@[simp] theorem release_stores (l : List SlotId) (s : State) : (release l s).stores = releaseIn .store StoreBuffer.free l s.stores := rfl
@[simp] theorem release_rrs (l : List SlotId) (s : State) : (release l s).rrs = s.rrs := rfl
@[simp] theorem release_mem (l : List SlotId) (s : State) : (release l s).mem = s.mem := rfl
@[simp] theorem release_draws (l : List SlotId) (s : State) : (release l s).draws = s.draws := rfl

/-! ### `recordWriteback` (R97) -/

@[simp] theorem recordWriteback_params (ks : List Nat) (s : State) : (recordWriteback ks s).params = s.params := rfl
@[simp] theorem recordWriteback_clk (ks : List Nat) (s : State) : (recordWriteback ks s).clk = s.clk := rfl
@[simp] theorem recordWriteback_status (ks : List Nat) (s : State) : (recordWriteback ks s).status = s.status := rfl
@[simp] theorem recordWriteback_next (ks : List Nat) (s : State) : (recordWriteback ks s).next = s.next := rfl
@[simp] theorem recordWriteback_faultCode (ks : List Nat) (s : State) : (recordWriteback ks s).faultCode = s.faultCode := rfl
@[simp] theorem recordWriteback_faultInfo (ks : List Nat) (s : State) : (recordWriteback ks s).faultInfo = s.faultInfo := rfl
@[simp] theorem recordWriteback_prog (ks : List Nat) (s : State) : (recordWriteback ks s).prog = s.prog := rfl
@[simp] theorem recordWriteback_fpr (ks : List Nat) (s : State) : (recordWriteback ks s).fpr = s.fpr := rfl
@[simp] theorem recordWriteback_gpr (ks : List Nat) (s : State) : (recordWriteback ks s).gpr = s.gpr := rfl
@[simp] theorem recordWriteback_adds (ks : List Nat) (s : State) : (recordWriteback ks s).adds = s.adds := rfl
@[simp] theorem recordWriteback_muls (ks : List Nat) (s : State) : (recordWriteback ks s).muls = s.muls := rfl
@[simp] theorem recordWriteback_loads (ks : List Nat) (s : State) : (recordWriteback ks s).loads = s.loads := rfl
@[simp] theorem recordWriteback_stores (ks : List Nat) (s : State) : (recordWriteback ks s).stores = s.stores := rfl
@[simp] theorem recordWriteback_rrs (ks : List Nat) (s : State) : (recordWriteback ks s).rrs = s.rrs := rfl
@[simp] theorem recordWriteback_mem (ks : List Nat) (s : State) : (recordWriteback ks s).mem = s.mem := rfl
@[simp] theorem recordWriteback_draws (ks : List Nat) (s : State) : (recordWriteback ks s).draws = s.draws := rfl

/-! ### `raiseFault` (R131) -/

@[simp] theorem raiseFault_params (c : FaultCode) (x : FaultInfo) (s : State) : (raiseFault c x s).params = s.params := rfl
@[simp] theorem raiseFault_clk (c : FaultCode) (x : FaultInfo) (s : State) : (raiseFault c x s).clk = s.clk := rfl
@[simp] theorem raiseFault_status (c : FaultCode) (x : FaultInfo) (s : State) : (raiseFault c x s).status = .fault := rfl
@[simp] theorem raiseFault_next (c : FaultCode) (x : FaultInfo) (s : State) : (raiseFault c x s).next = s.next := rfl
@[simp] theorem raiseFault_faultCode (c : FaultCode) (x : FaultInfo) (s : State) : (raiseFault c x s).faultCode = c := rfl
@[simp] theorem raiseFault_faultInfo (c : FaultCode) (x : FaultInfo) (s : State) : (raiseFault c x s).faultInfo = some x := rfl
@[simp] theorem raiseFault_prog (c : FaultCode) (x : FaultInfo) (s : State) : (raiseFault c x s).prog = s.prog := rfl
@[simp] theorem raiseFault_stamps (c : FaultCode) (x : FaultInfo) (s : State) : (raiseFault c x s).stamps = s.stamps := rfl
@[simp] theorem raiseFault_fpr (c : FaultCode) (x : FaultInfo) (s : State) : (raiseFault c x s).fpr = s.fpr := rfl
@[simp] theorem raiseFault_gpr (c : FaultCode) (x : FaultInfo) (s : State) : (raiseFault c x s).gpr = s.gpr := rfl
@[simp] theorem raiseFault_adds (c : FaultCode) (x : FaultInfo) (s : State) : (raiseFault c x s).adds = s.adds := rfl
@[simp] theorem raiseFault_muls (c : FaultCode) (x : FaultInfo) (s : State) : (raiseFault c x s).muls = s.muls := rfl
@[simp] theorem raiseFault_loads (c : FaultCode) (x : FaultInfo) (s : State) : (raiseFault c x s).loads = s.loads := rfl
@[simp] theorem raiseFault_stores (c : FaultCode) (x : FaultInfo) (s : State) : (raiseFault c x s).stores = s.stores := rfl
@[simp] theorem raiseFault_rrs (c : FaultCode) (x : FaultInfo) (s : State) : (raiseFault c x s).rrs = s.rrs := rfl
@[simp] theorem raiseFault_mem (c : FaultCode) (x : FaultInfo) (s : State) : (raiseFault c x s).mem = s.mem := rfl
@[simp] theorem raiseFault_draws (c : FaultCode) (x : FaultInfo) (s : State) : (raiseFault c x s).draws = s.draws := rfl

/-! ### `executeStage` (R89) -/

@[simp] theorem executeStage_params (s : State) : (executeStage s).params = s.params := rfl
@[simp] theorem executeStage_clk (s : State) : (executeStage s).clk = s.clk := rfl
@[simp] theorem executeStage_status (s : State) : (executeStage s).status = s.status := rfl
@[simp] theorem executeStage_next (s : State) : (executeStage s).next = s.next := rfl
@[simp] theorem executeStage_faultCode (s : State) : (executeStage s).faultCode = s.faultCode := rfl
@[simp] theorem executeStage_faultInfo (s : State) : (executeStage s).faultInfo = s.faultInfo := rfl
@[simp] theorem executeStage_prog (s : State) : (executeStage s).prog = s.prog := rfl
@[simp] theorem executeStage_fpr (s : State) : (executeStage s).fpr = s.fpr := rfl
@[simp] theorem executeStage_gpr (s : State) : (executeStage s).gpr = s.gpr := rfl
@[simp] theorem executeStage_rrs (s : State) : (executeStage s).rrs = s.rrs := rfl
@[simp] theorem executeStage_mem (s : State) : (executeStage s).mem = s.mem := rfl
@[simp] theorem executeStage_draws (s : State) : (executeStage s).draws = s.draws := rfl

/-! ### The broadcasts of a batch (R99, R100) -/

@[simp] theorem applyBroadcast_params (s : State) (b : Broadcast) : (applyBroadcast s b).params = s.params := by simp [applyBroadcast]
@[simp] theorem applyBroadcast_clk (s : State) (b : Broadcast) : (applyBroadcast s b).clk = s.clk := by simp [applyBroadcast]
@[simp] theorem applyBroadcast_status (s : State) (b : Broadcast) : (applyBroadcast s b).status = s.status := by simp [applyBroadcast]
@[simp] theorem applyBroadcast_next (s : State) (b : Broadcast) : (applyBroadcast s b).next = s.next := by simp [applyBroadcast]
@[simp] theorem applyBroadcast_faultCode (s : State) (b : Broadcast) : (applyBroadcast s b).faultCode = s.faultCode := by simp [applyBroadcast]
@[simp] theorem applyBroadcast_faultInfo (s : State) (b : Broadcast) : (applyBroadcast s b).faultInfo = s.faultInfo := by simp [applyBroadcast]
@[simp] theorem applyBroadcast_prog (s : State) (b : Broadcast) : (applyBroadcast s b).prog = s.prog := by simp [applyBroadcast]
@[simp] theorem applyBroadcast_stamps (s : State) (b : Broadcast) : (applyBroadcast s b).stamps = s.stamps := by simp [applyBroadcast]
@[simp] theorem applyBroadcast_gpr (s : State) (b : Broadcast) : (applyBroadcast s b).gpr = s.gpr := by simp [applyBroadcast]
@[simp] theorem applyBroadcast_loads (s : State) (b : Broadcast) : (applyBroadcast s b).loads = s.loads := by simp [applyBroadcast]
@[simp] theorem applyBroadcast_mem (s : State) (b : Broadcast) : (applyBroadcast s b).mem = s.mem := by simp [applyBroadcast]
@[simp] theorem applyBroadcast_draws (s : State) (b : Broadcast) : (applyBroadcast s b).draws = s.draws := by simp [applyBroadcast]

@[simp] theorem applyBroadcasts_params (s : State) (bs : List Broadcast) : (bs.foldl applyBroadcast s).params = s.params := by
  induction bs generalizing s with
  | nil => rfl
  | cons b bs ih => simp [ih]
@[simp] theorem applyBroadcasts_clk (s : State) (bs : List Broadcast) : (bs.foldl applyBroadcast s).clk = s.clk := by
  induction bs generalizing s with
  | nil => rfl
  | cons b bs ih => simp [ih]
@[simp] theorem applyBroadcasts_status (s : State) (bs : List Broadcast) : (bs.foldl applyBroadcast s).status = s.status := by
  induction bs generalizing s with
  | nil => rfl
  | cons b bs ih => simp [ih]
@[simp] theorem applyBroadcasts_next (s : State) (bs : List Broadcast) : (bs.foldl applyBroadcast s).next = s.next := by
  induction bs generalizing s with
  | nil => rfl
  | cons b bs ih => simp [ih]
@[simp] theorem applyBroadcasts_faultCode (s : State) (bs : List Broadcast) : (bs.foldl applyBroadcast s).faultCode = s.faultCode := by
  induction bs generalizing s with
  | nil => rfl
  | cons b bs ih => simp [ih]
@[simp] theorem applyBroadcasts_faultInfo (s : State) (bs : List Broadcast) : (bs.foldl applyBroadcast s).faultInfo = s.faultInfo := by
  induction bs generalizing s with
  | nil => rfl
  | cons b bs ih => simp [ih]
@[simp] theorem applyBroadcasts_prog (s : State) (bs : List Broadcast) : (bs.foldl applyBroadcast s).prog = s.prog := by
  induction bs generalizing s with
  | nil => rfl
  | cons b bs ih => simp [ih]
@[simp] theorem applyBroadcasts_stamps (s : State) (bs : List Broadcast) : (bs.foldl applyBroadcast s).stamps = s.stamps := by
  induction bs generalizing s with
  | nil => rfl
  | cons b bs ih => simp [ih]
@[simp] theorem applyBroadcasts_gpr (s : State) (bs : List Broadcast) : (bs.foldl applyBroadcast s).gpr = s.gpr := by
  induction bs generalizing s with
  | nil => rfl
  | cons b bs ih => simp [ih]
@[simp] theorem applyBroadcasts_loads (s : State) (bs : List Broadcast) : (bs.foldl applyBroadcast s).loads = s.loads := by
  induction bs generalizing s with
  | nil => rfl
  | cons b bs ih => simp [ih]
@[simp] theorem applyBroadcasts_mem (s : State) (bs : List Broadcast) : (bs.foldl applyBroadcast s).mem = s.mem := by
  induction bs generalizing s with
  | nil => rfl
  | cons b bs ih => simp [ih]
@[simp] theorem applyBroadcasts_draws (s : State) (bs : List Broadcast) : (bs.foldl applyBroadcast s).draws = s.draws := by
  induction bs generalizing s with
  | nil => rfl
  | cons b bs ih => simp [ih]

/-! ### The committed batch and the completion check -/

@[simp] theorem commitBatch_params (s : State) : (commitBatch s).params = s.params := by simp [commitBatch]
@[simp] theorem commitBatch_clk (s : State) : (commitBatch s).clk = s.clk := by simp [commitBatch]
@[simp] theorem commitBatch_status (s : State) : (commitBatch s).status = s.status := by simp [commitBatch]
@[simp] theorem commitBatch_next (s : State) : (commitBatch s).next = s.next := by simp [commitBatch]
@[simp] theorem commitBatch_faultCode (s : State) : (commitBatch s).faultCode = s.faultCode := by simp [commitBatch]
@[simp] theorem commitBatch_faultInfo (s : State) : (commitBatch s).faultInfo = s.faultInfo := by simp [commitBatch]
@[simp] theorem commitBatch_prog (s : State) : (commitBatch s).prog = s.prog := by simp [commitBatch]
@[simp] theorem commitBatch_gpr (s : State) : (commitBatch s).gpr = s.gpr := by simp [commitBatch]
@[simp] theorem commitBatch_draws (s : State) : (commitBatch s).draws = s.draws + 1 := by simp [commitBatch]
@[simp] theorem commitBatch_mem (s : State) : (commitBatch s).mem = applyWrites s s.queuedWrites := by simp [commitBatch]
@[simp] theorem commitBatch_stamps (s : State) : (commitBatch s).stamps = (recordWriteback s.candidateInstrs s).stamps := by simp [commitBatch]

@[simp] theorem completionCheck_params (s : State) : (completionCheck s).params = s.params := by
  unfold completionCheck; split_ifs <;> rfl
@[simp] theorem completionCheck_clk (s : State) : (completionCheck s).clk = s.clk := by
  unfold completionCheck; split_ifs <;> rfl
@[simp] theorem completionCheck_next (s : State) : (completionCheck s).next = s.next := by
  unfold completionCheck; split_ifs <;> rfl
@[simp] theorem completionCheck_faultCode (s : State) : (completionCheck s).faultCode = s.faultCode := by
  unfold completionCheck; split_ifs <;> rfl
@[simp] theorem completionCheck_faultInfo (s : State) : (completionCheck s).faultInfo = s.faultInfo := by
  unfold completionCheck; split_ifs <;> rfl
@[simp] theorem completionCheck_prog (s : State) : (completionCheck s).prog = s.prog := by
  unfold completionCheck; split_ifs <;> rfl
@[simp] theorem completionCheck_stamps (s : State) : (completionCheck s).stamps = s.stamps := by
  unfold completionCheck; split_ifs <;> rfl
@[simp] theorem completionCheck_fpr (s : State) : (completionCheck s).fpr = s.fpr := by
  unfold completionCheck; split_ifs <;> rfl
@[simp] theorem completionCheck_gpr (s : State) : (completionCheck s).gpr = s.gpr := by
  unfold completionCheck; split_ifs <;> rfl
@[simp] theorem completionCheck_adds (s : State) : (completionCheck s).adds = s.adds := by
  unfold completionCheck; split_ifs <;> rfl
@[simp] theorem completionCheck_muls (s : State) : (completionCheck s).muls = s.muls := by
  unfold completionCheck; split_ifs <;> rfl
@[simp] theorem completionCheck_loads (s : State) : (completionCheck s).loads = s.loads := by
  unfold completionCheck; split_ifs <;> rfl
@[simp] theorem completionCheck_stores (s : State) : (completionCheck s).stores = s.stores := by
  unfold completionCheck; split_ifs <;> rfl
@[simp] theorem completionCheck_rrs (s : State) : (completionCheck s).rrs = s.rrs := by
  unfold completionCheck; split_ifs <;> rfl
@[simp] theorem completionCheck_mem (s : State) : (completionCheck s).mem = s.mem := by
  unfold completionCheck; split_ifs <;> rfl
@[simp] theorem completionCheck_draws (s : State) : (completionCheck s).draws = s.draws := by
  unfold completionCheck; split_ifs <;> rfl

end Sys2Proof.Machine
end

