-- ==== Sys2Proof/Laws/Execute.lean ====
section
/-! SUPPORT. What the Execute stage can do (R89 to R94), said once over the views of the slots and over the timestamps. -/

namespace Sys2Proof.Machine

theorem stamp_eq_empty {s : State} {k : Nat} (h : s.stamps.length ≤ k) : s.stamp k = Stamps.empty := by
  simp [State.stamp, List.getD_eq_getElem?_getD, List.getElem?_eq_none h]

/-- R89 on a head whose operands are ready. -/
theorem eligible_iff (s : State) (r : Bool) (h : Head) :
    s.eligible r h = true ↔ ∃ k, h.busy = true ∧ h.instr = some k ∧ (∃ a ∈ (s.stamp k).iss, a < s.clk) ∧ (s.stamp k).cmp = none ∧ r = true := by
  unfold State.eligible
  split
  · next k hb hk =>
    simp only [hb, hk, Option.some.injEq, Bool.and_eq_true, true_and, and_assoc]
    constructor
    · rintro ⟨h1, h2, h3⟩
      refine ⟨k, rfl, ?_, by simpa using h2, h3⟩
      split at h1
      · next t ht => exact ⟨t, ht, by simpa using h1⟩
      · cases h1
    · rintro ⟨_, rfl, ⟨a, ha, hlt⟩, h2, h3⟩
      rw [Option.mem_def] at ha
      simp [ha, hlt, h2, h3]
  · next hno =>
    simp only [Bool.false_eq_true, false_iff]
    rintro ⟨k, hb, hk, -⟩
    exact hno k hb hk

/-- R89 on a view: a store is always ready, any other slot when it waits for no tag. -/
def SlotView.ready (x : SlotView) : Bool := decide (x.id.pool = .store) || x.waits.isEmpty

theorem eligibleSlot_iff (s : State) (x : SlotView) :
    s.eligible x.ready x.head = true ↔ ∃ k, s.EligibleSlot x k := by
  rw [eligible_iff]
  refine exists_congr fun k => and_congr_right fun _ => and_congr_right fun _ => and_congr_right fun _ => and_congr_right fun _ => ?_
  simp only [SlotView.ready, Bool.or_eq_true, decide_eq_true_eq, List.isEmpty_iff]
  by_cases h : x.id.pool = .store <;> simp [h]

/-- A slot whose eligibility test fails is eligible with no instruction. -/
theorem not_eligibleSlot {s : State} {x : SlotView} (h : s.eligible x.ready x.head = false) (k : Nat) : ¬ s.EligibleSlot x k := by
  intro hk
  have := (eligibleSlot_iff s x).2 ⟨k, hk⟩
  rw [h] at this; cases this

theorem EligibleSlot.instr_eq {s : State} {x : SlotView} {k k' : Nat} (h : s.EligibleSlot x k) (h' : s.EligibleSlot x k') : k = k' :=
  Option.some.inj (h.2.1.symm.trans h'.2.1)

theorem stationView_ready {p : Pool} (hp : p ≠ .store) (j : Nat) (x : Station) : (stationView (⟨p, j⟩, x)).ready = x.ready := by
  simp only [SlotView.ready, Station.ready, stationView_id, hp, decide_false, Bool.false_or, stationView_waits]
  cases x.qj <;> cases x.qk <;> rfl

/-- The view of a slot after Execute (R90 to R92). -/
def State.executeView (s : State) (x : SlotView) : SlotView := { x with head := s.executeHead x.ready x.head }

@[simp] theorem executeView_id (s : State) (x : SlotView) : (s.executeView x).id = x.id := rfl
@[simp] theorem executeView_dest (s : State) (x : SlotView) : (s.executeView x).dest = x.dest := rfl
@[simp] theorem executeView_address (s : State) (x : SlotView) : (s.executeView x).address = x.address := rfl
@[simp] theorem executeView_waits (s : State) (x : SlotView) : (s.executeView x).waits = x.waits := rfl
@[simp] theorem executeView_cleared (s : State) (x : SlotView) : (s.executeView x).cleared = x.cleared := rfl

@[simp] theorem executeHead_busy (s : State) (r : Bool) (h : Head) : (s.executeHead r h).busy = h.busy := by
  unfold State.executeHead; split <;> rfl
@[simp] theorem executeHead_instr (s : State) (r : Bool) (h : Head) : (s.executeHead r h).instr = h.instr := by
  unfold State.executeHead; split <;> rfl
@[simp] theorem executeHead_op (s : State) (r : Bool) (h : Head) : (s.executeHead r h).op = h.op := by
  unfold State.executeHead; split <;> rfl

/-- R91, R92: Execute changes nothing of a head but its countdown. -/
theorem executeHead_upto_count (s : State) (r : Bool) (h : Head) : s.executeHead r h = { h with count := (s.executeHead r h).count } := by
  unfold State.executeHead; split <;> rfl

/-- R89: Execute leaves the head of a slot that is not eligible. -/
theorem executeHead_not_eligible {s : State} {x : SlotView} (hn : ∀ k, ¬ s.EligibleSlot x k) : s.executeHead x.ready x.head = x.head := by
  have : s.eligible x.ready x.head = false := by
    by_contra h
    obtain ⟨k, hk⟩ := (eligibleSlot_iff s x).1 (by simpa using h)
    exact hn k hk
  simp [State.executeHead, this]

/-- Execute touches no head that is not busy. -/
theorem executeHead_idle {s : State} {r : Bool} {h : Head} (hb : h.busy = false) : s.executeHead r h = h := by
  have : s.eligible r h = false := by unfold State.eligible; simp [hb]
  simp [State.executeHead, this]

/-- A slot stays cleared or not when Execute replaces its head. -/
theorem executeHead_cleared {α : Type} [DecidableEq α] {free : α} {head : α → Head} {put : α → Head → α} {s : State} {r : Bool} {x : α}
    (hput : put x (head x) = x) (hhead : ∀ y g, head (put y g) = g) (hfree : (head free).busy = false) :
    (put x (s.executeHead r (head x)) == free) = (x == free) := by
  by_cases hb : (head x).busy = false
  · rw [executeHead_idle hb, hput]
  · have h1 : (x == free) = false := by
      rw [beq_eq_false_iff_ne]; rintro rfl; exact hb hfree
    have h2 : (put x (s.executeHead r (head x)) == free) = false := by
      rw [beq_eq_false_iff_ne]
      intro he
      have := hhead x (s.executeHead r (head x))
      rw [he] at this
      rw [this, executeHead_busy] at hfree
      exact hb hfree
    rw [h1, h2]

/-- R89 to R93 on the views: each slot advances on its own. -/
theorem executeStage_slots (s : State) : (executeStage s).slots = s.slots.map s.executeView := by
  have st : ∀ (p : Pool) (l : List Station), p ≠ .store →
      (tagged p (l.map fun x => { x with head := s.executeHead x.ready x.head })).map stationView =
        ((tagged p l).map stationView).map s.executeView := by
    intro p l hp
    rw [tagged_map, List.map_map, List.map_map]
    refine List.map_congr_left fun c hc => ?_
    obtain ⟨j, -, hj⟩ := mem_tagged.1 hc
    have hr : (stationView c).ready = c.2.ready := by
      have := stationView_ready hp j c.2
      rwa [← hj] at this
    have hc := executeHead_cleared (free := Station.free) (head := Station.head) (put := fun y g => { y with head := g })
      (s := s) (r := c.2.ready) (x := c.2) rfl (fun _ _ => rfl) rfl
    simp only [Function.comp, State.executeView, hr]
    exact congrArg (SlotView.mk _ _ _ _ _) hc
  have ld : ∀ (l : List LoadBuffer), (tagged .load (l.map fun x => { x with head := s.executeHead true x.head })).map loadView =
      ((tagged .load l).map loadView).map s.executeView := by
    intro l
    rw [tagged_map, List.map_map, List.map_map]
    refine List.map_congr_left fun c _ => ?_
    have hr : (loadView c).ready = true := by simp [SlotView.ready]
    have hc := executeHead_cleared (free := LoadBuffer.free) (head := LoadBuffer.head) (put := fun y g => { y with head := g })
      (s := s) (r := true) (x := c.2) rfl (fun _ _ => rfl) rfl
    simp only [Function.comp, State.executeView, hr]
    exact congrArg (SlotView.mk _ _ _ _ _) hc
  have sr : ∀ (l : List StoreBuffer), (tagged .store (l.map fun x => { x with head := s.executeHead true x.head })).map storeView =
      ((tagged .store l).map storeView).map s.executeView := by
    intro l
    rw [tagged_map, List.map_map, List.map_map]
    refine List.map_congr_left fun c hc => ?_
    obtain ⟨j, -, hj⟩ := mem_tagged.1 hc
    have hr : (storeView c).ready = true := by simp [SlotView.ready, hj]
    have hc := executeHead_cleared (free := StoreBuffer.free) (head := StoreBuffer.head) (put := fun y g => { y with head := g })
      (s := s) (r := true) (x := c.2) rfl (fun _ _ => rfl) rfl
    simp only [Function.comp, State.executeView, hr]
    exact congrArg (SlotView.mk _ _ _ _ _) hc
  have h1 := st .add s.adds (by decide)
  have h2 := st .mul s.muls (by decide)
  simp only [State.slots, executeStage, List.map_append, h1, h2, ld, sr]

/-! ### The timestamps -/

/-- The heads Execute advances are those of the eligible slots (R89). -/
theorem mem_executing {s : State} {h : Head} :
    h ∈ s.executing ↔ ∃ x ∈ s.slots, s.eligible x.ready x.head = true ∧ x.head = h := by
  have st : ∀ (p : Pool) (l : List Station), p ≠ .store →
      (h ∈ (l.filter fun x => s.eligible x.ready x.head).map Station.head ↔
        ∃ x ∈ (tagged p l).map stationView, s.eligible x.ready x.head = true ∧ x.head = h) := by
    intro p l hp
    simp only [List.mem_map, List.mem_filter]
    constructor
    · rintro ⟨x, ⟨hx, he⟩, rfl⟩
      obtain ⟨j, hj, rfl⟩ := List.mem_iff_getElem.1 hx
      exact ⟨_, ⟨(⟨p, j⟩, l[j]), mem_tagged.2 ⟨j, by simp [hj], rfl⟩, rfl⟩, by rw [stationView_ready hp]; exact he, rfl⟩
    · rintro ⟨_, ⟨c, hc, rfl⟩, he, rfl⟩
      obtain ⟨j, hj, hcj⟩ := mem_tagged.1 hc
      have hr := stationView_ready hp j c.2
      rw [← hcj] at hr
      rw [hr] at he
      exact ⟨c.2, ⟨List.mem_of_getElem? hj, he⟩, rfl⟩
  have ld : h ∈ (s.loads.filter fun x => s.eligible true x.head).map LoadBuffer.head ↔
      ∃ x ∈ (tagged .load s.loads).map loadView, s.eligible x.ready x.head = true ∧ x.head = h := by
    simp only [List.mem_map, List.mem_filter]
    constructor
    · rintro ⟨x, ⟨hx, he⟩, rfl⟩
      obtain ⟨j, hj, rfl⟩ := List.mem_iff_getElem.1 hx
      exact ⟨_, ⟨(⟨.load, j⟩, s.loads[j]), mem_tagged.2 ⟨j, by simp [hj], rfl⟩, rfl⟩, by simpa [SlotView.ready] using he, rfl⟩
    · rintro ⟨_, ⟨c, hc, rfl⟩, he, rfl⟩
      obtain ⟨j, hj, hcj⟩ := mem_tagged.1 hc
      exact ⟨c.2, ⟨List.mem_of_getElem? hj, by simpa [SlotView.ready] using he⟩, rfl⟩
  have sr : h ∈ (s.stores.filter fun x => s.eligible true x.head).map StoreBuffer.head ↔
      ∃ x ∈ (tagged .store s.stores).map storeView, s.eligible x.ready x.head = true ∧ x.head = h := by
    simp only [List.mem_map, List.mem_filter]
    constructor
    · rintro ⟨x, ⟨hx, he⟩, rfl⟩
      obtain ⟨j, hj, rfl⟩ := List.mem_iff_getElem.1 hx
      exact ⟨_, ⟨(⟨.store, j⟩, s.stores[j]), mem_tagged.2 ⟨j, by simp [hj], rfl⟩, rfl⟩, by simpa [SlotView.ready] using he, rfl⟩
    · rintro ⟨_, ⟨c, hc, rfl⟩, he, rfl⟩
      obtain ⟨j, hj, hcj⟩ := mem_tagged.1 hc
      exact ⟨c.2, ⟨List.mem_of_getElem? hj, by simpa [SlotView.ready, hcj] using he⟩, rfl⟩
  simp only [State.executing, State.slots, List.mem_append, st .add s.adds (by decide), st .mul s.muls (by decide), ld, sr, or_and_right, exists_or]

theorem executeStage_stamps_length (s : State) : (executeStage s).stamps.length = s.stamps.length := by simp [executeStage]

theorem executeStage_stamp (s : State) {k : Nat} (hk : k < s.stamps.length) :
    (executeStage s).stamp k = match s.executing.find? fun h => h.instr == some k with
      | some h => executeStamp s.clk h.count (s.stamp k)
      | none => s.stamp k := by
  simp only [State.stamp, executeStage, List.getD_eq_getElem?_getD, List.getElem?_map, List.getElem?_zipIdx, List.getElem?_eq_getElem hk,
    Option.map_some, Option.getD_some, Nat.zero_add] <;> rfl

/-- R90, R91: the timestamps of the instruction in an eligible slot. -/
theorem executeStage_stamp_eligible {s : State} (hu : s.UniqueOwners) {x : SlotView} {k : Nat} (hx : x ∈ s.slots) (hk : k < s.stamps.length)
    (he : s.EligibleSlot x k) : (executeStage s).stamp k = executeStamp s.clk x.head.count (s.stamp k) := by
  rw [executeStage_stamp s hk]
  cases hf : s.executing.find? fun h => h.instr == some k with
  | none =>
    have := List.find?_eq_none.1 hf x.head (mem_executing.2 ⟨x, hx, (eligibleSlot_iff s x).2 ⟨k, he⟩, rfl⟩)
    simp [he.2.1] at this
  | some h =>
    obtain ⟨y, hy, hye, rfl⟩ := mem_executing.1 (List.mem_of_find?_eq_some hf)
    have hi : y.head.instr = some k := by simpa using List.find?_some hf
    obtain ⟨k', hk'⟩ := (eligibleSlot_iff s y).1 hye
    have := slots_id_inj hy hx (hu y hy x hx hk'.1 he.1 (hi.trans he.2.1.symm))
    rw [this]

/-- R89: an instruction in no eligible slot keeps its timestamps. -/
theorem executeStage_stamp_other {s : State} {k : Nat} (h : ∀ x ∈ s.slots, ¬ s.EligibleSlot x k) :
    (executeStage s).stamp k = s.stamp k := by
  by_cases hk : k < s.stamps.length
  · rw [executeStage_stamp s hk]
    cases hf : s.executing.find? fun h => h.instr == some k with
    | none => rfl
    | some g =>
      obtain ⟨y, hy, hye, rfl⟩ := mem_executing.1 (List.mem_of_find?_eq_some hf)
      have hi : y.head.instr = some k := by simpa using List.find?_some hf
      obtain ⟨k', hk'⟩ := (eligibleSlot_iff s y).1 hye
      have : k' = k := Option.some.inj (hk'.2.1.symm.trans hi)
      exact absurd (this ▸ hk') (h y hy)
  · rw [stamp_eq_empty (s := s) (by omega), stamp_eq_empty (s := executeStage s) (by rw [executeStage_stamps_length]; omega)]

/-- Execute keeps an instruction's issue and write-back timestamps. -/
theorem executeStage_stamp_iss (s : State) (k : Nat) :
    ((executeStage s).stamp k).iss = (s.stamp k).iss ∧ ((executeStage s).stamp k).wbk = (s.stamp k).wbk := by
  by_cases hk : k < s.stamps.length
  · rw [executeStage_stamp s hk]
    split
    · unfold executeStamp; split
      · exact ⟨rfl, rfl⟩
      · split <;> exact ⟨rfl, rfl⟩
    · exact ⟨rfl, rfl⟩
  · rw [stamp_eq_empty (s := s) (by omega), stamp_eq_empty (s := executeStage s) (by rw [executeStage_stamps_length]; omega)]; exact ⟨rfl, rfl⟩

end Sys2Proof.Machine
end

