-- ==== Sys2Proof/Laws/Issue.lean ====
section
/-! SUPPORT. What the Issue stage can do (R82 to R86): `exec_cases` says it once for all six instructions, over the views of the slots. -/

namespace Sys2Proof.Machine

/-- R83: the slot chosen is the free one with the lowest index. -/
theorem firstFree_some {α : Type} {head : α → Head} {l : List α} {j : Nat} (h : firstFree head l = some j) :
    ∃ y, l[j]? = some y ∧ (head y).busy = false ∧ ∀ i < j, ∀ z, l[i]? = some z → (head z).busy = true := by
  unfold firstFree at h
  obtain ⟨hj, hp, hlow⟩ := List.findIdx?_eq_some_iff_getElem.1 h
  refine ⟨l[j], by simp [hj], by simpa using hp, fun i hi z hz => ?_⟩
  have := hlow i hi
  obtain ⟨hil, rfl⟩ := List.getElem?_eq_some_iff.1 hz
  simpa using this

/-- R82: no slot is chosen exactly when every slot is busy. -/
theorem firstFree_none {α : Type} {head : α → Head} {l : List α} :
    firstFree head l = none ↔ ∀ y ∈ l, (head y).busy = true := by
  simp [firstFree, List.findIdx?_eq_none_iff]

/-- R83: filling the chosen slot changes that free slot alone. -/
theorem onlyFreeSlotChanged_set {α : Type} {head : α → Head} {l : List α} {j : Nat} (h : firstFree head l = some j) (y : α) :
    OnlyFreeSlotChanged head l (l.set j y) := by
  obtain ⟨z, hz, hb, -⟩ := firstFree_some h
  refine ⟨j, fun w hw => ?_, fun i hi => List.getElem?_set_ne (Ne.symm hi)⟩
  rw [hz] at hw; cases hw; exact hb

/-- A pool that is not filled. -/
theorem onlyFreeSlotChanged_refl {α : Type} (head : α → Head) (l : List α) : OnlyFreeSlotChanged head l l :=
  ⟨l.length, fun _ h => by simp at h, fun _ _ => rfl⟩

/-- R83, R85: the slot as Issue fills it for instruction `i`. -/
def issuedView (s : State) (i : Instr) (q : SlotId) : SlotView :=
  ⟨q, s.issuedHead i.op, i.dest, i.addressing, i.sources.flatMap fun f => (s.readRRS f).toList, false⟩

@[simp] theorem readOperand_tag (s : State) (f : FReg) : (readOperand s f).2 = s.readRRS f := by
  unfold readOperand; split <;> simp_all

theorem readOperand_value (s : State) (f : FReg) :
    (readOperand s f).1 = if s.readRRS f = none then s.readF f else 0 := by
  unfold readOperand; split <;> simp_all

theorem captureStation_view (s : State) (op : Op) (fa fb fc : FReg) (q : SlotId) :
    stationView (q, captureStation s op fa fb fc) =
      ⟨q, s.issuedHead op, some fa, none, (s.readRRS fb).toList ++ (s.readRRS fc).toList, false⟩ := by
  have : (captureStation s op fa fb fc == Station.free) = false := by
    rw [beq_eq_false_iff_ne]
    intro h
    exact Bool.noConfusion (congrArg (fun x : Station => x.head.busy) h)
  unfold stationView
  rw [this]
  simp [captureStation]

theorem captureLoad_view (s : State) (fa : FReg) (base : IReg) (off : Offset) (q : SlotId) :
    loadView (q, captureLoad s fa base off) = ⟨q, s.issuedHead .ld, some fa, some (base, off), [], false⟩ := by
  have : (captureLoad s fa base off == LoadBuffer.free) = false := by
    rw [beq_eq_false_iff_ne]
    intro h
    exact Bool.noConfusion (congrArg (fun x : LoadBuffer => x.head.busy) h)
  unfold loadView
  rw [this]
  rfl

theorem captureStore_view (s : State) (fa : FReg) (base : IReg) (off : Offset) (q : SlotId) :
    storeView (q, captureStore s fa base off) =
      ⟨q, s.issuedHead .sd, none, some (base, off), (s.readRRS fa).toList, false⟩ := by
  have : (captureStore s fa base off == StoreBuffer.free) = false := by
    rw [beq_eq_false_iff_ne]
    intro h
    exact Bool.noConfusion (congrArg (fun x : StoreBuffer => x.head.busy) h)
  unfold storeView
  rw [this]
  simp [captureStore]

/-! ### One slot replaced -/

theorem stationView_set (p : Pool) (l : List Station) (j : Nat) (y : Station) :
    (tagged p (l.set j y)).map stationView =
      ((tagged p l).map stationView).map fun x => if x.id = ⟨p, j⟩ then stationView (⟨p, j⟩, y) else x := by
  rw [tagged_set, List.map_map, List.map_map]
  refine List.map_congr_left fun c _ => ?_
  simp only [Function.comp]
  by_cases h : c.1 = ⟨p, j⟩
  · rw [if_pos h, if_pos (show (stationView c).id = _ from h), h]
  · rw [if_neg h, if_neg (show ¬ (stationView c).id = _ from h)]

theorem loadView_set (p : Pool) (l : List LoadBuffer) (j : Nat) (y : LoadBuffer) :
    (tagged p (l.set j y)).map loadView =
      ((tagged p l).map loadView).map fun x => if x.id = ⟨p, j⟩ then loadView (⟨p, j⟩, y) else x := by
  rw [tagged_set, List.map_map, List.map_map]
  refine List.map_congr_left fun c _ => ?_
  simp only [Function.comp]
  by_cases h : c.1 = ⟨p, j⟩
  · rw [if_pos h, if_pos (show (loadView c).id = _ from h), h]
  · rw [if_neg h, if_neg (show ¬ (loadView c).id = _ from h)]

theorem storeView_set (p : Pool) (l : List StoreBuffer) (j : Nat) (y : StoreBuffer) :
    (tagged p (l.set j y)).map storeView =
      ((tagged p l).map storeView).map fun x => if x.id = ⟨p, j⟩ then storeView (⟨p, j⟩, y) else x := by
  rw [tagged_set, List.map_map, List.map_map]
  refine List.map_congr_left fun c _ => ?_
  simp only [Function.comp]
  by_cases h : c.1 = ⟨p, j⟩
  · rw [if_pos h, if_pos (show (storeView c).id = _ from h), h]
  · rw [if_neg h, if_neg (show ¬ (storeView c).id = _ from h)]

/-- A list of slots of another pool is not touched by a replacement. -/
theorem other_pool_map {α : Type} {p : Pool} {q : SlotId} (hp : p ≠ q.pool) (f : SlotId × α → SlotView) (hf : ∀ c, (f c).id = c.1)
    (l : List α) (v : SlotView) : ((tagged p l).map f).map (fun x => if x.id = q then v else x) = (tagged p l).map f := by
  rw [List.map_map]
  refine List.map_congr_left fun c hc => ?_
  obtain ⟨j, -, hj⟩ := mem_tagged.1 hc
  have : ¬ (f c).id = q := by
    rw [hf, hj]; rintro rfl; exact hp rfl
  simp [this]

/-- The effect of an issue into slot `q` on the whole state (R83, R85, R86). -/
structure IssuedInto (s : State) (i : Instr) (q : SlotId) (t : State) : Prop where
  shape : t = { s with
    adds := t.adds, muls := t.muls, loads := t.loads, stores := t.stores
    rrs := match i.dest with
      | some fa => s.rrs.set fa.toNat (some q)
      | none => s.rrs
    stamps := s.stamps.set s.next { s.stamp s.next with iss := some s.clk }
    next := s.next + 1 }
  slots : t.slots = s.slots.map fun y => if y.id = q then issuedView s i q else y
  adds : t.adds.length = s.adds.length
  muls : t.muls.length = s.muls.length
  loads : t.loads.length = s.loads.length
  stores : t.stores.length = s.stores.length

theorem issue_load (s : State) (fa : FReg) (base : IReg) (off : Offset) (j : Nat) :
    IssuedInto s (.ld fa base off) ⟨.load, j⟩
      (noteIssue (claimDestination ⟨.load, j⟩ fa { s with loads := s.loads.set j (captureLoad s fa base off) })) := by
  refine ⟨rfl, ?_, rfl, rfl, by simp [noteIssue, claimDestination, State.writeRRS], rfl⟩
  have hv : issuedView s (.ld fa base off) ⟨.load, j⟩ = loadView (⟨.load, j⟩, captureLoad s fa base off) := by
    rw [captureLoad_view]; rfl
  simp only [State.slots, noteIssue, claimDestination, State.writeRRS, List.map_append]
  rw [loadView_set, hv, other_pool_map (p := .add) (q := ⟨.load, j⟩) (by simp) _ stationView_id,
    other_pool_map (p := .mul) (q := ⟨.load, j⟩) (by simp) _ stationView_id,
    other_pool_map (p := .store) (q := ⟨.load, j⟩) (by simp) _ storeView_id]

theorem issue_store (s : State) (fa : FReg) (base : IReg) (off : Offset) (j : Nat) :
    IssuedInto s (.sd fa base off) ⟨.store, j⟩ (noteIssue { s with stores := s.stores.set j (captureStore s fa base off) }) := by
  refine ⟨rfl, ?_, rfl, rfl, rfl, by simp [noteIssue]⟩
  have hv : issuedView s (.sd fa base off) ⟨.store, j⟩ = storeView (⟨.store, j⟩, captureStore s fa base off) := by
    rw [captureStore_view]; simp [issuedView, Instr.op, Instr.dest, Instr.sources, Instr.addressing]
  simp only [State.slots, noteIssue, List.map_append]
  rw [storeView_set, hv, other_pool_map (p := .add) (q := ⟨.store, j⟩) (by simp) _ stationView_id,
    other_pool_map (p := .mul) (q := ⟨.store, j⟩) (by simp) _ stationView_id,
    other_pool_map (p := .load) (q := ⟨.store, j⟩) (by simp) _ loadView_id]

/-- R82 to R86: Issue answers a next state always; either the pool is full and nothing happens, or a free slot of the pool is filled. -/
theorem exec_cases (i : Instr) (s : State) :
    (s.poolFull (poolOf i.op) ∧ exec i s = .next s) ∨
    (¬ s.poolFull (poolOf i.op) ∧ ∃ x ∈ s.slots, x.head.busy = false ∧ x.id.pool = poolOf i.op ∧
      ∃ t, exec i s = .next t ∧ IssuedInto s i x.id t) := by
  have station : ∀ (op : Op) (fa fb fc : FReg) (i : Instr), i.op = op → i.dest = some fa → i.sources = [fb, fc] → i.addressing = none →
      (∀ j y, s.adds[j]? = some y → y.head.busy = false →
        IssuedInto s i ⟨.add, j⟩ (noteIssue (claimDestination ⟨.add, j⟩ fa { s with adds := s.adds.set j (captureStation s op fa fb fc) }))) ∧
      (∀ j y, s.muls[j]? = some y → y.head.busy = false →
        IssuedInto s i ⟨.mul, j⟩ (noteIssue (claimDestination ⟨.mul, j⟩ fa { s with muls := s.muls.set j (captureStation s op fa fb fc) }))) := by
    intro op fa fb fc i hop hd hs ha
    refine ⟨fun j y _ _ => ⟨?_, ?_, ?_, rfl, rfl, rfl⟩, fun j y _ _ => ⟨?_, ?_, rfl, ?_, rfl, rfl⟩⟩
    · rw [hd]; rfl
    · have hv : issuedView s i ⟨.add, j⟩ = stationView (⟨.add, j⟩, captureStation s op fa fb fc) := by
        rw [captureStation_view]; simp [issuedView, hop, hd, hs, ha]
      simp only [State.slots, noteIssue, claimDestination, State.writeRRS, List.map_append]
      rw [stationView_set, hv, other_pool_map (p := .mul) (q := ⟨.add, j⟩) (by simp) _ stationView_id,
        other_pool_map (p := .load) (q := ⟨.add, j⟩) (by simp) _ loadView_id,
        other_pool_map (p := .store) (q := ⟨.add, j⟩) (by simp) _ storeView_id]
    · simp [noteIssue, claimDestination, State.writeRRS]
    · rw [hd]; rfl
    · have hv : issuedView s i ⟨.mul, j⟩ = stationView (⟨.mul, j⟩, captureStation s op fa fb fc) := by
        rw [captureStation_view]; simp [issuedView, hop, hd, hs, ha]
      simp only [State.slots, noteIssue, claimDestination, State.writeRRS, List.map_append]
      rw [stationView_set, hv, other_pool_map (p := .add) (q := ⟨.mul, j⟩) (by simp) _ stationView_id,
        other_pool_map (p := .load) (q := ⟨.mul, j⟩) (by simp) _ loadView_id,
        other_pool_map (p := .store) (q := ⟨.mul, j⟩) (by simp) _ storeView_id]
    · simp [noteIssue, claimDestination, State.writeRRS]
  have add : ∀ (op : Op) (fa fb fc : FReg) (i : Instr), i.op = op → poolOf op = .add → i.dest = some fa → i.sources = [fb, fc] →
      i.addressing = none → exec i s = .next (issueToAdd op fa fb fc s) →
      (s.poolFull (poolOf i.op) ∧ exec i s = .next s) ∨
      (¬ s.poolFull (poolOf i.op) ∧ ∃ x ∈ s.slots, x.head.busy = false ∧ x.id.pool = poolOf i.op ∧
        ∃ t, exec i s = .next t ∧ IssuedInto s i x.id t) := by
    intro op fa fb fc i hop hp hd hs ha he
    rw [he]
    unfold issueToAdd
    cases hf : firstFree Station.head s.adds with
    | none =>
      refine .inl ⟨?_, rfl⟩
      rw [hop, hp]
      intro h hh
      obtain ⟨y, hy, rfl⟩ := List.mem_map.1 hh
      exact firstFree_none.1 hf y hy
    | some j =>
      obtain ⟨y, hy, hb, -⟩ := firstFree_some hf
      refine .inr ⟨?_, stationView (⟨.add, j⟩, y), mem_slots.2 (.inl ⟨j, y, hy, rfl⟩), hb, by rw [hop, hp]; rfl, _, rfl,
        (station op fa fb fc i hop hd hs ha).1 j y hy hb⟩
      rw [hop, hp]
      intro hfull
      have := hfull y.head (List.mem_map_of_mem (List.mem_of_getElem? hy))
      rw [hb] at this; cases this
  have mul : ∀ (op : Op) (fa fb fc : FReg) (i : Instr), i.op = op → poolOf op = .mul → i.dest = some fa → i.sources = [fb, fc] →
      i.addressing = none → exec i s = .next (issueToMul op fa fb fc s) →
      (s.poolFull (poolOf i.op) ∧ exec i s = .next s) ∨
      (¬ s.poolFull (poolOf i.op) ∧ ∃ x ∈ s.slots, x.head.busy = false ∧ x.id.pool = poolOf i.op ∧
        ∃ t, exec i s = .next t ∧ IssuedInto s i x.id t) := by
    intro op fa fb fc i hop hp hd hs ha he
    rw [he]
    unfold issueToMul
    cases hf : firstFree Station.head s.muls with
    | none =>
      refine .inl ⟨?_, rfl⟩
      rw [hop, hp]
      intro h hh
      obtain ⟨y, hy, rfl⟩ := List.mem_map.1 hh
      exact firstFree_none.1 hf y hy
    | some j =>
      obtain ⟨y, hy, hb, -⟩ := firstFree_some hf
      refine .inr ⟨?_, stationView (⟨.mul, j⟩, y), mem_slots.2 (.inr (.inl ⟨j, y, hy, rfl⟩)), hb, by rw [hop, hp]; rfl, _, rfl,
        (station op fa fb fc i hop hd hs ha).2 j y hy hb⟩
      rw [hop, hp]
      intro hfull
      have := hfull y.head (List.mem_map_of_mem (List.mem_of_getElem? hy))
      rw [hb] at this; cases this
  cases i with
  | addD fa fb fc => exact add .addD fa fb fc _ rfl rfl rfl rfl rfl rfl
  | subD fa fb fc => exact add .subD fa fb fc _ rfl rfl rfl rfl rfl rfl
  | mulD fa fb fc => exact mul .mulD fa fb fc _ rfl rfl rfl rfl rfl rfl
  | divD fa fb fc => exact mul .divD fa fb fc _ rfl rfl rfl rfl rfl rfl
  | ld fa base off =>
    simp only [exec, execLD]
    cases hf : firstFree LoadBuffer.head s.loads with
    | none =>
      refine .inl ⟨fun h hh => ?_, rfl⟩
      obtain ⟨y, hy, rfl⟩ := List.mem_map.1 hh
      exact firstFree_none.1 hf y hy
    | some j =>
      obtain ⟨y, hy, hb, -⟩ := firstFree_some hf
      refine .inr ⟨fun hfull => ?_, loadView (⟨.load, j⟩, y), mem_slots.2 (.inr (.inr (.inl ⟨j, y, hy, rfl⟩))), hb, rfl, _, rfl,
        issue_load s fa base off j⟩
      have := hfull y.head (List.mem_map_of_mem (List.mem_of_getElem? hy))
      rw [hb] at this; cases this
  | sd fa base off =>
    simp only [exec, execSD]
    cases hf : firstFree StoreBuffer.head s.stores with
    | none =>
      refine .inl ⟨fun h hh => ?_, rfl⟩
      obtain ⟨y, hy, rfl⟩ := List.mem_map.1 hh
      exact firstFree_none.1 hf y hy
    | some j =>
      obtain ⟨y, hy, hb, -⟩ := firstFree_some hf
      refine .inr ⟨fun hfull => ?_, storeView (⟨.store, j⟩, y), mem_slots.2 (.inr (.inr (.inr ⟨j, y, hy, rfl⟩))), hb, rfl, _, rfl,
        issue_store s fa base off j⟩
      have := hfull y.head (List.mem_map_of_mem (List.mem_of_getElem? hy))
      rw [hb] at this; cases this

/-- Issue never stops the machine. -/
theorem exec_next (i : Instr) (s : State) : ∃ t, exec i s = .next t := by
  rcases exec_cases i s with ⟨-, h⟩ | ⟨-, x, -, -, -, t, h, -⟩
  · exact ⟨s, h⟩
  · exact ⟨t, h⟩

end Sys2Proof.Machine
end

