-- ==== Sys2Proof/Laws/Memory.lean ====
section
/-! SUPPORT. The laws of memory: reads after writes, byte by byte and cell by cell, and that every write keeps the canonical form and stays inside the cells. -/

namespace Sys2Proof.Machine

/-- Below the first address of a sorted listing every byte is the default one. -/
theorem readByte_below {m : Memory} {a : Nat} (h : ∀ c ∈ m, a < c.1) : m.readByte a = Memory.initByte a := by
  induction m with
  | nil => rfl
  | cons c rest ih =>
    have hc : a < c.1 := h c (List.mem_cons_self ..)
    simp only [Memory.readByte, if_neg (show c.1 ≠ a by omega)]
    exact ih fun d hd => h d (List.mem_cons_of_mem _ hd)

theorem wf_tail {c : Host.Cell} {m : Memory} (h : Memory.wf (c :: m)) : m.wf ∧ ∀ d ∈ m, c.1 < d.1 :=
  ⟨⟨(List.pairwise_cons.1 h.1).2, fun d hd => h.2 d (List.mem_cons_of_mem _ hd)⟩, (List.pairwise_cons.1 h.1).1⟩

/-- A byte written reads back. -/
theorem readByte_writeByte_same {m : Memory} (h : m.wf) (a : Nat) (v : Byte) : (m.writeByte a v).readByte a = v := by
  induction m with
  | nil =>
    simp only [Memory.writeByte]
    split
    · next hv => simp [Memory.readByte, hv]
    · simp [Memory.readByte]
  | cons c rest ih =>
    obtain ⟨x, b⟩ := c
    have ⟨hr, hlt⟩ := wf_tail h
    simp only [Memory.writeByte]
    split
    · next ha =>
      split
      · next hv =>
        rw [hv]
        refine readByte_below fun d hd => ?_
        rcases List.mem_cons.1 hd with rfl | hd
        · exact ha
        · exact lt_trans ha (hlt d hd)
      · simp [Memory.readByte]
    · next ha =>
      split
      · next hx =>
        subst hx
        split
        · next hv => rw [hv]; exact readByte_below hlt
        · simp [Memory.readByte]
      · next hx =>
        simp only [Memory.readByte, if_neg (Ne.symm hx)]
        exact ih hr

/-- A byte written leaves every other byte alone. -/
theorem readByte_writeByte_other (m : Memory) {a a' : Nat} (v : Byte) (h : a' ≠ a) :
    (m.writeByte a v).readByte a' = m.readByte a' := by
  induction m with
  | nil =>
    simp only [Memory.writeByte]
    split
    · rfl
    · simp [Memory.readByte, h.symm]
  | cons c rest ih =>
    obtain ⟨x, b⟩ := c
    simp only [Memory.writeByte]
    split
    · split
      · rfl
      · simp [Memory.readByte, h.symm]
    · split
      · next hx =>
        subst hx
        split <;> simp [Memory.readByte, h.symm]
      · simp only [Memory.readByte]
        split
        · rfl
        · exact ih

/-- The entries after a write are old ones or the written one. -/
theorem mem_writeByte {m : Memory} {a : Nat} {v : Byte} {c : Host.Cell} (h : c ∈ m.writeByte a v) :
    c ∈ m ∨ (c = (a, v) ∧ v ≠ Memory.initByte a) := by
  induction m with
  | nil =>
    simp only [Memory.writeByte] at h
    split at h
    · cases h
    · next hv => exact .inr ⟨by simpa using h, hv⟩
  | cons d rest ih =>
    obtain ⟨x, b⟩ := d
    simp only [Memory.writeByte] at h
    split at h
    · split at h
      · exact .inl h
      · next hv =>
        rcases List.mem_cons.1 h with rfl | h
        · exact .inr ⟨rfl, hv⟩
        · exact .inl h
    · split at h
      · split at h
        · exact .inl (List.mem_cons_of_mem _ h)
        · next hv =>
          rcases List.mem_cons.1 h with rfl | h
          · exact .inr ⟨rfl, hv⟩
          · exact .inl (List.mem_cons_of_mem _ h)
      · rcases List.mem_cons.1 h with rfl | h
        · exact .inl (List.mem_cons_self ..)
        · rcases ih h with h | h
          · exact .inl (List.mem_cons_of_mem _ h)
          · exact .inr h

/-- A write keeps the canonical form. -/
theorem writeByte_wf {m : Memory} (h : m.wf) (a : Nat) (v : Byte) : (m.writeByte a v).wf := by
  refine ⟨?_, fun c hc => ?_⟩
  · induction m with
    | nil =>
      simp only [Memory.writeByte]
      split <;> simp
    | cons c rest ih =>
      obtain ⟨x, b⟩ := c
      have ⟨hr, hlt⟩ := wf_tail h
      simp only [Memory.writeByte]
      split
      · next ha =>
        split
        · exact h.1
        · refine List.pairwise_cons.2 ⟨fun d hd => ?_, h.1⟩
          rcases List.mem_cons.1 hd with rfl | hd
          · exact ha
          · exact lt_trans ha (hlt d hd)
      · next ha =>
        split
        · next hx =>
          subst hx
          split
          · exact hr.1
          · exact List.pairwise_cons.2 ⟨hlt, hr.1⟩
        · next hx =>
          refine List.pairwise_cons.2 ⟨fun d hd => ?_, ih hr⟩
          rcases mem_writeByte hd with hd | ⟨rfl, -⟩
          · exact hlt d hd
          · show x < a; omega
  · rcases mem_writeByte hc with hc | ⟨rfl, hv⟩
    · exact h.2 c hc
    · exact hv

/-- The listed addresses of a memory lie below `n`. -/
abbrev Memory.Inside (m : Memory) (n : Nat) : Prop := ∀ c ∈ m, c.1 < n

theorem writeByte_inside {m : Memory} {n a : Nat} (h : m.Inside n) (ha : a < n) (v : Byte) : (m.writeByte a v).Inside n := by
  intro c hc
  rcases mem_writeByte hc with hc | ⟨rfl, -⟩
  · exact h c hc
  · exact ha

/-! ### Cells -/

/-- The bytes of a cell are written one after the other; what holds of each step holds of the cell's write. -/
theorem writeCell_eq (m : Memory) (j : Nat) (v : Word) :
    m.writeCell j v =
      (((((((m.writeByte (8 * j + 0) (v.extractLsb' 0 8)).writeByte (8 * j + 1) (v.extractLsb' 8 8)).writeByte (8 * j + 2)
        (v.extractLsb' 16 8)).writeByte (8 * j + 3) (v.extractLsb' 24 8)).writeByte (8 * j + 4) (v.extractLsb' 32 8)).writeByte
        (8 * j + 5) (v.extractLsb' 40 8)).writeByte (8 * j + 6) (v.extractLsb' 48 8)).writeByte (8 * j + 7) (v.extractLsb' 56 8) := by
  simp [Memory.writeCell, List.range, List.range.loop]

theorem writeCell_wf {m : Memory} (h : m.wf) (j : Nat) (v : Word) : (m.writeCell j v).wf := by
  rw [writeCell_eq]
  iterate 8 apply writeByte_wf
  exact h

theorem writeCell_inside {m : Memory} {n j : Nat} (h : m.Inside (8 * n)) (hj : j < n) (v : Word) :
    (m.writeCell j v).Inside (8 * n) := by
  rw [writeCell_eq]
  iterate 8 refine writeByte_inside ?_ (by omega) _
  exact h

/-- A byte outside the written cell reads as before. -/
theorem readByte_writeCell_outside (m : Memory) {a j : Nat} (v : Word) (h : a < 8 * j ∨ 8 * j + 8 ≤ a) :
    (m.writeCell j v).readByte a = m.readByte a := by
  rw [writeCell_eq]
  iterate 8 rw [readByte_writeByte_other _ _ (by omega)]

/-- Byte `b` of the written cell is byte `b` of the value. -/
theorem readByte_writeCell_inside {m : Memory} (h : m.wf) (j : Nat) (v : Word) {b : Nat} (hb : b < 8) :
    (m.writeCell j v).readByte (8 * j + b) = v.extractLsb' (8 * b) 8 := by
  rw [writeCell_eq]
  have w0 := writeByte_wf h (8 * j + 0) (v.extractLsb' 0 8)
  have w1 := writeByte_wf w0 (8 * j + 1) (v.extractLsb' 8 8)
  have w2 := writeByte_wf w1 (8 * j + 2) (v.extractLsb' 16 8)
  have w3 := writeByte_wf w2 (8 * j + 3) (v.extractLsb' 24 8)
  have w4 := writeByte_wf w3 (8 * j + 4) (v.extractLsb' 32 8)
  have w5 := writeByte_wf w4 (8 * j + 5) (v.extractLsb' 40 8)
  have w6 := writeByte_wf w5 (8 * j + 6) (v.extractLsb' 48 8)
  rcases (by omega : b = 0 ∨ b = 1 ∨ b = 2 ∨ b = 3 ∨ b = 4 ∨ b = 5 ∨ b = 6 ∨ b = 7) with
    rfl | rfl | rfl | rfl | rfl | rfl | rfl | rfl
  · iterate 7 rw [readByte_writeByte_other _ _ (by omega)]
    exact readByte_writeByte_same h _ _
  · iterate 6 rw [readByte_writeByte_other _ _ (by omega)]
    exact readByte_writeByte_same w0 _ _
  · iterate 5 rw [readByte_writeByte_other _ _ (by omega)]
    exact readByte_writeByte_same w1 _ _
  · iterate 4 rw [readByte_writeByte_other _ _ (by omega)]
    exact readByte_writeByte_same w2 _ _
  · iterate 3 rw [readByte_writeByte_other _ _ (by omega)]
    exact readByte_writeByte_same w3 _ _
  · iterate 2 rw [readByte_writeByte_other _ _ (by omega)]
    exact readByte_writeByte_same w4 _ _
  · rw [readByte_writeByte_other _ _ (by omega)]
    exact readByte_writeByte_same w5 _ _
  · exact readByte_writeByte_same w6 _ _

/-- A word is the concatenation of its bytes. -/
theorem word_of_bytes (v : Word) :
    (v.extractLsb' 56 8 ++ v.extractLsb' 48 8 ++ v.extractLsb' 40 8 ++ v.extractLsb' 32 8 ++ v.extractLsb' 24 8 ++
      v.extractLsb' 16 8 ++ v.extractLsb' 8 8 ++ v.extractLsb' 0 8 : BitVec (8 + 8 + 8 + 8 + 8 + 8 + 8 + 8)) = v := by
  apply BitVec.eq_of_getLsbD_eq
  intro i hi
  simp only [BitVec.getLsbD_append, BitVec.getLsbD_extractLsb']
  split_ifs <;> (rw [decide_eq_true (by omega), Bool.true_and]; congr 1; omega)

/-- A cell written reads back (R44: the bits go unchanged). -/
theorem readCell_writeCell_same {m : Memory} (h : m.wf) (j : Nat) (v : Word) : (m.writeCell j v).readCell j = v := by
  have hb := fun b (hb : b < 8) => readByte_writeCell_inside h j v hb
  have h0 := hb 0 (by omega)
  rw [Nat.add_zero] at h0
  simp only [Memory.readCell, hb 7 (by omega), hb 6 (by omega), hb 5 (by omega), hb 4 (by omega), hb 3 (by omega),
    hb 2 (by omega), hb 1 (by omega), h0]
  exact word_of_bytes v

/-- A cell is its eight bytes. -/
theorem readCell_congr {m m' : Memory} {j : Nat} (h : ∀ b < 8, m'.readByte (8 * j + b) = m.readByte (8 * j + b)) :
    m'.readCell j = m.readCell j := by
  have h0 := h 0 (by omega)
  rw [Nat.add_zero] at h0
  simp only [Memory.readCell, h 7 (by omega), h 6 (by omega), h 5 (by omega), h 4 (by omega), h 3 (by omega), h 2 (by omega),
    h 1 (by omega), h0]

/-- A cell written leaves every other cell alone. -/
theorem readCell_writeCell_other (m : Memory) {j j' : Nat} (v : Word) (h : j' ≠ j) :
    (m.writeCell j v).readCell j' = m.readCell j' :=
  readCell_congr fun b hb => readByte_writeCell_outside m v (by omega)

/-- A cell of a memory that lists nothing holds the default (R38, R150). -/
theorem readCell_nil (j : Nat) : Memory.readCell [] j = Config.one := by
  have hb : ∀ b < 8, Memory.readByte [] (8 * j + b) = Config.one.extractLsb' (8 * b) 8 := by
    intro b hb
    simp [Memory.readByte, Memory.initByte, Nat.mod_eq_of_lt hb]
  have h0 := hb 0 (by omega)
  rw [Nat.add_zero] at h0
  simp only [Memory.readCell, hb 7 (by omega), hb 6 (by omega), hb 5 (by omega), hb 4 (by omega), hb 3 (by omega),
    hb 2 (by omega), hb 1 (by omega), h0]
  exact word_of_bytes Config.one

/-! ### The primitives of R41 -/

/-- R40, R41: an address in range selects a cell of the memory. -/
theorem cellOf_some {p : Config.Params} {addr : Int} {j : Nat} (h : cellOf p addr = some j) :
    0 ≤ addr ∧ addr < ((p.nMem * p.cellBytes : Nat) : Int) ∧ j = addr.toNat / p.cellBytes ∧ j < p.nMem := by
  unfold cellOf at h
  split at h
  · next hr =>
    cases h
    refine ⟨hr.1, hr.2, rfl, ?_⟩
    have : addr.toNat < p.nMem * p.cellBytes := by omega
    exact Nat.div_lt_of_lt_mul (by rwa [Nat.mul_comm])
  · cases h

theorem memWrite_wf {p : Config.Params} {m m' : Memory} {addr : Int} {v : Word} (h : m.wf) (hw : memWrite p m addr v = some m') :
    m'.wf := by
  simp only [memWrite, Option.map_eq_some_iff] at hw
  obtain ⟨j, -, rfl⟩ := hw
  exact writeCell_wf h j v

end Sys2Proof.Machine
end

