-- ==== Sys2Proof/Laws/Writeback.lean ====
section
/-! SUPPORT. What the Writeback stage can do (R95 to R103): the candidates as views, the timestamps, slots, registers and waiting operands a committed batch leaves, and its memory. -/

namespace Sys2Proof.Machine

/-! ### The candidates (R95) -/

/-- R95, conditions 1 to 3. -/
theorem writable_iff (s : State) (h : Head) :
    s.writable h = true ↔ ∃ k, h.busy = true ∧ h.instr = some k ∧ (∃ c ∈ (s.stamp k).cmp, c < s.clk) ∧ (s.stamp k).wbk = none := by
  unfold State.writable
  split
  · next k hb hk =>
    simp only [hb, hk, Option.some.injEq, Bool.and_eq_true, true_and]
    constructor
    · rintro ⟨h1, h2⟩
      refine ⟨k, rfl, ?_, by simpa using h2⟩
      split at h1
      · next t ht => exact ⟨t, ht, by simpa using h1⟩
      · cases h1
    · rintro ⟨_, rfl, ⟨a, ha, hlt⟩, h2⟩
      rw [Option.mem_def] at ha
      simp [ha, hlt, h2]
  · next hno =>
    simp only [Bool.false_eq_true, false_iff]
    rintro ⟨k, hb, hk, -⟩
    exact hno k hb hk

/-- R95 on a view. -/
def State.candidate (s : State) (x : SlotView) : Bool := s.writable x.head && (!decide (x.id.pool = .store) || x.waits.isEmpty)

theorem candidateSlot_iff (s : State) (x : SlotView) : s.candidate x = true ↔ ∃ k, s.CandidateSlot x k := by
  rw [State.candidate, Bool.and_eq_true, writable_iff]
  constructor
  · rintro ⟨⟨k, h1, h2, h3, h4⟩, h5⟩
    exact ⟨k, h1, h2, h3, h4, fun hp => by simpa [hp] using h5⟩
  · rintro ⟨k, h1, h2, h3, h4, h5⟩
    refine ⟨⟨k, h1, h2, h3, h4⟩, ?_⟩
    by_cases hp : x.id.pool = .store
    · simp [h5 hp]
    · simp [hp]

theorem CandidateSlot.instr_eq {s : State} {x : SlotView} {k k' : Nat} (h : s.CandidateSlot x k) (h' : s.CandidateSlot x k') : k = k' :=
  Option.some.inj (h.2.1.symm.trans h'.2.1)

theorem mem_stationCandidates {s : State} {c : SlotId × Station} :
    c ∈ s.stationCandidates ↔ (c ∈ tagged .add s.adds ∨ c ∈ tagged .mul s.muls) ∧ s.writable c.2.head = true := by
  simp [State.stationCandidates, or_and_right]

theorem mem_loadCandidates {s : State} {c : SlotId × LoadBuffer} :
    c ∈ s.loadCandidates ↔ c ∈ tagged .load s.loads ∧ s.writable c.2.head = true := by
  simp [State.loadCandidates]

theorem mem_storeCandidates {s : State} {c : SlotId × StoreBuffer} :
    c ∈ s.storeCandidates ↔ c ∈ tagged .store s.stores ∧ s.writable c.2.head = true ∧ c.2.qd = none := by
  simp [State.storeCandidates]

/-- The views of the candidates, by the three lists of the stage. -/
theorem candidate_cases {s : State} {x : SlotView} :
    (x ∈ s.slots ∧ s.candidate x = true) ↔
      (∃ c ∈ s.stationCandidates, x = stationView c) ∨ (∃ c ∈ s.loadCandidates, x = loadView c) ∨
      (∃ c ∈ s.storeCandidates, x = storeView c) := by
  constructor
  · rintro ⟨hx, hc⟩
    simp only [State.candidate, Bool.and_eq_true] at hc
    rcases mem_slots.1 hx with ⟨i, a, ha, rfl⟩ | ⟨i, a, ha, rfl⟩ | ⟨i, a, ha, rfl⟩ | ⟨i, a, ha, rfl⟩
    · exact .inl ⟨_, mem_stationCandidates.2 ⟨.inl (mem_tagged.2 ⟨i, ha, rfl⟩), hc.1⟩, rfl⟩
    · exact .inl ⟨_, mem_stationCandidates.2 ⟨.inr (mem_tagged.2 ⟨i, ha, rfl⟩), hc.1⟩, rfl⟩
    · exact .inr (.inl ⟨_, mem_loadCandidates.2 ⟨mem_tagged.2 ⟨i, ha, rfl⟩, hc.1⟩, rfl⟩)
    · refine .inr (.inr ⟨_, mem_storeCandidates.2 ⟨mem_tagged.2 ⟨i, ha, rfl⟩, hc.1, ?_⟩, rfl⟩)
      simpa using hc.2
  · rintro (⟨c, hc, rfl⟩ | ⟨c, hc, rfl⟩ | ⟨c, hc, rfl⟩)
    · obtain ⟨hm | hm, hw⟩ := mem_stationCandidates.1 hc
      · obtain ⟨j, hj, hcj⟩ := mem_tagged.1 hm
        exact ⟨mem_slots.2 (.inl ⟨j, c.2, hj, by rw [← hcj]⟩), by simp [State.candidate, hw, hcj]⟩
      · obtain ⟨j, hj, hcj⟩ := mem_tagged.1 hm
        exact ⟨mem_slots.2 (.inr (.inl ⟨j, c.2, hj, by rw [← hcj]⟩)), by simp [State.candidate, hw, hcj]⟩
    · obtain ⟨hm, hw⟩ := mem_loadCandidates.1 hc
      obtain ⟨j, hj, hcj⟩ := mem_tagged.1 hm
      exact ⟨mem_slots.2 (.inr (.inr (.inl ⟨j, c.2, hj, by rw [← hcj]⟩))), by simp [State.candidate, hw, hcj]⟩
    · obtain ⟨hm, hw, hq⟩ := mem_storeCandidates.1 hc
      obtain ⟨j, hj, hcj⟩ := mem_tagged.1 hm
      exact ⟨mem_slots.2 (.inr (.inr (.inr ⟨j, c.2, hj, by rw [← hcj]⟩))), by simp [State.candidate, hw, hq]⟩

theorem mem_candidateSlots {s : State} {q : SlotId} :
    q ∈ s.candidateSlots ↔ ∃ x ∈ s.slots, s.candidate x = true ∧ x.id = q := by
  have : (∃ x, (x ∈ s.slots ∧ s.candidate x = true) ∧ x.id = q) ↔ q ∈ s.candidateSlots := by
    simp only [candidate_cases, State.candidateSlots, List.mem_append, List.mem_map]
    constructor
    · rintro ⟨x, (⟨c, hc, rfl⟩ | ⟨c, hc, rfl⟩ | ⟨c, hc, rfl⟩), rfl⟩
      · exact .inl (.inl ⟨c, hc, rfl⟩)
      · exact .inl (.inr ⟨c, hc, rfl⟩)
      · exact .inr ⟨c, hc, rfl⟩
    · rintro ((⟨c, hc, rfl⟩ | ⟨c, hc, rfl⟩) | ⟨c, hc, rfl⟩)
      · exact ⟨_, .inl ⟨c, hc, rfl⟩, rfl⟩
      · exact ⟨_, .inr (.inl ⟨c, hc, rfl⟩), rfl⟩
      · exact ⟨_, .inr (.inr ⟨c, hc, rfl⟩), rfl⟩
  rw [← this]
  simp only [and_assoc]

/-- The spec's candidates and the batch's slots are the same (R95). -/
theorem writesBack_iff {s : State} {q : SlotId} : s.WritesBack q ↔ q ∈ s.candidateSlots := by
  rw [mem_candidateSlots]
  constructor
  · rintro ⟨x, hx, hi, hk⟩; exact ⟨x, hx, (candidateSlot_iff s x).2 hk, hi⟩
  · rintro ⟨x, hx, hk, hi⟩; exact ⟨x, hx, hi, (candidateSlot_iff s x).1 hk⟩

theorem mem_candidateInstrs {s : State} {k : Nat} :
    k ∈ s.candidateInstrs ↔ ∃ x ∈ s.slots, s.CandidateSlot x k := by
  have : (∃ x, (x ∈ s.slots ∧ s.candidate x = true) ∧ x.head.instr = some k) ↔ k ∈ s.candidateInstrs := by
    simp only [candidate_cases, State.candidateInstrs, List.mem_append, List.mem_filterMap]
    constructor
    · rintro ⟨x, (⟨c, hc, rfl⟩ | ⟨c, hc, rfl⟩ | ⟨c, hc, rfl⟩), hk⟩
      · exact .inl (.inl ⟨c, hc, hk⟩)
      · exact .inl (.inr ⟨c, hc, hk⟩)
      · exact .inr ⟨c, hc, hk⟩
    · rintro ((⟨c, hc, hk⟩ | ⟨c, hc, hk⟩) | ⟨c, hc, hk⟩)
      · exact ⟨_, .inl ⟨c, hc, rfl⟩, hk⟩
      · exact ⟨_, .inr (.inl ⟨c, hc, rfl⟩), hk⟩
      · exact ⟨_, .inr (.inr ⟨c, hc, rfl⟩), hk⟩
  rw [← this]
  constructor
  · rintro ⟨x, ⟨hx, hc⟩, hk⟩
    obtain ⟨k', hk'⟩ := (candidateSlot_iff s x).1 hc
    have : k' = k := Option.some.inj (hk'.2.1.symm.trans hk)
    exact ⟨x, hx, this ▸ hk'⟩
  · rintro ⟨x, hx, hc⟩
    exact ⟨x, ⟨hx, (candidateSlot_iff s x).2 ⟨k, hc⟩⟩, hc.2.1⟩

/-- The timestamps a batch records (R97). -/
theorem recordWriteback_stamp (ks : List Nat) (s : State) {k : Nat} (hk : k < s.stamps.length) :
    (recordWriteback ks s).stamp k = if k ∈ ks then { s.stamp k with wbk := some s.clk } else s.stamp k := by
  simp only [State.stamp, recordWriteback, List.getD_eq_getElem?_getD, List.getElem?_map, List.getElem?_zipIdx, List.getElem?_eq_getElem hk,
    Option.map_some, Option.getD_some, Nat.zero_add]

/-! ### The broadcasts of a batch (R99, R100, R102) -/

/-- Without an access out of range every load candidate broadcasts. -/
theorem loadValue_isSome {s : State} {writes : List StoreWrite} {q : SlotId} {addr : Int} (h : cellOf s.params addr ≠ none) :
    ∃ v, loadValue s writes q addr = some v := by
  obtain ⟨j, hj⟩ := Option.ne_none_iff_exists'.1 h
  unfold loadValue
  split
  · exact ⟨s.mem.readCell j, by simp [memRead, hj]⟩
  · simp [hj]

theorem accessesInRange_load {s : State} (h : s.AccessesInRange) {c : SlotId × LoadBuffer} (hc : c ∈ s.loadCandidates) :
    cellOf s.params (c.2.address s) ≠ none :=
  h (c.2.head.instr.getD 0, c.2.address s) (by
    unfold State.accesses; exact List.mem_append_left _ (List.mem_map.2 ⟨c, hc, rfl⟩))

theorem accessesInRange_store {s : State} (h : s.AccessesInRange) {c : SlotId × StoreBuffer} (hc : c ∈ s.storeCandidates) :
    cellOf s.params (c.2.address s) ≠ none :=
  h (c.2.head.instr.getD 0, c.2.address s) (by
    unfold State.accesses; exact List.mem_append_right _ (List.mem_map.2 ⟨c, hc, rfl⟩))

theorem mem_broadcasts {s : State} {b : Broadcast} :
    b ∈ s.broadcasts ↔
      (∃ c ∈ s.stationCandidates, b = ⟨c.1, stationResult s c.1 c.2, c.2.dest⟩) ∨
      (∃ c ∈ s.loadCandidates, ∃ v, loadValue s s.queuedWrites c.1 (c.2.address s) = some v ∧ b = ⟨c.1, v, c.2.dest⟩) := by
  simp only [State.broadcasts, List.mem_append, List.mem_map, List.mem_filterMap, Option.map_eq_some_iff]
  constructor
  · rintro (⟨c, hc, rfl⟩ | ⟨c, hc, v, hv, rfl⟩)
    · exact .inl ⟨c, hc, rfl⟩
    · exact .inr ⟨c, hc, v, hv, rfl⟩
  · rintro (⟨c, hc, rfl⟩ | ⟨c, hc, v, hv, rfl⟩)
    · exact .inl ⟨c, hc, rfl⟩
    · exact .inr ⟨c, hc, v, hv, rfl⟩

/-- The slots that broadcast are the candidates with a destination. -/
theorem mem_broadcast_srcs {s : State} (h : s.AccessesInRange) {q : SlotId} :
    q ∈ s.broadcasts.map Broadcast.src ↔ ∃ x ∈ s.slots, s.candidate x = true ∧ x.id = q ∧ x.id.pool ≠ .store := by
  have : (∃ x, (x ∈ s.slots ∧ s.candidate x = true) ∧ x.id = q ∧ x.id.pool ≠ .store) ↔ q ∈ s.broadcasts.map Broadcast.src := by
    simp only [candidate_cases, List.mem_map, mem_broadcasts]
    constructor
    · rintro ⟨x, (⟨c, hc, rfl⟩ | ⟨c, hc, rfl⟩ | ⟨c, hc, rfl⟩), rfl, hp⟩
      · exact ⟨_, .inl ⟨c, hc, rfl⟩, rfl⟩
      · obtain ⟨v, hv⟩ := loadValue_isSome (writes := s.queuedWrites) (q := c.1) (accessesInRange_load h hc)
        exact ⟨_, .inr ⟨c, hc, v, hv, rfl⟩, rfl⟩
      · obtain ⟨j, -, hcj⟩ := mem_tagged.1 (mem_storeCandidates.1 hc).1
        simp [hcj] at hp
    · rintro ⟨b, (⟨c, hc, rfl⟩ | ⟨c, hc, v, hv, rfl⟩), rfl⟩
      · refine ⟨_, .inl ⟨c, hc, rfl⟩, rfl, ?_⟩
        obtain ⟨hm | hm, -⟩ := mem_stationCandidates.1 hc <;> obtain ⟨j, -, hcj⟩ := mem_tagged.1 hm <;> simp [hcj]
      · refine ⟨_, .inr (.inl ⟨c, hc, rfl⟩), rfl, ?_⟩
        obtain ⟨j, -, hcj⟩ := mem_tagged.1 (mem_loadCandidates.1 hc).1
        simp [hcj]
  rw [← this]
  simp only [and_assoc]

/-- R97: a candidate with a destination broadcasts to it. -/
theorem candidate_broadcasts {s : State} (hr : s.AccessesInRange) {x : SlotView} (hx : x ∈ s.slots) (hc : s.candidate x = true)
    {d : FReg} (hd : x.dest = some d) : ∃ b ∈ s.broadcasts, b.src = x.id ∧ b.dest = d := by
  rcases candidate_cases.1 ⟨hx, hc⟩ with ⟨c, hm, rfl⟩ | ⟨c, hm, rfl⟩ | ⟨c, hm, rfl⟩
  · exact ⟨_, mem_broadcasts.2 (.inl ⟨c, hm, rfl⟩), rfl, by simpa using hd⟩
  · obtain ⟨v, hv⟩ := loadValue_isSome (writes := s.queuedWrites) (q := c.1) (accessesInRange_load hr hm)
    exact ⟨_, mem_broadcasts.2 (.inr ⟨c, hm, v, hv, rfl⟩), rfl, by simpa using hd⟩
  · simp at hd

theorem tagged_ids_nodup {α : Type} (p : Pool) (l : List α) : ((tagged p l).map Prod.fst).Nodup := by
  have : (tagged p l).map Prod.fst = (List.range l.length).map fun j => (⟨p, j⟩ : SlotId) := by
    apply List.ext_getElem <;> simp [tagged]
  rw [this]
  exact List.nodup_range.map fun i j h => by simpa using h

/-- Each slot broadcasts at most once in a batch. -/
theorem broadcast_srcs_nodup (s : State) : (s.broadcasts.map Broadcast.src).Nodup := by
  have hst : ((tagged Pool.add s.adds ++ tagged Pool.mul s.muls).map Prod.fst).Nodup := by
    rw [List.map_append, List.nodup_append]
    refine ⟨tagged_ids_nodup _ _, tagged_ids_nodup _ _, ?_⟩
    intro a ha b hb
    obtain ⟨c, hc, rfl⟩ := List.mem_map.1 ha
    obtain ⟨d, hd, rfl⟩ := List.mem_map.1 hb
    obtain ⟨i, -, hi⟩ := mem_tagged.1 hc
    obtain ⟨j, -, hj⟩ := mem_tagged.1 hd
    simp [hi, hj]
  have h1 : (s.stationCandidates.map Prod.fst).Nodup := hst.sublist (List.Sublist.map _ List.filter_sublist)
  have h2 : (s.loadCandidates.map Prod.fst).Nodup := (tagged_ids_nodup .load s.loads).sublist (List.Sublist.map _ List.filter_sublist)
  have e1 : (s.stationCandidates.map fun c => (⟨c.1, stationResult s c.1 c.2, c.2.dest⟩ : Broadcast)).map Broadcast.src =
      s.stationCandidates.map Prod.fst := by simp
  have e2 : ((s.loadCandidates.filterMap fun c => (loadValue s s.queuedWrites c.1 (c.2.address s)).map fun v =>
      (⟨c.1, v, c.2.dest⟩ : Broadcast)).map Broadcast.src).Sublist (s.loadCandidates.map Prod.fst) := by
    generalize s.loadCandidates = l
    induction l with
    | nil => simp
    | cons c rest ih =>
      rw [List.filterMap_cons]
      split
      · exact ih.trans (List.sublist_cons_self ..)
      · next b hb =>
        obtain ⟨v, -, rfl⟩ := Option.map_eq_some_iff.1 hb
        exact ih.cons_cons _
  rw [State.broadcasts, List.map_append, e1, List.nodup_append]
  refine ⟨h1, h2.sublist e2, ?_⟩
  intro a ha b hb
  obtain ⟨c, hc, rfl⟩ := List.mem_map.1 ha
  obtain ⟨d, hd, rfl⟩ := List.mem_map.1 (e2.subset hb)
  obtain ⟨j, -, hj⟩ := mem_tagged.1 (mem_loadCandidates.1 hd).1
  obtain ⟨hm | hm, -⟩ := mem_stationCandidates.1 hc <;> obtain ⟨i, -, hi⟩ := mem_tagged.1 hm <;> simp [hi, hj]

/-! ### Registers after broadcasts (R99) -/

theorem readRRS_writeRRS_same {s : State} {i : FReg} (h : i.toNat < s.rrs.length) (q : Tag) : (s.writeRRS i q).readRRS i = q := by
  simp [State.readRRS, State.writeRRS, h]

theorem readRRS_writeRRS_other (s : State) {i j : FReg} (h : j ≠ i) (q : Tag) : (s.writeRRS i q).readRRS j = s.readRRS j := by
  have : i.toNat ≠ j.toNat := fun e => h (BitVec.eq_of_toNat_eq e.symm)
  simp [State.readRRS, State.writeRRS, List.getD_eq_getElem?_getD, this]

theorem readF_writeF_same {s : State} {i : FReg} (h : i.toNat < s.fpr.length) (v : Word) : (s.writeF i v).readF i = v := by
  simp [State.readF, State.writeF, h]

theorem readF_writeF_other (s : State) {i j : FReg} (h : j ≠ i) (v : Word) : (s.writeF i v).readF j = s.readF j := by
  have : i.toNat ≠ j.toNat := fun e => h (BitVec.eq_of_toNat_eq e.symm)
  simp [State.readF, State.writeF, List.getD_eq_getElem?_getD, this]

/-- An entry of the rename table that holds a tag is one of the table's. -/
theorem readRRS_in_range {s : State} {i : FReg} {q : SlotId} (h : s.readRRS i = some q) : i.toNat < s.rrs.length := by
  by_contra hn
  simp [State.readRRS, List.getD_eq_getElem?_getD, List.getElem?_eq_none (Nat.le_of_not_lt hn)] at h

/-- R99 for one broadcast: nothing, or the one register and the one entry. -/
theorem applyBroadcast_registers (s : State) (b : Broadcast) (f : FReg) :
    (¬ (b.dest = f ∧ s.readRRS f = some b.src) → (applyBroadcast s b).readF f = s.readF f ∧ (applyBroadcast s b).readRRS f = s.readRRS f) ∧
    (b.dest = f → s.readRRS f = some b.src → (applyBroadcast s b).readRRS f = none ∧
      (f.toNat < s.fpr.length → (applyBroadcast s b).readF f = b.value)) := by
  have e : (applyBroadcast s b).readF f = (updateRegister b s).readF f ∧ (applyBroadcast s b).readRRS f = (updateRegister b s).readRRS f :=
    ⟨rfl, rfl⟩
  rw [e.1, e.2]
  unfold updateRegister
  by_cases hg : s.readRRS b.dest = some b.src
  · rw [if_pos hg]
    refine ⟨fun hn => ?_, fun hd hr => ?_⟩
    · have hne : f ≠ b.dest := by
        rintro rfl; exact hn ⟨rfl, hg⟩
      exact ⟨readF_writeF_other s hne _, readRRS_writeRRS_other (s.writeF b.dest b.value) hne _⟩
    · subst hd
      exact ⟨readRRS_writeRRS_same (s := s.writeF b.dest b.value) (readRRS_in_range hr) _, fun hf => readF_writeF_same hf _⟩
  · rw [if_neg hg]
    exact ⟨fun _ => ⟨rfl, rfl⟩, fun hd hr => absurd (hd ▸ hr) hg⟩

@[simp] theorem applyBroadcast_fpr_length (s : State) (b : Broadcast) : (applyBroadcast s b).fpr.length = s.fpr.length := by
  unfold applyBroadcast updateRegister; split <;> simp [forward, State.writeRRS, State.writeF]
@[simp] theorem applyBroadcast_rrs_length (s : State) (b : Broadcast) : (applyBroadcast s b).rrs.length = s.rrs.length := by
  unfold applyBroadcast updateRegister; split <;> simp [forward, State.writeRRS, State.writeF]
@[simp] theorem applyBroadcasts_fpr_length (s : State) (bs : List Broadcast) : (bs.foldl applyBroadcast s).fpr.length = s.fpr.length := by
  induction bs generalizing s with
  | nil => rfl
  | cons b bs ih => simp [ih]
@[simp] theorem applyBroadcasts_rrs_length (s : State) (bs : List Broadcast) : (bs.foldl applyBroadcast s).rrs.length = s.rrs.length := by
  induction bs generalizing s with
  | nil => rfl
  | cons b bs ih => simp [ih]

/-- R99 for a batch: a register no broadcast of the batch is named for keeps its value and its entry. -/
theorem applyBroadcasts_unnamed (s : State) (bs : List Broadcast) (f : FReg) (h : ∀ b ∈ bs, ¬ (b.dest = f ∧ s.readRRS f = some b.src)) :
    (bs.foldl applyBroadcast s).readF f = s.readF f ∧ (bs.foldl applyBroadcast s).readRRS f = s.readRRS f := by
  induction bs generalizing s with
  | nil => exact ⟨rfl, rfl⟩
  | cons b bs ih =>
    have hb := (applyBroadcast_registers s b f).1 (h b (List.mem_cons_self ..))
    have := ih (applyBroadcast s b) fun c hc => by rw [hb.2]; exact h c (List.mem_cons_of_mem _ hc)
    exact ⟨this.1.trans hb.1, this.2.trans hb.2⟩

/-- R99, R102 for a batch: the register whose entry names a broadcasting slot takes that slot's value, and the entry is cleared. -/
theorem applyBroadcasts_named (s : State) (bs : List Broadcast) (hn : (bs.map Broadcast.src).Nodup) {b : Broadcast} (hb : b ∈ bs)
    (h : s.readRRS b.dest = some b.src) :
    (bs.foldl applyBroadcast s).readRRS b.dest = none ∧
    (b.dest.toNat < s.fpr.length → (bs.foldl applyBroadcast s).readF b.dest = b.value) := by
  induction bs generalizing s with
  | nil => cases hb
  | cons c bs ih =>
    rw [List.map_cons, List.nodup_cons] at hn
    rcases List.mem_cons.1 hb with rfl | hb
    · have h1 := (applyBroadcast_registers s b b.dest).2 rfl h
      have h2 := applyBroadcasts_unnamed (applyBroadcast s b) bs b.dest fun d _ => by rw [h1.1]; simp
      exact ⟨h2.2.trans h1.1, fun hl => h2.1.trans (h1.2 hl)⟩
    · have hne : c.src ≠ b.src := fun e => hn.1 (e ▸ List.mem_map_of_mem hb)
      have h1 := (applyBroadcast_registers s c b.dest).1 fun hh => by
        rw [h] at hh
        exact hne (Option.some.inj hh.2).symm
      have h2 := ih (applyBroadcast s c) hn.2 hb (h1.2.trans h)
      rw [applyBroadcast_fpr_length] at h2
      exact h2

/-! ### Waiting operands after broadcasts (R100) -/

/-- The value and the tag of an operand after a batch of broadcasts. -/
def delivered (bs : List Broadcast) (v : Word) (q : Tag) : Word × Tag := bs.foldl (fun p b => deliver b p.1 p.2) (v, q)

theorem delivered_none (bs : List Broadcast) (v : Word) : delivered bs v none = (v, none) := by
  unfold delivered
  induction bs with
  | nil => rfl
  | cons b bs ih => simpa [deliver] using ih

theorem delivered_other {bs : List Broadcast} {q : SlotId} (h : q ∉ bs.map Broadcast.src) (v : Word) :
    delivered bs v (some q) = (v, some q) := by
  unfold delivered
  induction bs with
  | nil => rfl
  | cons b bs ih =>
    simp only [List.map_cons, List.mem_cons, not_or] at h
    have : deliver b v (some q) = (v, some q) := by simp [deliver, h.1]
    rw [List.foldl_cons, this]
    exact ih h.2

theorem delivered_named {bs : List Broadcast} (hn : (bs.map Broadcast.src).Nodup) {b : Broadcast} (hb : b ∈ bs) (v : Word) :
    delivered bs v (some b.src) = (b.value, none) := by
  induction bs with
  | nil => cases hb
  | cons c bs ih =>
    rw [List.map_cons, List.nodup_cons] at hn
    rcases List.mem_cons.1 hb with rfl | hb
    · have := delivered_none bs b.value
      unfold delivered at this ⊢
      simpa [deliver] using this
    · have hne : b.src ≠ c.src := fun e => hn.1 (e ▸ List.mem_map_of_mem hb)
      have := ih hn.2 hb
      unfold delivered at this ⊢
      rw [List.foldl_cons, show deliver c v (some b.src) = (v, some b.src) by simp [deliver, hne]]
      exact this

theorem delivered_cons (b : Broadcast) (bs : List Broadcast) (v : Word) (q : Tag) :
    delivered (b :: bs) v q = delivered bs (deliver b v q).1 (deliver b v q).2 := rfl

/-- R100: the batch's broadcasts leave an operand that waits for none of its slots. -/
theorem delivered_kept {s : State} (hr : s.AccessesInRange) (v : Word) (q : Tag) :
    s.OperandKept v q (delivered s.broadcasts v q).1 (delivered s.broadcasts v q).2 := by
  intro h
  cases q with
  | none => rw [delivered_none]; exact ⟨rfl, rfl⟩
  | some q =>
    rw [delivered_other fun hm => ?_]
    · exact ⟨rfl, rfl⟩
    · obtain ⟨z, hz, hcz, hid, -⟩ := (mem_broadcast_srcs hr).1 hm
      exact h q rfl ⟨z, hz, hid, (candidateSlot_iff s z).1 hcz⟩

/-- A station after a batch of broadcasts. -/
def deliveredStation (bs : List Broadcast) (x : Station) : Station :=
  if x.head.busy then
    { x with vj := (delivered bs x.vj x.qj).1, qj := (delivered bs x.vj x.qj).2,
             vk := (delivered bs x.vk x.qk).1, qk := (delivered bs x.vk x.qk).2 }
  else x

/-- A store buffer after a batch of broadcasts. -/
def deliveredStore (bs : List Broadcast) (x : StoreBuffer) : StoreBuffer :=
  if x.head.busy then { x with vd := (delivered bs x.vd x.qd).1, qd := (delivered bs x.vd x.qd).2 } else x

theorem deliveredStation_cons (b : Broadcast) (bs : List Broadcast) (x : Station) :
    deliveredStation (b :: bs) x = deliveredStation bs (forwardStation b x) := by
  unfold deliveredStation forwardStation
  by_cases h : x.head.busy = true
  · simp only [h, if_true, delivered_cons]
  · simp only [h, if_false, Bool.false_eq_true]

theorem deliveredStore_cons (b : Broadcast) (bs : List Broadcast) (x : StoreBuffer) :
    deliveredStore (b :: bs) x = deliveredStore bs (forwardStore b x) := by
  unfold deliveredStore forwardStore
  by_cases h : x.head.busy = true
  · simp only [h, if_true, delivered_cons]
  · simp only [h, if_false, Bool.false_eq_true]

theorem deliveredStation_nil (x : Station) : deliveredStation [] x = x := by
  unfold deliveredStation; split <;> rfl

theorem deliveredStore_nil (x : StoreBuffer) : deliveredStore [] x = x := by
  unfold deliveredStore; split <;> rfl

/-- R100, R102: the waiting slots after a batch of broadcasts. -/
theorem applyBroadcasts_slots (bs : List Broadcast) (s : State) :
    (bs.foldl applyBroadcast s).adds = s.adds.map (deliveredStation bs) ∧
    (bs.foldl applyBroadcast s).muls = s.muls.map (deliveredStation bs) ∧
    (bs.foldl applyBroadcast s).stores = s.stores.map (deliveredStore bs) := by
  induction bs generalizing s with
  | nil =>
    refine ⟨?_, ?_, ?_⟩ <;> simp only [List.foldl_nil]
    · rw [show deliveredStation [] = id from funext deliveredStation_nil, List.map_id]
    · rw [show deliveredStation [] = id from funext deliveredStation_nil, List.map_id]
    · rw [show deliveredStore [] = id from funext deliveredStore_nil, List.map_id]
  | cons b bs ih =>
    have h1 : deliveredStation (b :: bs) = deliveredStation bs ∘ forwardStation b := funext (deliveredStation_cons b bs)
    have h2 : deliveredStore (b :: bs) = deliveredStore bs ∘ forwardStore b := funext (deliveredStore_cons b bs)
    obtain ⟨i1, i2, i3⟩ := ih (applyBroadcast s b)
    rw [List.foldl_cons, i1, i2, i3, h1, h2]
    simp only [applyBroadcast, forward, updateRegister_adds, updateRegister_muls, updateRegister_stores, List.map_map, and_self]

/-! ### The committed batch (R97 to R101) -/

/-- The batch's state before its slots are released. -/
def deliveredBatch (s : State) : State :=
  s.broadcasts.foldl applyBroadcast { recordWriteback s.candidateInstrs s with mem := applyWrites s s.queuedWrites, draws := s.draws + 1 }

theorem commitBatch_eq (s : State) : commitBatch s = release s.candidateSlots (deliveredBatch s) := rfl

theorem deliveredBatch_lists (s : State) :
    (deliveredBatch s).adds = s.adds.map (deliveredStation s.broadcasts) ∧ (deliveredBatch s).muls = s.muls.map (deliveredStation s.broadcasts) ∧
    (deliveredBatch s).loads = s.loads ∧ (deliveredBatch s).stores = s.stores.map (deliveredStore s.broadcasts) := by
  obtain ⟨h1, h2, h3⟩ := applyBroadcasts_slots s.broadcasts
    { recordWriteback s.candidateInstrs s with mem := applyWrites s s.queuedWrites, draws := s.draws + 1 }
  exact ⟨h1, h2, by simp [deliveredBatch], h3⟩

/-- The view of a slot after Writeback: freed if it wrote back, and without the tags of the slots that broadcast otherwise. -/
def State.commitView (s : State) (x : SlotView) : SlotView :=
  if s.candidate x then freeView x.id
  else if x.head.busy then { x with waits := x.waits.filter fun q => q ∉ s.broadcasts.map Broadcast.src } else x

theorem commitBatch_slots (s : State) : (commitBatch s).slots = s.slots.map s.commitView := by
  rw [commitBatch_eq, release_slots, deliveredBatch, foldl_applyBroadcast_slots, List.map_map]
  have h0 : ∀ (ks : List Nat) (m : Memory) (d : Nat), ({ recordWriteback ks s with mem := m, draws := d } : State).slots = s.slots :=
    fun _ _ _ => rfl
  rw [h0]
  refine List.map_congr_left fun x hx => ?_
  have hid : ∀ (p : Bool) (w : List SlotId), (if p then { x with waits := w } else x : SlotView).id = x.id := by
    intro p w; cases p <;> rfl
  simp only [Function.comp, State.commitView, hid]
  have hm : x.id ∈ s.candidateSlots ↔ s.candidate x = true := by
    rw [mem_candidateSlots]
    constructor
    · rintro ⟨y, hy, hc, he⟩
      rwa [slots_id_inj hy hx he] at hc
    · intro hc; exact ⟨x, hx, hc, rfl⟩
  by_cases hc : s.candidate x = true
  · rw [if_pos hc, if_pos (hm.2 hc)]
  · rw [if_neg hc, if_neg (fun h => hc (hm.1 h))]

theorem commitBatch_stamps_length (s : State) : (commitBatch s).stamps.length = s.stamps.length := by
  simp [recordWriteback]

/-- R97 on the timestamps. -/
theorem commitBatch_stamp_candidate {s : State} {x : SlotView} {k : Nat} (hx : x ∈ s.slots) (hc : s.CandidateSlot x k) (hk : k < s.stamps.length) :
    (commitBatch s).stamp k = { s.stamp k with wbk := some s.clk } := by
  have : (commitBatch s).stamp k = (recordWriteback s.candidateInstrs s).stamp k := by simp [State.stamp]
  rw [this, recordWriteback_stamp _ _ hk, if_pos (mem_candidateInstrs.2 ⟨x, hx, hc⟩)]

theorem commitBatch_stamp_other {s : State} {k : Nat} (h : ∀ x ∈ s.slots, ¬ s.CandidateSlot x k) : (commitBatch s).stamp k = s.stamp k := by
  have e : (commitBatch s).stamp k = (recordWriteback s.candidateInstrs s).stamp k := by simp [State.stamp]
  by_cases hk : k < s.stamps.length
  · rw [e, recordWriteback_stamp _ _ hk, if_neg fun hm => ?_]
    obtain ⟨x, hx, hc⟩ := mem_candidateInstrs.1 hm
    exact h x hx hc
  · rw [stamp_eq_empty (s := s) (by omega), stamp_eq_empty (s := commitBatch s) (by rw [commitBatch_stamps_length]; omega)]

theorem commitBatch_registers (s : State) (f : FReg) :
    (commitBatch s).readF f = (deliveredBatch s).readF f ∧ (commitBatch s).readRRS f = (deliveredBatch s).readRRS f := ⟨rfl, rfl⟩

/-- R99: a register whose entry names no broadcasting slot keeps its value and entry. -/
theorem commitBatch_unnamed (s : State) (f : FReg) (h : ∀ b ∈ s.broadcasts, ¬ (b.dest = f ∧ s.readRRS f = some b.src)) :
    (commitBatch s).readF f = s.readF f ∧ (commitBatch s).readRRS f = s.readRRS f := by
  obtain ⟨e1, e2⟩ := commitBatch_registers s f
  have := applyBroadcasts_unnamed { recordWriteback s.candidateInstrs s with mem := applyWrites s s.queuedWrites, draws := s.draws + 1 }
    s.broadcasts f h
  exact ⟨e1.trans this.1, e2.trans this.2⟩

/-- R99: a register whose entry names a broadcasting slot takes its value, and the entry is cleared. -/
theorem commitBatch_named (s : State) {b : Broadcast} (hb : b ∈ s.broadcasts) (h : s.readRRS b.dest = some b.src) :
    (commitBatch s).readRRS b.dest = none ∧ (b.dest.toNat < s.fpr.length → (commitBatch s).readF b.dest = b.value) := by
  obtain ⟨e1, e2⟩ := commitBatch_registers s b.dest
  have := applyBroadcasts_named { recordWriteback s.candidateInstrs s with mem := applyWrites s s.queuedWrites, draws := s.draws + 1 }
    s.broadcasts (broadcast_srcs_nodup s) hb h
  exact ⟨e2.trans this.1, fun hl => e1.trans (this.2 hl)⟩

/-! ### Faults (R132, R133) -/

theorem lowerAccess_none {l : List (Nat × Int)} : l.foldr lowerAccess none = none ↔ l = [] := by
  cases l with
  | nil => simp
  | cons a l =>
    simp only [List.foldr_cons, reduceCtorEq, iff_false]
    unfold lowerAccess
    split
    · simp
    · split <;> simp

theorem lowerAccess_some {l : List (Nat × Int)} {b : Nat × Int} (h : l.foldr lowerAccess none = some b) :
    b ∈ l ∧ ∀ c ∈ l, b.1 ≤ c.1 := by
  induction l generalizing b with
  | nil => cases h
  | cons a l ih =>
    rw [List.foldr_cons] at h
    cases hl : l.foldr lowerAccess none with
    | none =>
      rw [hl] at h
      rw [lowerAccess_none.1 hl]
      simp only [lowerAccess, Option.some.injEq] at h
      subst h
      simp
    | some d =>
      rw [hl] at h
      obtain ⟨hd, hmin⟩ := ih hl
      simp only [lowerAccess] at h
      split at h
      · next hlt =>
        cases h
        refine ⟨List.mem_cons_of_mem _ hd, fun c hc => ?_⟩
        rcases List.mem_cons.1 hc with rfl | hc
        · omega
        · exact hmin c hc
      · next hge =>
        cases h
        refine ⟨List.mem_cons_self .., fun c hc => ?_⟩
        rcases List.mem_cons.1 hc with rfl | hc
        · exact le_refl _
        · have := hmin c hc; omega

theorem faultingAccess_none {s : State} : s.faultingAccess = none ↔ s.AccessesInRange := by
  simp only [State.faultingAccess, lowerAccess_none, List.filter_eq_nil_iff, State.AccessesInRange, Option.isNone_iff_eq_none, ne_eq]

/-- R132, R133: the access a fault reports is out of range and of the lowest instruction index. -/
theorem faultingAccess_some {s : State} {b : Nat × Int} (h : s.faultingAccess = some b) :
    b ∈ s.accesses ∧ cellOf s.params b.2 = none ∧ ∀ c ∈ s.accesses, cellOf s.params c.2 = none → b.1 ≤ c.1 := by
  obtain ⟨h1, h2⟩ := lowerAccess_some h
  obtain ⟨h3, h4⟩ := List.mem_filter.1 h1
  exact ⟨h3, by simpa using h4, fun c hc hn => h2 c (List.mem_filter.2 ⟨hc, by simpa using hn⟩)⟩

/-- R95 to R103, R132: Writeback commits the batch, or faults and leaves everything else unspecified. -/
theorem writebackStage_cases (s : State) :
    (s.AccessesInRange ∧ writebackStage s = commitBatch s) ∨
    (∃ b, s.faultingAccess = some b ∧ writebackStage s = raiseMemRange b.1 b.2 s) := by
  unfold writebackStage
  cases h : s.faultingAccess with
  | none => exact .inl ⟨faultingAccess_none.1 h, rfl⟩
  | some b => exact .inr ⟨b, rfl, rfl⟩

theorem writebackStage_inRange {s : State} (h : s.AccessesInRange) : writebackStage s = commitBatch s := by
  unfold writebackStage
  rw [faultingAccess_none.2 h]

/-! ### The memory a batch leaves (R50, R98, R122) -/

theorem foldl_mem_wf {α : Type} (f : Memory → α → Memory) (hf : ∀ m a, m.wf → (f m a).wf) (l : List α) {m : Memory} (h : m.wf) :
    (l.foldl f m).wf := by
  induction l generalizing m with
  | nil => exact h
  | cons a l ih => exact ih (hf m a h)

theorem applyWrite_wf (s : State) (m : Memory) (w : StoreWrite) (h : m.wf) : (applyWrite s m w).wf := by
  unfold applyWrite
  cases hm : memWrite s.params m w.addr w.data with
  | none => exact h
  | some m' => exact memWrite_wf h hm

theorem raceWrite_wf (s : State) (ws : List StoreWrite) (m : Memory) (j : Nat) (h : m.wf) : (raceWrite s ws m j).wf := by
  unfold raceWrite
  split
  · exact h
  · exact writeCell_wf h _ _

/-- Every batch keeps the memory's canonical form. -/
theorem applyWrites_wf (s : State) (ws : List StoreWrite) (h : s.mem.wf) : (applyWrites s ws).wf := by
  unfold applyWrites
  split
  · exact foldl_mem_wf _ (applyWrite_wf s) _ h
  · exact foldl_mem_wf _ (raceWrite_wf s ws) _ h

theorem applyWrite_inside (s : State) {m : Memory} (w : StoreWrite) (h : m.Inside (8 * s.params.nMem)) :
    (applyWrite s m w).Inside (8 * s.params.nMem) := by
  unfold applyWrite memWrite
  cases hc : cellOf s.params w.addr with
  | none => exact h
  | some j => exact writeCell_inside h (cellOf_some hc).2.2.2 _

/-- Every batch keeps the memory inside its cells. -/
theorem applyWrites_inside (s : State) (ws : List StoreWrite) (h : s.mem.Inside (8 * s.params.nMem)) :
    (applyWrites s ws).Inside (8 * s.params.nMem) := by
  unfold applyWrites
  split
  · generalize orderWrites ws = l
    have : ∀ (l : List StoreWrite) (m : Memory), m.Inside (8 * s.params.nMem) → (l.foldl (applyWrite s) m).Inside (8 * s.params.nMem) := by
      intro l
      induction l with
      | nil => exact fun m hm => hm
      | cons w l ih => exact fun m hm => ih _ (applyWrite_inside s w hm)
    exact this l _ h
  · have : ∀ (l : List Nat) (m : Memory), (∀ j ∈ l, j < s.params.nMem) → m.Inside (8 * s.params.nMem) →
        (l.foldl (raceWrite s ws) m).Inside (8 * s.params.nMem) := by
      intro l
      induction l with
      | nil => exact fun m _ hm => hm
      | cons j l ih =>
        intro m hl hm
        refine ih _ (fun i hi => hl i (List.mem_cons_of_mem _ hi)) ?_
        unfold raceWrite
        split
        · exact hm
        · exact writeCell_inside hm (hl j (List.mem_cons_self ..)) _
    exact this _ _ (fun j hj => List.mem_range.1 hj) h

theorem mem_writesTo {s : State} {ws : List StoreWrite} {j : Nat} {w : StoreWrite} :
    w ∈ writesTo s ws j ↔ w ∈ ws ∧ cellOf s.params w.addr = some j := by
  simp [writesTo]

theorem insertWrite_perm (w : StoreWrite) (l : List StoreWrite) : (insertWrite w l).Perm (w :: l) := by
  induction l with
  | nil => exact .refl _
  | cons x l ih =>
    simp only [insertWrite]
    split
    · exact .refl _
    · exact (ih.cons x).trans (.swap w x l)

/-- R98: ordering the writes loses and adds none. -/
theorem orderWrites_perm (l : List StoreWrite) : (orderWrites l).Perm l := by
  induction l with
  | nil => exact .refl _
  | cons w l ih => exact (insertWrite_perm w _).trans (ih.cons w)

theorem insertWrite_sorted {w : StoreWrite} {l : List StoreWrite} (h : l.Pairwise fun a b => a.index ≤ b.index) :
    (insertWrite w l).Pairwise fun a b => a.index ≤ b.index := by
  induction l with
  | nil => simp [insertWrite]
  | cons x l ih =>
    obtain ⟨hx, hl⟩ := List.pairwise_cons.1 h
    simp only [insertWrite]
    split
    · next hle =>
      refine List.pairwise_cons.2 ⟨fun y hy => ?_, h⟩
      rcases List.mem_cons.1 hy with rfl | hy
      · exact hle
      · exact hle.trans (hx y hy)
    · next hgt =>
      refine List.pairwise_cons.2 ⟨fun y hy => ?_, ih hl⟩
      rcases List.mem_cons.1 ((insertWrite_perm w l).mem_iff.1 hy) with rfl | hy
      · omega
      · exact hx y hy

/-- R98: the writes are ordered by instruction index. -/
theorem orderWrites_sorted (l : List StoreWrite) : (orderWrites l).Pairwise fun a b => a.index ≤ b.index := by
  induction l with
  | nil => exact .nil
  | cons w l ih => exact insertWrite_sorted ih

theorem applyWrite_readByte (s : State) (m : Memory) (w : StoreWrite) {a : Nat}
    (h : ∀ j, cellOf s.params w.addr = some j → a < 8 * j ∨ 8 * j + 8 ≤ a) : (applyWrite s m w).readByte a = m.readByte a := by
  unfold applyWrite memWrite
  cases hc : cellOf s.params w.addr with
  | none => rfl
  | some j => exact readByte_writeCell_outside m w.data (h j hc)

theorem raceWrite_readByte (s : State) (ws : List StoreWrite) (m : Memory) (j : Nat) {a : Nat}
    (h : ∀ w ∈ ws, ∀ i, cellOf s.params w.addr = some i → a < 8 * i ∨ 8 * i + 8 ≤ a) : (raceWrite s ws m j).readByte a = m.readByte a := by
  unfold raceWrite
  split
  · rfl
  · next w rest he =>
    have hw := mem_writesTo.1 (he ▸ List.mem_cons_self .. : w ∈ writesTo s ws j)
    exact readByte_writeCell_outside m _ (h w hw.1 j hw.2)

/-- R122: a byte outside the cells the writes select reads as before, under either policy. -/
theorem applyWrites_readByte (s : State) (ws : List StoreWrite) {a : Nat}
    (h : ∀ w ∈ ws, ∀ j, cellOf s.params w.addr = some j → a < 8 * j ∨ 8 * j + 8 ≤ a) :
    (applyWrites s ws).readByte a = s.mem.readByte a := by
  unfold applyWrites
  split
  · have : ∀ (l : List StoreWrite) (m : Memory), (∀ w ∈ l, w ∈ ws) → (l.foldl (applyWrite s) m).readByte a = m.readByte a := by
      intro l
      induction l with
      | nil => exact fun _ _ => rfl
      | cons w l ih =>
        intro m hl
        exact (ih _ fun x hx => hl x (List.mem_cons_of_mem _ hx)).trans (applyWrite_readByte s m w (h w (hl w (List.mem_cons_self ..))))
    exact this _ _ fun w hw => (orderWrites_perm ws).mem_iff.1 hw
  · generalize List.range s.params.nMem = l
    have : ∀ (l : List Nat) (m : Memory), (l.foldl (raceWrite s ws) m).readByte a = m.readByte a := by
      intro l
      induction l with
      | nil => exact fun _ => rfl
      | cons j l ih => exact fun m => (ih _).trans (raceWrite_readByte s ws m j h)
    exact this _ _

/-- R122: a cell no write selects reads as before. -/
theorem applyWrites_readCell_other (s : State) (ws : List StoreWrite) {j : Nat} (h : ∀ w ∈ ws, cellOf s.params w.addr ≠ some j) :
    (applyWrites s ws).readCell j = s.mem.readCell j := by
  refine readCell_congr fun b hb => applyWrites_readByte s ws fun w hw i hi => ?_
  have : i ≠ j := by rintro rfl; exact h w hw hi
  omega

theorem applyWrite_readCell {s : State} {m : Memory} (hm : m.wf) (w : StoreWrite) (j : Nat) :
    (applyWrite s m w).readCell j = if cellOf s.params w.addr = some j then w.data else m.readCell j := by
  unfold applyWrite memWrite
  cases hc : cellOf s.params w.addr with
  | none => rfl
  | some i =>
    by_cases h : i = j
    · subst h; simpa using readCell_writeCell_same hm i w.data
    · simpa [h] using readCell_writeCell_other m w.data (Ne.symm h)

/-- R98: writes one after another leave a cell with the data of the last one that selects it. -/
theorem foldl_applyWrite_readCell (s : State) (l : List StoreWrite) {m : Memory} (hm : m.wf) (j : Nat) :
    (l.foldl (applyWrite s) m).readCell j =
      match (l.filter fun w => decide (cellOf s.params w.addr = some j)).getLast? with
      | some w => w.data
      | none => m.readCell j := by
  induction l generalizing m with
  | nil => rfl
  | cons w l ih =>
    rw [List.foldl_cons, ih (applyWrite_wf s m w hm), applyWrite_readCell hm]
    by_cases h : cellOf s.params w.addr = some j
    · rw [List.filter_cons_of_pos (by simpa using h), if_pos h, List.getLast?_cons]
      cases (l.filter fun w => decide (cellOf s.params w.addr = some j)).getLast? <;> rfl
    · rw [List.filter_cons_of_neg (by simpa using h), if_neg h]

/-- R50, R98, `Snapshot`: a cell the batch writes ends with the data of a write to it that no write to it comes after in program order. -/
theorem applyWrites_snapshot {s : State} (hp : s.params.policy = .snapshot) (hm : s.mem.wf) {ws : List StoreWrite} {j : Nat}
    (h : ∃ w ∈ ws, cellOf s.params w.addr = some j) :
    ∃ w ∈ ws, cellOf s.params w.addr = some j ∧ (∀ x ∈ ws, cellOf s.params x.addr = some j → x.index ≤ w.index) ∧
      (applyWrites s ws).readCell j = w.data := by
  unfold applyWrites
  rw [hp]
  simp only
  rw [foldl_applyWrite_readCell s _ hm]
  have hmem : ∀ x, x ∈ (orderWrites ws).filter (fun w => decide (cellOf s.params w.addr = some j)) ↔
      x ∈ ws ∧ cellOf s.params x.addr = some j := by
    intro x
    rw [List.mem_filter, (orderWrites_perm ws).mem_iff, decide_eq_true_eq]
  have hsort := List.Pairwise.filter (fun w => decide (cellOf s.params w.addr = some j)) (orderWrites_sorted ws)
  cases hl : ((orderWrites ws).filter fun w => decide (cellOf s.params w.addr = some j)).getLast? with
  | none =>
    obtain ⟨w, hw⟩ := h
    have := (hmem w).2 hw
    rw [List.getLast?_eq_none_iff.1 hl] at this
    cases this
  | some w =>
    obtain ⟨ys, hys⟩ := List.getLast?_eq_some_iff.1 hl
    have hw := (hmem w).1 (by rw [hys]; simp)
    refine ⟨w, hw.1, hw.2, fun x hx hc => ?_, rfl⟩
    have hx' := (hmem x).2 ⟨hx, hc⟩
    rw [hys] at hx' hsort
    rcases List.mem_append.1 hx' with hx' | hx'
    · exact (List.pairwise_append.1 hsort).2.2 x hx' w (by simp)
    · rw [List.mem_singleton.1 hx']

theorem raceWrite_readCell {s : State} {ws : List StoreWrite} {m : Memory} (hm : m.wf) (j : Nat) :
    (∀ i, i ≠ j → (raceWrite s ws m j).readCell i = m.readCell i) ∧
    ((∃ w ∈ ws, cellOf s.params w.addr = some j) →
      ∃ w ∈ ws, cellOf s.params w.addr = some j ∧ (raceWrite s ws m j).readCell j = w.data) := by
  unfold raceWrite
  split
  · next he =>
    refine ⟨fun _ _ => rfl, ?_⟩
    rintro ⟨w, hw⟩
    have := mem_writesTo.2 hw
    rw [he] at this
    cases this
  · next w rest he =>
    refine ⟨fun i hi => readCell_writeCell_other m _ hi, fun _ => ?_⟩
    generalize hn : Config.freeCellChoice s.draws j % (rest.length + 1) = n
    have hlt : n < (w :: rest).length := by
      rw [← hn, List.length_cons]; exact Nat.mod_lt _ (Nat.succ_pos _)
    have hmem := mem_writesTo.1 (show (w :: rest)[n] ∈ writesTo s ws j by rw [he]; exact List.getElem_mem hlt)
    refine ⟨(w :: rest)[n], hmem.1, hmem.2, ?_⟩
    rw [readCell_writeCell_same hm]
    rw [List.getD_eq_getElem?_getD, List.getElem?_map, List.getElem?_eq_getElem hlt]
    rfl

/-- R50, `Race`: a cell the batch writes ends with the data of one of the writes to it. -/
theorem applyWrites_race {s : State} (hp : s.params.policy = .race) (hm : s.mem.wf) {ws : List StoreWrite} {j : Nat} (hj : j < s.params.nMem)
    (h : ∃ w ∈ ws, cellOf s.params w.addr = some j) :
    ∃ w ∈ ws, cellOf s.params w.addr = some j ∧ (applyWrites s ws).readCell j = w.data := by
  unfold applyWrites
  rw [hp]
  simp only
  have key : ∀ (l : List Nat) (m : Memory), l.Nodup → m.wf →
      (j ∉ l → (l.foldl (raceWrite s ws) m).readCell j = m.readCell j) ∧
      (j ∈ l → ∃ w ∈ ws, cellOf s.params w.addr = some j ∧ (l.foldl (raceWrite s ws) m).readCell j = w.data) := by
    intro l
    induction l with
    | nil => exact fun m _ _ => ⟨fun _ => rfl, fun h => by cases h⟩
    | cons i l ih =>
      intro m hn hw
      obtain ⟨hi, hn⟩ := List.nodup_cons.1 hn
      obtain ⟨r1, r2⟩ := ih (raceWrite s ws m i) hn (raceWrite_wf s ws m i hw)
      obtain ⟨q1, q2⟩ := raceWrite_readCell (s := s) (ws := ws) hw i
      refine ⟨fun hnot => ?_, fun hmem => ?_⟩
      · simp only [List.mem_cons, not_or] at hnot
        exact (r1 hnot.2).trans (q1 j hnot.1)
      · rcases List.mem_cons.1 hmem with rfl | hmem
        · obtain ⟨w, hw1, hw2, hw3⟩ := q2 h
          exact ⟨w, hw1, hw2, (r1 hi).trans hw3⟩
        · exact r2 hmem
  exact (key _ _ List.nodup_range hm).2 (List.mem_range.2 hj)

end Sys2Proof.Machine
end

