-- ==== Sys2Proof/Laws/Step.lean ====
section
/-! SUPPORT. What a step can do (R80), said once; and that each stage keeps the representation of State (`State.Wf`). -/

namespace Sys2Proof.Machine

/-! ### A step and its cycle -/

/-- R80, R81: a step does nothing, or runs the rest of the cycle after Issue did nothing or filled a slot. -/
theorem step_next_cases {s t : State} (h : step s = .next t) :
    (s.status ≠ .run ∧ t = s) ∨
    (s.status = .run ∧ s.prog.length ≤ s.next ∧ t = finishCycle (tick s)) ∨
    (s.status = .run ∧ ∃ i, s.recordAt s.next = some i ∧ s.poolFull (poolOf i.op) ∧ t = finishCycle (tick s)) ∨
    (s.status = .run ∧ ∃ i, s.recordAt s.next = some i ∧ ¬ s.poolFull (poolOf i.op) ∧
      ∃ x ∈ s.slots, x.head.busy = false ∧ x.id.pool = poolOf i.op ∧ ∃ u, IssuedInto (tick s) i x.id u ∧ t = finishCycle u) := by
  by_cases hs : s.status = .run
  · have hstep : step s = runCycle s := by unfold step stepBlock; rw [hs]
    rw [hstep, runCycle] at h
    cases hf : fetch s with
    | none =>
      rw [hf] at h
      cases h
      exact .inr (.inl ⟨hs, List.getElem?_eq_none_iff.1 hf, rfl⟩)
    | some w =>
      rw [hf] at h
      simp only at h
      cases hd : decodeRecord s.params.nFpr w with
      | none => rw [hd] at h; cases h
      | some i =>
        rw [hd] at h
        have hrec : s.recordAt s.next = some i := by
          unfold State.recordAt; rw [show s.prog[s.next]? = some w from hf]; exact hd
        simp only [cycleWith] at h
        rcases exec_cases i (tick s) with ⟨hfull, he⟩ | ⟨hfull, x, hx, hb, hp, u, he, hi⟩
        · rw [he] at h
          cases h
          exact .inr (.inr (.inl ⟨hs, i, hrec, hfull, rfl⟩))
        · rw [he] at h
          cases h
          exact .inr (.inr (.inr ⟨hs, i, hrec, hfull, x, hx, hb, hp, u, hi, rfl⟩))
  · refine .inl ⟨hs, ?_⟩
    have hstep : step s = .next s := by
      unfold step stepBlock
      cases hc : s.status <;> first | rfl | exact absurd hc hs
    rw [hstep] at h
    cases h
    rfl

/-- The rest of a cycle after Issue commits a batch and checks completion, or faults. -/
theorem finishCycle_cases (u : State) :
    ((executeStage u).AccessesInRange ∧ finishCycle u = completionCheck (commitBatch (executeStage u))) ∨
    (∃ b, (executeStage u).faultingAccess = some b ∧ finishCycle u = raiseMemRange b.1 b.2 (executeStage u)) := by
  unfold finishCycle
  rcases writebackStage_cases (executeStage u) with ⟨hr, he⟩ | ⟨b, hb, he⟩
  · exact .inl ⟨hr, by rw [he]⟩
  · exact .inr ⟨b, hb, by rw [he]; simp [completionCheck, raiseMemRange]⟩

theorem finishCycle_of_not_fault {u : State} (h : (finishCycle u).status ≠ .fault) :
    (executeStage u).AccessesInRange ∧ finishCycle u = completionCheck (commitBatch (executeStage u)) := by
  rcases finishCycle_cases u with h' | ⟨b, -, he⟩
  · exact h'
  · rw [he] at h; exact absurd rfl h

/-- The fields of State that an issue leaves alone, and those it sets. -/
theorem IssuedInto.fields {s t : State} {i : Instr} {q : SlotId} (h : IssuedInto s i q t) :
    t.params = s.params ∧ t.clk = s.clk ∧ t.status = s.status ∧ t.faultCode = s.faultCode ∧ t.faultInfo = s.faultInfo ∧
    t.prog = s.prog ∧ t.fpr = s.fpr ∧ t.gpr = s.gpr ∧ t.mem = s.mem ∧ t.draws = s.draws ∧ t.next = s.next + 1 ∧
    t.stamps = s.stamps.set s.next { s.stamp s.next with iss := some s.clk } ∧
    t.rrs = (match i.dest with
      | some fa => s.rrs.set fa.toNat (some q)
      | none => s.rrs) := by
  rw [h.shape]
  exact ⟨rfl, rfl, rfl, rfl, rfl, rfl, rfl, rfl, rfl, rfl, rfl, rfl, rfl⟩

/-! ### The representation is kept (R28, R36 item 1, R40) -/

theorem tick_wf {s : State} (h : s.Wf) : (tick s).Wf :=
  ⟨h.params, h.fpr, h.gpr, h.adds, h.muls, h.loads, h.stores, h.rrs, h.stamps, h.memCanonical, h.memInside⟩

theorem IssuedInto.wf {s t : State} {i : Instr} {q : SlotId} (h : IssuedInto s i q t) (hw : s.Wf) : t.Wf := by
  obtain ⟨h1, -, -, -, -, h6, h7, h8, h9, -, -, h12, h13⟩ := h.fields
  refine ⟨by rw [h1]; exact hw.params, by rw [h7, h1]; exact hw.fpr, by rw [h8, h1]; exact hw.gpr, by rw [h.adds, h1]; exact hw.adds,
    by rw [h.muls, h1]; exact hw.muls, by rw [h.loads, h1]; exact hw.loads, by rw [h.stores, h1]; exact hw.stores, ?_,
    by rw [h12, h6, List.length_set]; exact hw.stamps, by rw [h9]; exact hw.memCanonical, by rw [h9, h1]; exact hw.memInside⟩
  rw [h13, h1]
  split
  · rw [List.length_set]; exact hw.rrs
  · exact hw.rrs

theorem executeStage_wf {s : State} (h : s.Wf) : (executeStage s).Wf :=
  ⟨h.params, h.fpr, h.gpr, by simp [executeStage, h.adds], by simp [executeStage, h.muls], by simp [executeStage, h.loads],
    by simp [executeStage, h.stores], h.rrs, by rw [executeStage_stamps_length]; exact h.stamps, h.memCanonical, h.memInside⟩

theorem commitBatch_wf {s : State} (h : s.Wf) : (commitBatch s).Wf := by
  obtain ⟨l1, l2, l3, l4⟩ := deliveredBatch_lists s
  refine ⟨by simpa using h.params, ?_, by simpa using h.gpr, ?_, ?_, ?_, ?_, ?_, by rw [commitBatch_stamps_length]; simpa using h.stamps,
    by simpa using applyWrites_wf s s.queuedWrites h.memCanonical, by simpa using applyWrites_inside s s.queuedWrites h.memInside⟩
  · simp [commitBatch, recordWriteback, h.fpr]
  · rw [commitBatch_params, ← h.adds]
    show (releaseIn .add Station.free s.candidateSlots (deliveredBatch s).adds).length = _
    rw [l1]; simp [releaseIn]
  · rw [commitBatch_params, ← h.muls]
    show (releaseIn .mul Station.free s.candidateSlots (deliveredBatch s).muls).length = _
    rw [l2]; simp [releaseIn]
  · rw [commitBatch_params, ← h.loads]
    show (releaseIn .load LoadBuffer.free s.candidateSlots (deliveredBatch s).loads).length = _
    rw [l3]; simp [releaseIn]
  · rw [commitBatch_params, ← h.stores]
    show (releaseIn .store StoreBuffer.free s.candidateSlots (deliveredBatch s).stores).length = _
    rw [l4]; simp [releaseIn]
  · simp [commitBatch, recordWriteback, h.rrs]

/-- Memory built cell by cell is canonical and inside the cells. -/
theorem foldl_writeCell_wf (f : Nat → Word) (n : Nat) :
    Memory.wf ((List.range n).foldl (fun m j => m.writeCell j (f j)) []) ∧
    Memory.Inside ((List.range n).foldl (fun m j => m.writeCell j (f j)) []) (8 * n) := by
  have : ∀ (l : List Nat) (m : Memory), (∀ j ∈ l, j < n) → m.wf → m.Inside (8 * n) →
      Memory.wf (l.foldl (fun m j => m.writeCell j (f j)) m) ∧ Memory.Inside (l.foldl (fun m j => m.writeCell j (f j)) m) (8 * n) := by
    intro l
    induction l with
    | nil => exact fun m _ h1 h2 => ⟨h1, h2⟩
    | cons j l ih =>
      exact fun m hl h1 h2 => ih _ (fun i hi => hl i (List.mem_cons_of_mem _ hi)) (writeCell_wf h1 _ _)
        (writeCell_inside h2 (hl j (List.mem_cons_self ..)) _)
  exact this _ [] (fun j hj => List.mem_range.1 hj) ⟨.nil, fun _ h => by cases h⟩ fun _ h => by cases h

/-- R132: what a `MEM_RANGE` fault leaves unspecified keeps its shape. -/
theorem raiseMemRange_wf {s : State} (h : s.Wf) (k : Nat) (ea : Int) : (raiseMemRange k ea s).Wf := by
  obtain ⟨m1, m2⟩ := foldl_writeCell_wf (Config.anyCell s.draws) s.params.nMem
  refine ⟨h.params, ?_, ?_, ?_, ?_, ?_, ?_, ?_, ?_, m1, m2⟩ <;> simp [raiseMemRange, unspecified]

/-- R6, R132: a `MEM_RANGE` fault keeps the record count. -/
@[simp] theorem raiseMemRange_prog_length (k : Nat) (ea : Int) (s : State) : (raiseMemRange k ea s).prog.length = s.prog.length := by
  simp [raiseMemRange, raiseFault, unspecified]

theorem completionCheck_wf {s : State} (h : s.Wf) : (completionCheck s).Wf := by
  unfold completionCheck
  split_ifs
  · exact h
  · exact ⟨h.params, h.fpr, h.gpr, h.adds, h.muls, h.loads, h.stores, h.rrs, h.stamps, h.memCanonical, h.memInside⟩
  · exact ⟨h.params, h.fpr, h.gpr, h.adds, h.muls, h.loads, h.stores, h.rrs, h.stamps, h.memCanonical, h.memInside⟩
  · exact h

/-- The memory at reset is canonical. -/
theorem reset_mem_wf : State.reset.mem.wf := ⟨.nil, fun _ h => by cases h⟩

end Sys2Proof.Machine
end

