-- ==== Sys2Proof/Laws/Invariant.lean ====
section
/-! SUPPORT. The invariants of R22, R25, R33, R35 and R36 from stage to stage of a cycle: what holds between the stages, and that each stage keeps it. -/

namespace Sys2Proof.Machine

/-- How far the instruction in a busy slot has come, the countdown having last ticked in cycle `pc` (R87 to R92): what `State.Progress` says,
but for the write-back that the cycle may still bring. -/
abbrev State.Underway (s : State) (pc : Nat) (x : SlotView) (k : Nat) : Prop :=
  ((s.stamp k).exs = none → x.head.count = latency s.params x.head.op) ∧
  (∀ e ∈ (s.stamp k).exs, (s.stamp k).cmp = none → 1 ≤ x.head.count ∧ x.head.count + (pc - e) = latency s.params x.head.op) ∧
  ((s.stamp k).cmp ≠ none → x.head.count = 0) ∧
  (x.id.pool ≠ .store → x.waits ≠ [] → (s.stamp k).exs = none)

/-- R36: what holds between the stages of a cycle, and at its end: the clauses of `State.Coherent` that speak of no status, with
countdowns and start timestamps no later than cycle `pc`, the last one whose Execute has run. -/
structure State.Between (s : State) (pc : Nat) : Prop where
  nextLe : s.next ≤ s.prog.length
  records : s.prog.all (validRecord s.params.nFpr) = true
  issued : ∀ k < s.next, (s.stamp k).iss ≠ none
  notIssued : ∀ k < s.prog.length, s.next ≤ k → s.stamp k = Stamps.empty
  ordered : ∀ k < s.next, (s.stamp k).Ordered s.clk
  started : ∀ k < s.next, ∀ e ∈ (s.stamp k).exs, e ≤ pc
  latency : ∀ k < s.next, ∀ c ∈ (s.stamp k).cmp, ∃ e ∈ (s.stamp k).exs, ∃ i ∈ s.recordAt k, c = e + latency s.params i.op
  issueOrder : ∀ j < s.next, ∀ i < j, ∀ a ∈ (s.stamp i).iss, ∀ b ∈ (s.stamp j).iss, a < b
  occupies : ∀ k < s.next, (s.stamp k).wbk = none → ∃ x ∈ s.slots, x.head.busy = true ∧ x.head.instr = some k
  holds : ∀ x ∈ s.slots, x.head.busy = true → ∃ k < s.next, s.Holds x k ∧ s.Underway pc x k
  unique : ∀ x ∈ s.slots, ∀ y ∈ s.slots, x.head.busy = true → y.head.busy = true → x.head.instr = y.head.instr → x.id = y.id
  freeCleared : ∀ x ∈ s.slots, x.head.busy = false → x.cleared = true
  tags : ∀ x ∈ s.slots, ∀ q ∈ x.waits, ∃ y ∈ s.slots, y.id = q ∧ y.head.busy = true ∧ y.dest ≠ none ∧
    ∃ k ∈ x.head.instr, ∃ j ∈ y.head.instr, j < k
  rename : ∀ i : FReg, ∀ q ∈ s.readRRS i, ∃ y ∈ s.slots, y.id = q ∧ y.head.busy = true ∧ y.dest = some i ∧
    ∃ k ∈ y.head.instr, ¬ s.superseded k i
  latestNamed : ∀ y ∈ s.slots, y.head.busy = true → ∀ i ∈ y.dest, ∀ k ∈ y.head.instr,
    ¬ s.superseded k i → s.readRRS i = some y.id

/-- At the end of a cycle its own Execute is the last one. -/
theorem between_of_coherent {s : State} (h : s.Coherent) : s.Between s.clk := by
  refine ⟨h.nextLe, h.records, h.issued, h.notIssued, h.ordered, fun k hk e he => ?_, h.latency, h.issueOrder, h.occupies, fun x hx hb => ?_, h.unique, h.freeCleared, h.tags, h.rename, h.latestNamed⟩
  · obtain ⟨a, -, -, h2⟩ := (h.ordered k hk).2.1 e he; exact h2
  · obtain ⟨k, hk, h1, h2, h3, h4, h5, h6⟩ := h.holds x hx hb
    exact ⟨k, hk, h1, h2, h3, h4, h5⟩

theorem ordered_mono {t : Stamps} {a b : Nat} (h : t.Ordered a) (hab : a ≤ b) : t.Ordered b := by
  obtain ⟨h1, h2, h3, h4⟩ := h
  refine ⟨fun x hx => ?_, fun x hx => ?_, fun x hx => ?_, fun x hx => ?_⟩
  · have := h1 x hx; omega
  · obtain ⟨y, hy, h⟩ := h2 x hx; exact ⟨y, hy, by omega⟩
  · obtain ⟨y, hy, h⟩ := h3 x hx; exact ⟨y, hy, by omega⟩
  · obtain ⟨y, hy, h⟩ := h4 x hx; exact ⟨y, hy, by omega⟩

theorem between_tick {s : State} (h : s.Between s.clk) : State.Between (tick s) s.clk :=
  ⟨h.nextLe, h.records, h.issued, h.notIssued, fun k hk => ordered_mono (h.ordered k hk) (Nat.le_succ _), h.started, h.latency, h.issueOrder, h.occupies, h.holds, h.unique, h.freeCleared, h.tags, h.rename, h.latestNamed⟩

theorem between_busy_instr {s : State} {pc : Nat} (h : s.Between pc) {x : SlotView} (hx : x ∈ s.slots) (hb : x.head.busy = true) : ∃ k < s.next, x.head.instr = some k := by
  obtain ⟨k, hk, h1, -⟩ := h.holds x hx hb
  exact ⟨k, hk, h1.1⟩

/-- Issue into a free slot keeps it (R83 to R86). -/
theorem between_issue {s u : State} {i : Instr} {x : SlotView} (hw : s.Wf) (h : s.Between s.clk) (hi : s.recordAt s.next = some i) (hx : x ∈ s.slots)
    (hb : x.head.busy = false) (hp : x.id.pool = poolOf i.op) (hu : IssuedInto (tick s) i x.id u) : u.Between s.clk := by
  obtain ⟨f1, f2, f3, f4, f5, f6, f7, f8, f9, f10, f11, f12, f13⟩ := hu.fields
  have hlt : s.next < s.prog.length := by
    by_contra hn
    simp [State.recordAt, List.getElem?_eq_none (Nat.le_of_not_lt hn)] at hi
  have hsl : s.next < s.stamps.length := by rw [hw.stamps]; exact hlt
  have hrec : ∀ k, u.recordAt k = s.recordAt k := by intro k; simp [State.recordAt, f6, f1]
  have hdest : ∀ k, u.destAt k = s.destAt k := by intro k; simp [State.destAt, hrec]
  have hemp : s.stamp s.next = Stamps.empty := h.notIssued _ hlt (le_refl _)
  have hnew : u.stamp s.next = ⟨some (s.clk + 1), none, none, none⟩ := by
    have e : u.stamp s.next = { s.stamp s.next with iss := some (s.clk + 1) } := by
      simp only [State.stamp, f12, List.getD_eq_getElem?_getD]
      rw [show (tick s).next = s.next from rfl, show (tick s).stamps = s.stamps from rfl]
      simp [hsl]
    rw [e, hemp]
  have hold : ∀ k, k ≠ s.next → u.stamp k = s.stamp k := by
    intro k hk
    simp only [State.stamp, f12, List.getD_eq_getElem?_getD]
    rw [show (tick s).next = s.next from rfl, show (tick s).stamps = s.stamps from rfl]
    simp [Ne.symm hk]
  have hn1 : u.next = s.next + 1 := f11
  have hclk : u.clk = s.clk + 1 := f2
  have hlat : ∀ op, latency u.params op = latency s.params op := by intro op; rw [f1]; rfl
  have hslots : u.slots = s.slots.map fun y => if y.id = x.id then issuedView (tick s) i x.id else y := hu.slots
  have hmem : ∀ y ∈ u.slots, (y = issuedView (tick s) i x.id) ∨ (y ∈ s.slots ∧ y.id ≠ x.id) := by
    intro y hy
    rw [hslots] at hy
    obtain ⟨z, hz, rfl⟩ := List.mem_map.1 hy
    by_cases hzx : z.id = x.id
    · rw [if_pos hzx]; exact .inl rfl
    · rw [if_neg hzx]; exact .inr ⟨hz, hzx⟩
  have hin : issuedView (tick s) i x.id ∈ u.slots := by
    rw [hslots]; exact List.mem_map.2 ⟨x, hx, by simp⟩
  have hkeep : ∀ y ∈ s.slots, y.id ≠ x.id → y ∈ u.slots := by
    intro y hy hne; rw [hslots]; exact List.mem_map.2 ⟨y, hy, by simp [hne]⟩
  have hbusykeep : ∀ y ∈ s.slots, y.head.busy = true → y ∈ u.slots ∧ y.id ≠ x.id := by
    intro y hy hyb
    have : y.id ≠ x.id := by
      intro e; rw [slots_id_inj hy hx e, hb] at hyb; cases hyb
    exact ⟨hkeep y hy this, this⟩
  have nv : (issuedView (tick s) i x.id).id = x.id ∧ (issuedView (tick s) i x.id).head = ⟨true, i.op, some s.next, latency s.params i.op⟩ ∧
     (issuedView (tick s) i x.id).dest = i.dest ∧ (issuedView (tick s) i x.id).address = i.addressing ∧ (issuedView (tick s) i x.id).cleared = false ∧
     (issuedView (tick s) i x.id).waits = i.sources.flatMap fun f => (s.readRRS f).toList := ⟨rfl, rfl, rfl, rfl, rfl, rfl⟩
  obtain ⟨nv1, nv2, nv3, nv4, nv5, nv6⟩ := nv
  have hsup : ∀ k f, u.superseded k f ↔ (s.superseded k f ∨ (k < s.next ∧ i.dest = some f)) := by
    intro k f
    have hd : s.destAt s.next = i.dest := by simp [State.destAt, hi]
    constructor
    · rintro ⟨k', hk', h1, h2⟩
      rw [hdest] at h2
      by_cases e : k' = s.next
      · subst e; exact .inr ⟨h1, hd ▸ h2⟩
      · exact .inl ⟨k', by omega, h1, h2⟩
    · rintro (⟨k', hk', h1, h2⟩ | ⟨h1, h2⟩)
      · exact ⟨k', by omega, h1, by rw [hdest]; exact h2⟩
      · exact ⟨s.next, by omega, h1, by rw [hdest, hd]; exact h2⟩
  have hdr : ∀ fa, i.dest = some fa → fa.toNat < s.rrs.length := by
    intro fa hfa
    rw [hw.rrs]
    simp only [State.recordAt] at hi
    obtain ⟨w, hw1, hw2⟩ := Option.bind_eq_some_iff.1 hi
    simp only [decodeRecord] at hw2
    split at hw2
    · split at hw2
      · next hwf =>
        cases hw2
        simp only [Instr.wellFormed, List.all_eq_true, decide_eq_true_eq] at hwf
        exact hwf fa (by cases i <;> simp_all [Instr.dest, Instr.fpFields])
      · cases hw2
    · cases hw2
  have hr1 : ∀ fa, i.dest = some fa → u.readRRS fa = some x.id := by
    intro fa hfa
    have := hdr fa hfa
    simp only [State.readRRS, f13, hfa]
    rw [show (tick s).rrs = s.rrs from rfl]
    simp [this]
  have hr2 : ∀ f, i.dest ≠ some f → u.readRRS f = s.readRRS f := by
    intro f hf
    simp only [State.readRRS, f13]
    rw [show (tick s).rrs = s.rrs from rfl]
    split
    · next fa hfa =>
      have : fa.toNat ≠ f.toNat := fun e => hf (by rw [hfa, BitVec.eq_of_toNat_eq e])
      simp [List.getD_eq_getElem?_getD, this]
    · rfl
  constructor
  · rw [hn1, f6]; exact hlt
  · rw [f6, f1]; exact h.records
  · intro k hk
    by_cases e : k = s.next
    · subst e; rw [hnew]; simp
    · rw [hold k e]; exact h.issued k (by omega)
  · intro k hk hnk
    rw [f6] at hk
    rw [hold k (by omega)]; exact h.notIssued k hk (by omega)
  · intro k hk
    by_cases e : k = s.next
    · subst e; rw [hnew, hclk]; simp [Stamps.Ordered]
    · rw [hold k e, hclk]; exact ordered_mono (h.ordered k (by omega)) (Nat.le_succ _)
  · intro k hk e he
    by_cases ee : k = s.next
    · subst ee; rw [hnew] at he; simp at he
    · rw [hold k ee] at he; exact h.started k (by omega) e he
  · intro k hk c hc
    by_cases ee : k = s.next
    · subst ee; rw [hnew] at hc; simp at hc
    · rw [hold k ee] at hc ⊢; rw [hrec, f1]; exact h.latency k (by omega) c hc
  · intro j hj a ha p hp' q hq
    by_cases ee : j = s.next
    · subst ee
      rw [hnew] at hq
      simp at hq
      rw [hold a (by omega)] at hp'
      have := (h.ordered a ha).1 p hp'
      omega
    · rw [hold j ee] at hq; rw [hold a (by omega)] at hp'
      exact h.issueOrder j (by omega) a ha p hp' q hq
  · intro k hk hwb
    by_cases ee : k = s.next
    · subst ee; exact ⟨_, hin, by rw [nv2], by rw [nv2]⟩
    · rw [hold k ee] at hwb
      obtain ⟨y, hy, hyb, hyk⟩ := h.occupies k (by omega) hwb
      exact ⟨y, (hbusykeep y hy hyb).1, hyb, hyk⟩
  · intro y hy hyb
    rcases hmem y hy with rfl | ⟨hy', hne⟩
    · refine ⟨s.next, by omega, ⟨by rw [nv2], by omega, by rw [hnew], ?_, by rw [nv2, nv1]; exact hp.symm, ?_, ?_⟩, ?_⟩
      · rw [hrec, hi, nv2]; rfl
      · rw [hdest, State.destAt, hi, nv3]; rfl
      · rw [hrec, hi, nv4]; rfl
      · rw [State.Underway, hnew, nv2, hlat]; simp
    · obtain ⟨k, hk, ⟨g1, g2, g3, g4, g5, g6, g7⟩, hpr⟩ := h.holds y hy' hyb
      refine ⟨k, by omega, ⟨g1, by omega, by rw [hold k (by omega)]; exact g3, by rw [hrec]; exact g4, g5, by rw [hdest]; exact g6, by rw [hrec]; exact g7⟩, ?_⟩
      rw [State.Underway, hold k (by omega), hlat]; exact hpr
  · intro y hy z hz hyb hzb he
    rcases hmem y hy with rfl | ⟨hy', hne⟩ <;> rcases hmem z hz with rfl | ⟨hz', hne'⟩
    · rfl
    · obtain ⟨k, hk, hk'⟩ := between_busy_instr h hz' hzb
      rw [nv2, hk'] at he; simp at he; omega
    · obtain ⟨k, hk, hk'⟩ := between_busy_instr h hy' hyb
      rw [nv2, hk'] at he; simp at he; omega
    · exact h.unique y hy' z hz' hyb hzb he
  · intro y hy hyb
    rcases hmem y hy with rfl | ⟨hy', hne⟩
    · rw [nv2] at hyb; cases hyb
    · exact h.freeCleared y hy' hyb
  · intro y hy q hq
    rcases hmem y hy with rfl | ⟨hy', hne⟩
    · rw [nv6] at hq
      obtain ⟨f, -, hf⟩ := List.mem_flatMap.1 hq
      have hf' : q ∈ s.readRRS f := by simpa using hf
      obtain ⟨z, hz, hzid, hzb, hzd, k, hk, -⟩ := h.rename f q hf'
      obtain ⟨k2, hk2, hk2'⟩ := between_busy_instr h hz hzb
      exact ⟨z, (hbusykeep z hz hzb).1, hzid, hzb, by rw [hzd]; simp, s.next, by rw [nv2]; rfl, k2, hk2', hk2⟩
    · obtain ⟨z, hz, hzid, hzb, hzd, hrest⟩ := h.tags y hy' q hq
      exact ⟨z, (hbusykeep z hz hzb).1, hzid, hzb, hzd, hrest⟩
  · intro f q hq
    by_cases hf : i.dest = some f
    · rw [hr1 f hf] at hq
      obtain rfl : x.id = q := by simpa using hq
      refine ⟨_, hin, nv1, by rw [nv2], by rw [nv3]; exact hf, s.next, by rw [nv2]; rfl, ?_⟩
      rw [hsup]
      rintro (⟨k', h1, h2, -⟩ | ⟨h1, -⟩) <;> omega
    · rw [hr2 f hf] at hq
      obtain ⟨z, hz, hzid, hzb, hzd, k, hk, hns⟩ := h.rename f q hq
      refine ⟨z, (hbusykeep z hz hzb).1, hzid, hzb, hzd, k, hk, ?_⟩
      rw [hsup]
      rintro (h1 | ⟨-, h1⟩)
      · exact hns h1
      · exact hf h1
  · intro y hy hyb f hf k hk hns
    rcases hmem y hy with rfl | ⟨hy', hne⟩
    · rw [nv3] at hf; rw [nv1]; exact hr1 f hf
    · rw [hsup, not_or] at hns
      obtain ⟨k2, hk2, hk2'⟩ := between_busy_instr h hy' hyb
      have : k = k2 := by rw [Option.mem_def, hk2'] at hk; simpa using hk.symm
      subst this
      have hdf : i.dest ≠ some f := fun e => hns.2 ⟨hk2, e⟩
      rw [hr2 f hdf]
      exact h.latestNamed y hy' hyb f hf k hk hns.1

/-- Execute keeps it, and becomes the last one (R89 to R92). -/
theorem between_execute {s : State} {pc : Nat} (hclk : s.clk = pc + 1) (hl : s.stamps.length = s.prog.length) (hlat1 : ∀ op, 1 ≤ latency s.params op) (h : s.Between pc) : State.Between (executeStage s) s.clk := by
  have hsl : ∀ y ∈ (executeStage s).slots, ∃ x ∈ s.slots, y = s.executeView x := by
    intro y hy; rw [executeStage_slots] at hy; obtain ⟨x, hx, rfl⟩ := List.mem_map.1 hy; exact ⟨x, hx, rfl⟩
  have hin : ∀ x ∈ s.slots, s.executeView x ∈ (executeStage s).slots := fun x hx => by rw [executeStage_slots]; exact List.mem_map_of_mem hx
  have hrec : ∀ k, (executeStage s).recordAt k = s.recordAt k := fun _ => rfl
  have hu : s.UniqueOwners := h.unique
  have hlen : ∀ k < s.next, k < s.stamps.length := fun k hk => by rw [hl]; exact lt_of_lt_of_le hk h.nextLe
  have hst : ∀ k < s.next, (executeStage s).stamp k = s.stamp k ∨ ∃ x ∈ s.slots, s.EligibleSlot x k ∧ (executeStage s).stamp k = executeStamp s.clk x.head.count (s.stamp k) := by
    intro k hk
    by_cases he : ∃ x ∈ s.slots, s.EligibleSlot x k
    · obtain ⟨x, hx, he⟩ := he
      exact .inr ⟨x, hx, he, executeStage_stamp_eligible hu hx (hlen k hk) he⟩
    · push Not at he
      exact .inl (executeStage_stamp_other he)
  have hiss : ∀ k, ((executeStage s).stamp k).iss = (s.stamp k).iss := fun k => (executeStage_stamp_iss s k).1
  have hwbk : ∀ k, ((executeStage s).stamp k).wbk = (s.stamp k).wbk := fun k => (executeStage_stamp_iss s k).2
  have holdsE : ∀ x ∈ s.slots, ∀ k, s.EligibleSlot x k → k < s.next ∧ s.Holds x k ∧ s.Underway pc x k := by
    intro x hx k he
    obtain ⟨k', hk', h1, h2⟩ := h.holds x hx he.1
    obtain rfl : k = k' := Option.some.inj (he.2.1.symm.trans h1.1)
    exact ⟨hk', h1, h2⟩
  constructor
  · exact h.nextLe
  · exact h.records
  · intro k hk; rw [hiss]; exact h.issued k hk
  · intro k hk hnk
    rw [executeStage_stamp_other]
    · exact h.notIssued k hk hnk
    · intro x hx he
      have := (holdsE x hx k he).1
      have : s.next ≤ k := hnk
      omega
  · intro k hk
    rcases hst k hk with e | ⟨x, hx, he, e⟩
    · rw [e]; exact h.ordered k hk
    · rw [e]
      obtain ⟨o1, o2, o3, o4⟩ := h.ordered k hk
      obtain ⟨a, ha, halt⟩ := he.2.2.1
      have hcn := he.2.2.2.1
      unfold executeStamp
      cases hx' : (s.stamp k).exs with
      | none =>
        refine ⟨o1, fun y hy => ?_, fun y hy => ?_, o4⟩
        · simp at hy; subst hy; exact ⟨a, ha, halt, le_refl _⟩
        · simp [hcn] at hy
      | some v =>
        have hv := h.started k hk v hx'
        simp only
        split
        · refine ⟨o1, by rw [hx'] at o2; exact o2, fun y hy => ?_, fun y hy => ?_⟩
          · simp at hy; subst hy; exact ⟨v, rfl, by omega, le_refl _⟩
          · obtain ⟨c, hc, -⟩ := o4 y hy; rw [hcn] at hc; simp at hc
        · exact ⟨o1, o2, o3, o4⟩
  · intro k hk e he'
    show e ≤ s.clk
    rcases hst k hk with e' | ⟨x, hx, he, e'⟩
    · rw [e'] at he'; have := h.started k hk e he'; omega
    · rw [e'] at he'
      unfold executeStamp at he'
      cases hx' : (s.stamp k).exs with
      | none => rw [hx'] at he'; simp at he'; omega
      | some v =>
        rw [hx'] at he'
        have := h.started k hk v hx'
        simp only at he'
        split at he' <;> simp [hx'] at he' <;> omega
  · intro k hk c hc
    rcases hst k hk with e' | ⟨x, hx, he, e'⟩
    · rw [e'] at hc ⊢; exact h.latency k hk c hc
    · rw [e'] at hc ⊢
      have hcn := he.2.2.2.1
      unfold executeStamp at hc ⊢
      cases hx' : (s.stamp k).exs with
      | none => rw [hx'] at hc; simp [hcn] at hc
      | some v =>
        rw [hx'] at hc
        simp only at hc ⊢
        by_cases hz : x.head.count - 1 = 0
        · rw [if_pos hz] at hc ⊢
          simp at hc
          subst hc
          obtain ⟨-, hh, hp⟩ := holdsE x hx k he
          obtain ⟨i, hi⟩ : ∃ i, s.recordAt k = some i := by
            have := hh.2.2.2.1
            cases hr : s.recordAt k with
            | none => rw [hr] at this; cases this
            | some i => exact ⟨i, rfl⟩
          have hop : i.op = x.head.op := by have := hh.2.2.2.1; rw [hi] at this; simpa using this
          have hp2 := hp.2.1 v hx' hcn
          have hv := h.started k hk v hx'
          refine ⟨v, rfl, i, hi, ?_⟩
          show s.clk = v + latency s.params i.op
          rw [hop]
          omega
        · rw [if_neg hz] at hc; rw [hcn] at hc; simp at hc
  · intro j hj i hi a ha b hb
    rw [hiss] at ha hb; exact h.issueOrder j hj i hi a ha b hb
  · intro k hk hw
    rw [hwbk] at hw
    obtain ⟨x, hx, h1, h2⟩ := h.occupies k hk hw
    exact ⟨_, hin x hx, by simpa [State.executeView] using h1, by simpa [State.executeView] using h2⟩
  · intro y hy hb
    obtain ⟨x, hx, rfl⟩ := hsl y hy
    have hb' : x.head.busy = true := by simpa [State.executeView] using hb
    obtain ⟨k, hk, ⟨g1, g2, g3, g4, g5, g6, g7⟩, p1, p2, p3, p4⟩ := h.holds x hx hb'
    refine ⟨k, hk, ⟨by simpa [State.executeView] using g1, hk, by rw [hwbk]; exact g3, by rw [hrec, show (s.executeView x).head.op = x.head.op by simp [State.executeView]]; exact g4, by simpa [State.executeView] using g5, g6, g7⟩, ?_⟩
    have hop : (s.executeView x).head.op = x.head.op := by simp [State.executeView]
    have hlat : latency (executeStage s).params (s.executeView x).head.op = latency s.params x.head.op := by rw [hop]; rfl
    rw [State.Underway, hlat]
    have hid : (s.executeView x).id = x.id := rfl
    have hww : (s.executeView x).waits = x.waits := rfl
    rw [hid, hww]
    by_cases he : s.EligibleSlot x k
    · have hel := (eligibleSlot_iff s x).2 ⟨k, he⟩
      have e' := executeStage_stamp_eligible hu hx (hlen k hk) he
      have hcn := he.2.2.2.1
      cases hx' : (s.stamp k).exs with
      | none =>
        have ec : (s.executeView x).head = x.head := by simp [State.executeView, State.executeHead, g1, hx']
        have es : (executeStage s).stamp k = { s.stamp k with exs := some s.clk } := by rw [e']; simp [executeStamp, hx']
        rw [es, ec]
        have hc := p1 hx'
        have h1 : 1 ≤ x.head.count := by
          rw [hc]; exact hlat1 _
        refine ⟨fun hh => by simp at hh, fun e hee _ => ?_, fun hh => absurd hcn hh, fun a b => ?_⟩
        · simp at hee; subst hee; exact ⟨h1, by omega⟩
        · exact absurd (he.2.2.2.2 a) b
      | some v =>
        have ec : (s.executeView x).head.count = x.head.count - 1 := by simp [State.executeView, State.executeHead, hel, g1, hx']
        have hp := p2 v hx' hcn
        have hv := h.started k hk v hx'
        rw [e', ec]
        unfold executeStamp
        rw [hx']
        simp only
        split
        · next hz =>
          refine ⟨fun hh => by simp at hh, fun e _ hh => by simp at hh, fun _ => hz, fun a b => absurd (he.2.2.2.2 a) b⟩
        · next hz =>
          refine ⟨fun hh => by simp [hx'] at hh, fun e hee _ => ?_, fun hh => absurd hcn hh, fun a b => absurd (he.2.2.2.2 a) b⟩
          rw [hx'] at hee; simp at hee; subst hee
          omega
    · have hnel : s.eligible x.ready x.head = false := by
        by_contra hh
        obtain ⟨k', hk'⟩ := (eligibleSlot_iff s x).1 (by simpa using hh)
        obtain rfl : k' = k := Option.some.inj (hk'.2.1.symm.trans g1)
        exact he hk'
      have ec : s.executeView x = x := by simp [State.executeView, State.executeHead, hnel]
      have es : (executeStage s).stamp k = s.stamp k := by
        refine executeStage_stamp_other fun y hy hye => ?_
        have : y = x := slots_id_inj hy hx (hu y hy x hx hye.1 hb' (hye.2.1.trans g1.symm))
        subst this
        exact he hye
      rw [ec, es]
      refine ⟨p1, fun e hee hc => ?_, p3, p4⟩
      exfalso
      apply he
      obtain ⟨a, ha, hae, -⟩ := (h.ordered k hk).2.1 e hee
      have := h.started k hk e hee
      refine ⟨hb', g1, ⟨a, ha, by omega⟩, hc, fun hpool => ?_⟩
      by_contra hww
      rw [p4 hpool hww] at hee
      simp at hee
  · intro y hy z hz hyb hzb he
    obtain ⟨x, hx, rfl⟩ := hsl y hy
    obtain ⟨x', hx', rfl⟩ := hsl z hz
    exact h.unique x hx x' hx' (by simpa [State.executeView] using hyb) (by simpa [State.executeView] using hzb) (by simpa [State.executeView] using he)
  · intro y hy hb
    obtain ⟨x, hx, rfl⟩ := hsl y hy
    exact h.freeCleared x hx (by simpa [State.executeView] using hb)
  · intro y hy q hq
    obtain ⟨x, hx, rfl⟩ := hsl y hy
    obtain ⟨z, hz, h1, h2, h3, h4⟩ := h.tags x hx q hq
    exact ⟨_, hin z hz, h1, by simpa [State.executeView] using h2, h3, by simpa [State.executeView] using h4⟩
  · intro f q hq
    obtain ⟨z, hz, h1, h2, h3, h4⟩ := h.rename f q hq
    exact ⟨_, hin z hz, h1, by simpa [State.executeView] using h2, h3, by rw [show (s.executeView z).head.instr = z.head.instr by simp [State.executeView]]; exact h4⟩
  · intro y hy hb f hf k hk hs
    obtain ⟨x, hx, rfl⟩ := hsl y hy
    exact h.latestNamed x hx (by simpa [State.executeView] using hb) f hf k (by simpa [State.executeView] using hk) hs

/-- A committed batch keeps it (R97 to R101), and leaves no completed instruction of an earlier cycle but stores. -/
theorem between_commit {s : State} (hl : s.stamps.length = s.prog.length) (hr : s.AccessesInRange) (h : s.Between s.clk) :
    State.Between (commitBatch s) s.clk ∧ ∀ x ∈ (commitBatch s).slots, x.head.busy = true → x.id.pool ≠ .store → ∀ k ∈ x.head.instr, ∀ c ∈ ((commitBatch s).stamp k).cmp, c = s.clk := by
  have hlen : ∀ k < s.next, k < s.stamps.length := fun k hk => by rw [hl]; exact lt_of_lt_of_le hk h.nextLe
  have hu : s.UniqueOwners := h.unique
  have hrec : ∀ k, (commitBatch s).recordAt k = s.recordAt k := by intro k; simp [State.recordAt]
  have hdest : ∀ k, (commitBatch s).destAt k = s.destAt k := by intro k; simp [State.destAt, hrec]
  have hsup : ∀ k f, (commitBatch s).superseded k f ↔ s.superseded k f := by intro k f; simp only [State.superseded, commitBatch_next, hdest]
  have candH : ∀ x ∈ s.slots, ∀ k, s.CandidateSlot x k → k < s.next ∧ s.Holds x k := by
    intro x hx k he
    obtain ⟨k', hk', h1, h2⟩ := h.holds x hx he.1
    obtain rfl : k = k' := Option.some.inj (he.2.1.symm.trans h1.1)
    exact ⟨hk', h1⟩
  have hst : ∀ k, ((∀ x ∈ s.slots, ¬ s.CandidateSlot x k) ∧ (commitBatch s).stamp k = s.stamp k) ∨ ∃ x ∈ s.slots, s.CandidateSlot x k ∧ k < s.next ∧ (commitBatch s).stamp k = { s.stamp k with wbk := some s.clk } := by
    intro k
    by_cases he : ∃ x ∈ s.slots, s.CandidateSlot x k
    · obtain ⟨x, hx, he⟩ := he
      have := (candH x hx k he).1
      exact .inr ⟨x, hx, he, this, commitBatch_stamp_candidate hx he (hlen k this)⟩
    · push Not at he
      exact .inl ⟨he, commitBatch_stamp_other he⟩
  have h3 : ∀ k, ((commitBatch s).stamp k).iss = (s.stamp k).iss ∧ ((commitBatch s).stamp k).exs = (s.stamp k).exs ∧ ((commitBatch s).stamp k).cmp = (s.stamp k).cmp := by
    intro k; rcases hst k with ⟨-, e⟩ | ⟨x, -, -, -, e⟩ <;> rw [e] <;> exact ⟨rfl, rfl, rfl⟩
  have hsl : ∀ y ∈ (commitBatch s).slots, ∃ x ∈ s.slots, y = s.commitView x := by
    intro y hy; rw [commitBatch_slots] at hy; obtain ⟨x, hx, rfl⟩ := List.mem_map.1 hy; exact ⟨x, hx, rfl⟩
  have hin : ∀ x ∈ s.slots, s.commitView x ∈ (commitBatch s).slots := fun x hx => by rw [commitBatch_slots]; exact List.mem_map_of_mem hx
  have vfree : ∀ x, s.candidate x = true → s.commitView x = freeView x.id := by intro x hx; simp [State.commitView, hx]
  have vkeep : ∀ x, s.candidate x = false → (s.commitView x).id = x.id ∧ (s.commitView x).head = x.head ∧ (s.commitView x).dest = x.dest ∧ (s.commitView x).address = x.address ∧ (s.commitView x).cleared = x.cleared ∧
      (∀ q ∈ (s.commitView x).waits, q ∈ x.waits ∧ (x.head.busy = true → q ∉ s.broadcasts.map Broadcast.src)) := by
    intro x hx
    simp only [State.commitView, hx, Bool.false_eq_true, if_false]
    by_cases hb : x.head.busy = true
    · rw [if_pos hb]
      refine ⟨rfl, rfl, rfl, rfl, rfl, fun q hq => ?_⟩
      simp only [List.mem_filter, decide_eq_true_eq] at hq
      exact ⟨hq.1, fun _ => hq.2⟩
    · rw [if_neg hb]; exact ⟨rfl, rfl, rfl, rfl, rfl, fun q hq => ⟨hq, fun hh => absurd hh hb⟩⟩
  have busyv : ∀ x, (s.commitView x).head.busy = true → s.candidate x = false ∧ x.head.busy = true := by
    intro x hb
    by_cases hc : s.candidate x = true
    · rw [vfree x hc] at hb; simp at hb
    · have hc' : s.candidate x = false := by simpa using hc
      exact ⟨hc', by rw [(vkeep x hc').2.1] at hb; exact hb⟩
  have notcand : ∀ x ∈ s.slots, s.candidate x = false → x.head.busy = true → ∀ k, x.head.instr = some k → (∀ y ∈ s.slots, ¬ s.CandidateSlot y k) := by
    intro x hx hc hb k hk y hy hyc
    have : y = x := slots_id_inj hy hx (hu y hy x hx hyc.1 hb (hyc.2.1.trans hk.symm))
    subst this
    rw [(candidateSlot_iff s y).2 ⟨k, hyc⟩] at hc; cases hc
  have survive : ∀ x ∈ s.slots, x.head.busy = true → ∀ d, x.dest = some d → x.id ∉ s.broadcasts.map Broadcast.src → s.candidate x = false := by
    intro x hx hb d hd hn
    by_contra hc
    obtain ⟨b, hb1, hb2, -⟩ := candidate_broadcasts hr hx (by simpa using hc) hd
    exact hn (hb2 ▸ List.mem_map_of_mem hb1)
  refine ⟨?_, ?_⟩
  · constructor
    · simpa using h.nextLe
    · simpa using h.records
    · intro k hk; rw [(h3 k).1]; exact h.issued k (by simpa using hk)
    · intro k hk hn
      simp at hk hn
      rcases hst k with ⟨-, e⟩ | ⟨x, hx, he, hk', e⟩
      · rw [e]; exact h.notIssued k hk hn
      · omega
    · intro k hk
      simp at hk ⊢
      obtain ⟨o1, o2, o3, o4⟩ := h.ordered k hk
      rcases hst k with ⟨-, e⟩ | ⟨x, hx, he, hk', e⟩
      · rw [e]; exact ⟨o1, o2, o3, o4⟩
      · rw [e]
        obtain ⟨c, hc, hlt⟩ := he.2.2.1
        refine ⟨o1, o2, o3, fun w hw => ?_⟩
        simp at hw; subst hw; exact ⟨c, hc, hlt, le_refl _⟩
    · intro k hk e he
      rw [(h3 k).2.1] at he; exact h.started k (by simpa using hk) e he
    · intro k hk c hc
      rw [(h3 k).2.2] at hc; rw [(h3 k).2.1, hrec, commitBatch_params]; exact h.latency k (by simpa using hk) c hc
    · intro j hj i hi a ha b hb
      rw [(h3 i).1] at ha; rw [(h3 j).1] at hb
      exact h.issueOrder j (by simpa using hj) i hi a ha b hb
    · intro k hk hw
      simp at hk
      rcases hst k with ⟨hno, e⟩ | ⟨x, hx, he, hk', e⟩
      · rw [e] at hw
        obtain ⟨x, hx, hb, hi⟩ := h.occupies k hk hw
        have hc : s.candidate x = false := by
          by_contra hc
          obtain ⟨k', hk'⟩ := (candidateSlot_iff s x).1 (by simpa using hc)
          obtain rfl : k' = k := Option.some.inj (hk'.2.1.symm.trans hi)
          exact hno x hx hk'
        exact ⟨_, hin x hx, by rw [(vkeep x hc).2.1]; exact hb, by rw [(vkeep x hc).2.1]; exact hi⟩
      · rw [e] at hw; simp at hw
    · intro y hy hb
      obtain ⟨x, hx, rfl⟩ := hsl y hy
      obtain ⟨hc, hb'⟩ := busyv x hb
      obtain ⟨v1, v2, v3, v4, v5, v6⟩ := vkeep x hc
      obtain ⟨k, hk, ⟨g1, g2, g3, g4, g5, g6, g7⟩, p1, p2, p3, p4⟩ := h.holds x hx hb'
      have e := commitBatch_stamp_other (notcand x hx hc hb' k g1)
      refine ⟨k, by simpa using hk, ⟨by rw [v2]; exact g1, by simpa using hk, by rw [e]; exact g3, by rw [hrec, v2]; exact g4, by rw [v1, v2]; exact g5, by rw [hdest, v3]; exact g6, by rw [hrec, v4]; exact g7⟩, ?_⟩
      rw [State.Underway, e, v1, v2, commitBatch_params]
      refine ⟨p1, p2, p3, fun a b => p4 a ?_⟩
      intro hw
      apply b
      apply List.eq_nil_iff_forall_not_mem.2
      intro q hq
      have := (v6 q hq).1
      rw [hw] at this; cases this
    · intro y hy z hz hyb hzb he
      obtain ⟨x, hx, rfl⟩ := hsl y hy
      obtain ⟨x', hx', rfl⟩ := hsl z hz
      obtain ⟨hc, hb'⟩ := busyv x hyb
      obtain ⟨hc', hb''⟩ := busyv x' hzb
      rw [(vkeep x hc).2.1, (vkeep x' hc').2.1] at he
      rw [(vkeep x hc).1, (vkeep x' hc').1]
      exact h.unique x hx x' hx' hb' hb'' he
    · intro y hy hb
      obtain ⟨x, hx, rfl⟩ := hsl y hy
      by_cases hc : s.candidate x = true
      · rw [vfree x hc]; simp
      · have hc' : s.candidate x = false := by simpa using hc
        rw [(vkeep x hc').2.1] at hb
        rw [(vkeep x hc').2.2.2.2.1]
        exact h.freeCleared x hx hb
    · intro y hy q hq
      obtain ⟨x, hx, rfl⟩ := hsl y hy
      by_cases hc : s.candidate x = true
      · rw [vfree x hc] at hq; simp at hq
      · have hc' : s.candidate x = false := by simpa using hc
        obtain ⟨v1, v2, v3, v4, v5, v6⟩ := vkeep x hc'
        obtain ⟨hq1, hq2⟩ := v6 q hq
        have hb : x.head.busy = true := by
          by_contra hb
          have := eq_freeView hx (h.freeCleared x hx (by simpa using hb))
          rw [this] at hq1; simp at hq1
        obtain ⟨z, hz, z1, z2, z3, z4⟩ := h.tags x hx q hq1
        obtain ⟨d, hd⟩ := Option.ne_none_iff_exists'.1 z3
        have hzc := survive z hz z2 d hd (by rw [z1]; exact hq2 hb)
        obtain ⟨w1, w2, w3, -⟩ := vkeep z hzc
        exact ⟨_, hin z hz, by rw [w1]; exact z1, by rw [w2]; exact z2, by rw [w3]; exact z3, by rw [v2, w2]; exact z4⟩
    · intro f q hq
      by_cases hn : ∃ b ∈ s.broadcasts, b.dest = f ∧ s.readRRS f = some b.src
      · obtain ⟨b, hb, rfl, hr'⟩ := hn
        rw [(commitBatch_named s hb hr').1] at hq; simp at hq
      · push Not at hn
        rw [(commitBatch_unnamed s f fun b hb hh => hn b hb hh.1 hh.2).2] at hq
        obtain ⟨z, hz, z1, z2, z3, k, hk, hns⟩ := h.rename f q hq
        have hzc : s.candidate z = false := by
          by_contra hc
          obtain ⟨b, hb1, hb2, hb3⟩ := candidate_broadcasts hr hz (by simpa using hc) z3
          exact hn b hb1 hb3 (by rw [hb2, z1]; exact hq)
        obtain ⟨w1, w2, w3, -⟩ := vkeep z hzc
        exact ⟨_, hin z hz, by rw [w1]; exact z1, by rw [w2]; exact z2, by rw [w3]; exact z3, k, by rw [w2]; exact hk, by rw [hsup]; exact hns⟩
    · intro y hy hb f hf k hk hs
      obtain ⟨x, hx, rfl⟩ := hsl y hy
      obtain ⟨hc, hb'⟩ := busyv x hb
      obtain ⟨v1, v2, v3, v4, v5, v6⟩ := vkeep x hc
      rw [v3] at hf; rw [v2] at hk; rw [hsup] at hs; rw [v1]
      have := h.latestNamed x hx hb' f hf k hk hs
      rw [(commitBatch_unnamed s f fun b hb1 hh => ?_).2, this]
      have hsrc : b.src ∈ s.broadcasts.map Broadcast.src := List.mem_map_of_mem hb1
      obtain ⟨z, hz, hzc, hzid, -⟩ := (mem_broadcast_srcs hr).1 hsrc
      rw [this] at hh
      have : z = x := slots_id_inj hz hx (hzid.trans (Option.some.inj hh.2).symm)
      subst this
      rw [hzc] at hc; cases hc
  · intro y hy hb hp k hk c hc
    obtain ⟨x, hx, rfl⟩ := hsl y hy
    obtain ⟨hcand, hb'⟩ := busyv x hb
    obtain ⟨v1, v2, v3, v4, v5, v6⟩ := vkeep x hcand
    rw [v2] at hk; rw [v1] at hp
    obtain ⟨k', hk', ⟨g1, g2, g3, -⟩, -⟩ := h.holds x hx hb'
    obtain rfl : k' = k := Option.some.inj (g1.symm.trans hk)
    rw [(h3 k').2.2] at hc
    obtain ⟨e, -, -, hle⟩ := (h.ordered k' hk').2.2.1 c hc
    by_contra hne
    have : s.CandidateSlot x k' := ⟨hb', g1, ⟨c, hc, by omega⟩, g3, fun hh => absurd hh hp⟩
    rw [(candidateSlot_iff s x).2 ⟨k', this⟩] at hcand; cases hcand

/-- R104 by instruction index. -/
theorem complete_iff {s : State} : s.complete = true ↔ ∀ k < s.stamps.length, (s.stamp k).wbk ≠ none := by
  simp only [State.complete, List.all_eq_true, Option.isSome_iff_ne_none]
  constructor
  · intro h k hk
    have := h s.stamps[k] (List.getElem_mem hk)
    simpa [State.stamp, List.getD_eq_getElem?_getD, hk] using this
  · intro h t ht
    obtain ⟨k, hk, rfl⟩ := List.mem_iff_getElem.1 ht
    simpa [State.stamp, List.getD_eq_getElem?_getD, hk] using h k hk

/-- R5: every latency is at least 1. -/
theorem latency_pos {p : Config.Params} (h : p.wf) (op : Op) : 1 ≤ latency p op := by
  obtain ⟨-, -, h1, h2, h3, h4, h5⟩ := h
  cases op <;> assumption

/-- What holds between the stages, with the status set, is what holds at the end of a cycle. -/
theorem coherent_of_between {s : State} (h : s.Between s.clk) (h5 : ∀ x ∈ s.slots, x.head.busy = true → x.id.pool ≠ .store → ∀ k ∈ x.head.instr, ∀ c ∈ (s.stamp k).cmp, c = s.clk)
   (r1 : s.status = .run → s.complete = false) (r2 : s.status = .done → s.complete = true) (r3 : s.status = .capHalt → s.complete = false ∧ s.params.cap ≤ s.clk) (r4 : s.status = .run → s.clk < s.params.cap ∨ s.clk = 0) : s.Coherent := by
  refine ⟨h.nextLe, h.records, h.issued, h.notIssued, h.ordered, h.latency, h.issueOrder, h.occupies, fun x hx hb => ?_, h.unique, h.freeCleared, h.tags, h.rename, h.latestNamed, r1, r2, r3, r4⟩
  obtain ⟨k, hk, h1, p1, p2, p3, p4⟩ := h.holds x hx hb
  exact ⟨k, hk, h1, p1, p2, p3, p4, fun hp c hc => h5 x hx hb hp k h1.1 c hc⟩

end Sys2Proof.Machine
end

