-- ==== Sys2Proof/Laws/PerInstr.lean ====
section
/-! SUPPORT. The statements made per instruction: `OpCode`, that the op field of an instruction's word is its operation's code (R61, R62). -/

namespace Sys2Proof.Laws.OpCode

/-- R61, R62: `IR[2:0]` of the instruction's word is the code of its operation. -/
def Statement (i : Instr) : Prop := Word.opField (encode i) = i.op.code

theorem ld (fa : FReg) (base : IReg) (off : Offset) : Statement (.ld fa base off) := opField_encode _

theorem sd (fa : FReg) (base : IReg) (off : Offset) : Statement (.sd fa base off) := opField_encode _

theorem addD (fa fb fc : FReg) : Statement (.addD fa fb fc) := opField_encode _

theorem subD (fa fb fc : FReg) : Statement (.subD fa fb fc) := opField_encode _

theorem mulD (fa fb fc : FReg) : Statement (.mulD fa fb fc) := opField_encode _

theorem divD (fa fb fc : FReg) : Statement (.divD fa fb fc) := opField_encode _

end Sys2Proof.Laws.OpCode
end

