-- ==== Sys2Proof/Tests/Slice0.lean ====
section
/-! SUPPORT. Tests against words and values written out in the spec (30_encoding.md, 95_test_vectors.md), the smoke test of WellFormed, and for every statement with hypotheses a witness that meets them. -/

namespace Sys2Proof.Tests

open Sys2Proof.Machine

/-! ### WellFormed: an ill-formed term for each check is refused (R68, with `N_FPR = 8`) -/

theorem test_wellFormed_accepts : (Instr.ld 7 31 (-1)).wellFormed 8 = true ∧ (Instr.addD 7 7 7).wellFormed 8 = true := by decide
theorem test_wellFormed_ld : (Instr.ld 8 0 0).wellFormed 8 = false := by decide
theorem test_wellFormed_sd : (Instr.sd 8 0 0).wellFormed 8 = false := by decide
theorem test_wellFormed_destination : (Instr.addD 8 0 0).wellFormed 8 = false ∧ (Instr.subD 8 0 0).wellFormed 8 = false := by decide
theorem test_wellFormed_first_source : (Instr.mulD 0 8 0).wellFormed 8 = false ∧ (Instr.divD 0 8 0).wellFormed 8 = false := by decide
theorem test_wellFormed_second_source : (Instr.addD 0 0 8).wellFormed 8 = false ∧ (Instr.divD 0 0 8).wellFormed 8 = false := by decide

/-! ### Decoding: words of 95_test_vectors.md V4 and V5 -/

/-- `L.D F6,8(R1)` and `L.D F30,-1(R31)`. -/
theorem test_decode_ld : decode 0x0000000800100300 = .ok (.ld 3 1 8) ∧ decode 0xFFFFFFFF01F00F00 = .ok (.ld 15 31 (-1)) := by decide
/-- `S.D F6,0(R3)` and `S.D F2,-8(R0)`. -/
theorem test_decode_sd : decode 0x0000000000300301 = .ok (.sd 3 3 0) ∧ decode 0xFFFFFFF800000101 = .ok (.sd 1 0 (-8)) := by decide
/-- `ADD.D F6,F8,F2` and `ADD.D F30,F30,F30`. -/
theorem test_decode_addD : decode 0x0000000000014302 = .ok (.addD 3 4 1) ∧ decode 0x00000000000FFF02 = .ok (.addD 15 15 15) := by decide
/-- `SUB.D F8,F6,F2`. -/
theorem test_decode_subD : decode 0x0000000000013403 = .ok (.subD 4 3 1) := by decide
/-- `MUL.D F0,F2,F4`. -/
theorem test_decode_mulD : decode 0x0000000000021004 = .ok (.mulD 0 1 2) := by decide
/-- `DIV.D F10,F0,F6`. -/
theorem test_decode_divD : decode 0x0000000000030505 = .ok (.divD 5 0 3) := by decide
/-- V5, each row by name. -/
theorem test_decode_rejects_by_name :
    decode 0x0000000000000007 = .error .illegalOp ∧ decode 0x0000000002000000 = .error .reservedBits ∧
    decode 0x0000000000010001 = .error .unusedField ∧ decode 0x0000000000100002 = .error .unusedField ∧
    decode 0x0000000100000004 = .error .unusedField := by decide
/-- Encoding gives the spec's words back (V4). -/
theorem test_encode_words : encode (.ld 0 0 12) = 0x0000000C00000000 ∧ encode (.sd 1 0 0) = 0x0000000000000101 ∧
    encode (.divD 5 0 3) = 0x0000000000030505 := by decide
theorem test_decodeTableWord : decodeTableWord 64 0x0000000800100300 = some (.ld 3 1 8) ∧ decodeTableWord 64 6 = none := by decide
/-- R60, R65: an abstract record with a missing or a surplus field is no instruction. -/
theorem test_record_fields : Record.instr? ⟨some .ld, some 0, none, none, some 1, some 8⟩ = some (.ld 0 1 8) ∧
    Record.instr? ⟨some .ld, some 0, none, none, none, some 8⟩ = none ∧
    Record.instr? ⟨some .addD, some 0, some 1, some 2, some 3, none⟩ = none := by decide

/-! ### Arithmetic: the rows of 95_test_vectors.md V15, with a draw of 0 -/

theorem test_fadd_rows :
    fadd 0 0x3FB999999999999A 0x3FC999999999999A = 0x3FD3333333333334 ∧ isNaN (fadd 0 0x7FF0000000000000 0xFFF0000000000000) = true ∧
    fadd 0 0x4008000000000000 0xC008000000000000 = 0 ∧ fadd 0 0x8000000000000000 0x8000000000000000 = 0x8000000000000000 ∧
    fadd 0 0x7FE1CCF385EBC8A0 0x7FE1CCF385EBC8A0 = 0x7FF0000000000000 := by decide +kernel
theorem test_fsub_rows :
    fsub 0 0x4010000000000000 0x4008000000000000 = 0x3FF0000000000000 ∧ fsub 0 0x4008000000000000 0x4010000000000000 = 0xBFF0000000000000 ∧
    fsub 0 0x4014000000000000 0x4014000000000000 = 0 ∧ isNaN (fsub 0 0x7FF0000000000000 0x7FF0000000000000) = true := by decide +kernel
theorem test_fmul_rows :
    fmul 0 0x4008000000000000 0x4008000000000000 = 0x4022000000000000 ∧ fmul 0 0x8000000000000000 0x4014000000000000 = 0x8000000000000000 ∧
    isNaN (fmul 0 0 0x7FF0000000000000) = true ∧ fmul 0 0x7FE1CCF385EBC8A0 0x4024000000000000 = 0x7FF0000000000000 ∧
    fmul 0 1 0x3FE0000000000000 = 0 ∧ fmul 0 1 0x3FE8000000000000 = 1 := by decide +kernel
theorem test_fdiv_rows :
    fdiv 0 0x4022000000000000 0x4010000000000000 = 0x4002000000000000 ∧ fdiv 0 0x4014000000000000 0 = 0x7FF0000000000000 ∧
    fdiv 0 0x4014000000000000 0x8000000000000000 = 0xFFF0000000000000 ∧ isNaN (fdiv 0 0 0) = true ∧
    isNaN (fdiv 0 0x7FF0000000000000 0x7FF0000000000000) = true ∧ fdiv 0 0x3FF0000000000000 0x7FF0000000000000 = 0 := by decide +kernel

/-- R110, infinite operands as IEEE 754 gives them: -inf + 3, 3 + -inf, inf - -inf, 3 - inf, -inf * 3, -inf * -inf, inf / -3, inf / -0. -/
theorem test_infinite_operands :
    fadd 0 0xFFF0000000000000 0x4008000000000000 = 0xFFF0000000000000 ∧ fadd 0 0x4008000000000000 0xFFF0000000000000 = 0xFFF0000000000000 ∧
    fsub 0 0x7FF0000000000000 0xFFF0000000000000 = 0x7FF0000000000000 ∧ fsub 0 0x4008000000000000 0x7FF0000000000000 = 0xFFF0000000000000 ∧
    fmul 0 0xFFF0000000000000 0x4008000000000000 = 0xFFF0000000000000 ∧ fmul 0 0xFFF0000000000000 0xFFF0000000000000 = 0x7FF0000000000000 ∧
    fdiv 0 0x7FF0000000000000 0xC008000000000000 = 0xFFF0000000000000 ∧ fdiv 0 0x7FF0000000000000 0x8000000000000000 = 0xFFF0000000000000 := by
  decide +kernel

/-! ### The states of the tests -/

/-- A block right after construction with the defaults (R150). -/
def block (prog : List Instr) : State := construct ⟨Config.Params.default, prog.map encode, none, none, none⟩

/-- One instruction of each kind. -/
def sixKinds : State := block [.ld 0 0 8, .sd 1 0 0, .addD 2 3 4, .subD 5 6 7, .mulD 8 9 10, .divD 11 12 13]

/-- The start of the Writeback stage of cycle 50: one finished instruction of each op, and an `ADD.D` and an `S.D` that wait for
their results. -/
def finished : State :=
  { block [.ld 0 0 8, .sd 1 0 0, .addD 2 3 4, .subD 5 6 7, .mulD 8 9 10, .divD 11 12 13, .addD 14 2 8, .sd 0 0 24] with
    clk := 50
    next := 8
    stamps := [⟨some 1, some 2, some 4, none⟩, ⟨some 2, some 3, some 4, none⟩, ⟨some 3, some 4, some 6, none⟩,
      ⟨some 4, some 5, some 7, none⟩, ⟨some 5, some 6, some 16, none⟩, ⟨some 6, some 7, some 47, none⟩,
      ⟨some 7, none, none, none⟩, ⟨some 8, some 9, some 10, none⟩]
    adds := [⟨⟨true, .addD, some 2, 0⟩, 0x3FF0000000000000, none, 0x3FF0000000000000, none, 2⟩,
      ⟨⟨true, .subD, some 3, 0⟩, 0x4010000000000000, none, 0x4008000000000000, none, 5⟩,
      ⟨⟨true, .addD, some 6, 2⟩, 0, some ⟨.add, 0⟩, 0, some ⟨.mul, 0⟩, 14⟩]
    muls := [⟨⟨true, .mulD, some 4, 0⟩, 0x4008000000000000, none, 0x4008000000000000, none, 8⟩,
      ⟨⟨true, .divD, some 5, 0⟩, 0x4022000000000000, none, 0x4010000000000000, none, 11⟩]
    loads := [⟨⟨true, .ld, some 0, 0⟩, 0, 8, 0⟩, LoadBuffer.free]
    stores := [⟨⟨true, .sd, some 1, 0⟩, 0, 0, 0x4022000000000000, none⟩, ⟨⟨true, .sd, some 7, 0⟩, 0, 24, 0, some ⟨.load, 0⟩⟩]
    rrs := [some ⟨.load, 0⟩, none, some ⟨.add, 0⟩, none, none, some ⟨.add, 1⟩, none, none, some ⟨.mul, 0⟩, none, none, some ⟨.mul, 1⟩,
      none, none, some ⟨.add, 2⟩, none]
    mem := Memory.writeCell [] 1 0x4008000000000000 }

/-- `finished` with the load's address out of range (R41: 64 is the first such address). -/
def beyond : State := { finished with loads := [⟨⟨true, .ld, some 0, 0⟩, 0, 64, 0⟩, LoadBuffer.free] }

/-- `finished` under the `Race` policy, the load and the store on one cell. -/
def racing : State :=
  { finished with params := { Config.Params.default with policy := .race }, loads := [⟨⟨true, .ld, some 0, 0⟩, 0, 7, 0⟩, LoadBuffer.free] }

/-- `finished` with the `DIV.D` still running and one operand of each waiting slot waiting for it. -/
def pending : State :=
  { finished with
    stamps := finished.stamps.set 5 ⟨some 6, some 7, none, none⟩
    adds := finished.adds.set 2 ⟨⟨true, .addD, some 6, 2⟩, 0, some ⟨.add, 0⟩, 0, some ⟨.mul, 1⟩, 14⟩
    stores := finished.stores.set 1 ⟨⟨true, .sd, some 7, 0⟩, 0, 24, 0, some ⟨.mul, 1⟩⟩ }

/-- The start of Execute in cycle 3: an `ADD.D` not yet started, an `S.D` on its last tick. -/
def executing : State :=
  { block [.sd 1 0 0, .addD 2 3 4] with
    clk := 3
    next := 2
    stamps := [⟨some 1, some 2, none, none⟩, ⟨some 2, none, none, none⟩]
    adds := [⟨⟨true, .addD, some 1, 2⟩, 0x3FF0000000000000, none, 0x3FF0000000000000, none, 2⟩, Station.free, Station.free]
    stores := [⟨⟨true, .sd, some 0, 1⟩, 0, 0, 0x3FF0000000000000, none⟩, StoreBuffer.free]
    rrs := (List.replicate 16 none).set 2 (some ⟨.add, 0⟩) }

/-- The end of cycle 4: an `L.D F0,8(R0)` of a cell that holds 3.0 and an `S.D` of 9.0 to cell 0 write back in the next cycle. -/
def aboutToWrite : State :=
  { block [.ld 0 0 8, .sd 1 0 0] with
    clk := 4
    next := 2
    stamps := [⟨some 1, some 2, some 4, none⟩, ⟨some 2, some 3, some 4, none⟩]
    loads := [⟨⟨true, .ld, some 0, 0⟩, 0, 8, 0⟩, LoadBuffer.free]
    stores := [⟨⟨true, .sd, some 1, 0⟩, 0, 0, 0x4022000000000000, none⟩, StoreBuffer.free]
    rrs := (List.replicate 16 none).set 0 (some ⟨.load, 0⟩)
    mem := Memory.writeCell [] 1 0x4008000000000000 }

/-- The same block with another register file and another batch policy. -/
def otherData : State := { aboutToWrite with fpr := List.replicate 16 0, params := { Config.Params.default with policy := .race } }

/-- A block whose four pools are all full. -/
def full : State :=
  { sixKinds with
    adds := List.replicate 3 { Station.free with head := ⟨true, .addD, some 0, 1⟩ }
    muls := List.replicate 2 { Station.free with head := ⟨true, .mulD, some 0, 1⟩ }
    loads := List.replicate 2 { LoadBuffer.free with head := ⟨true, .ld, some 0, 1⟩ }
    stores := List.replicate 2 { StoreBuffer.free with head := ⟨true, .sd, some 0, 1⟩ } }

/-- A running block whose first record is the invalid word of V5. -/
def invalidAtNext : State := loadRecord State.reset 6

/-- The result of a step, for the tests. -/
def after (s : State) : State :=
  match step s with
  | .next t => t
  | _ => s

theorem sixKinds_wf : sixKinds.Wf := by constructor <;> decide +kernel

theorem finished_wf : finished.Wf := by constructor <;> decide +kernel

theorem racing_wf : racing.Wf := by constructor <;> decide +kernel

theorem sixKinds_inv : sixKinds.Inv := ⟨sixKinds_wf, by decide, fun _ => by constructor <;> decide +kernel⟩

theorem aboutToWrite_inv : aboutToWrite.Inv where
  wf := by constructor <;> decide +kernel
  statusWf := by decide
  coherent _ := by constructor <;> decide +kernel

/-! ### One step of each instruction -/

/-- V16: `R[0] + 8` is cell 1, the load's value is its bits unchanged (R120). -/
theorem test_ld_writes_back : (writebackStage finished).readF 0 = 0x4008000000000000 ∧ (writebackStage finished).readRRS 0 = none := by
  decide +kernel
/-- R85, R120: the buffer holds base and offset, not an address. -/
theorem test_ld_issues : ((after (block [.ld 3 1 8])).loads.map fun x => (x.head.busy, x.base, x.off, x.dest)) =
    [(true, 1, 8, 3), (false, 0, 0, 0)] := by decide +kernel
/-- R121: the store's data reaches cell 0, and no other cell. -/
theorem test_sd_writes_back : (writebackStage finished).mem.readCell 0 = 0x4022000000000000 ∧
    (writebackStage finished).mem.readCell 3 = Config.one := by decide +kernel
/-- R86, R121: a store claims no register. -/
theorem test_sd_issues : (after (block [.sd 3 1 8])).rrs = List.replicate 16 none := by decide +kernel
/-- V15: 1.0 + 1.0 = 2.0, forwarded to the waiting `ADD.D` (R100). -/
theorem test_addD_writes_back : (writebackStage finished).readF 2 = 0x4000000000000000 ∧
    ((writebackStage finished).adds.map fun x => (x.vj, x.qj)) = [(0, none), (0, none), (0x4000000000000000, none)] := by decide +kernel
/-- R86: the destination's entry names station 0 of pool `Add`. -/
theorem test_addD_issues : (after (block [.addD 2 3 4])).readRRS 2 = some ⟨.add, 0⟩ := by decide +kernel
/-- V15: 4.0 - 3.0 = 1.0. -/
theorem test_subD_writes_back : (writebackStage finished).readF 5 = 0x3FF0000000000000 := by decide +kernel
/-- V15: 3.0 * 3.0 = 9.0. -/
theorem test_mulD_writes_back : (writebackStage finished).readF 8 = 0x4022000000000000 := by decide +kernel
/-- R83, R87: the countdown is loaded with `LAT_MUL`. -/
theorem test_mulD_issues : ((after (block [.mulD 2 3 4])).muls.map fun x => x.head.count) = [10, 0] := by decide +kernel
/-- V15: 9.0 / 4.0 = 2.25. -/
theorem test_divD_writes_back : (writebackStage finished).readF 11 = 0x4002000000000000 := by decide +kernel
/-- R83, R87: the countdown is loaded with `LAT_DIV`. -/
theorem test_divD_issues : ((after (block [.divD 2 3 4])).muls.map fun x => x.head.count) = [40, 0] := by decide +kernel
/-- R95: the store whose data is pending does not write back, and its data arrives (R100). -/
theorem test_pending_store_waits : ((writebackStage finished).stores.map fun x => (x.head.busy, x.vd, x.qd)) =
    [(false, 0, none), (true, 0x4008000000000000, none)] := by decide +kernel
/-- R132, R133. -/
theorem test_out_of_range : (writebackStage beyond).status = .fault ∧ (writebackStage beyond).faultInfo = some ⟨0, some 64⟩ := by decide +kernel
/-- The rows' words run as the first instruction after reset. -/
theorem test_withFetchWord : ((after (State.reset.withFetchWord 64 0x0000000000021004)).muls.map fun x => (x.head.op, x.head.busy)) =
    [(.mulD, true), (.ld, false)] ∧ (after (State.reset.withFetchWord 64 0x0000000000021004)).clk = 1 := by decide +kernel
theorem test_reset_mem : State.reset.mem.wf ∧ State.reset.mem.readCell 7 = 0x3FF0000000000000 := ⟨reset_mem_wf, by decide⟩
/-- R10, R105, R140: what the ports show. -/
theorem test_ports : { sixKinds with status := .capHalt }.unfinishedPort = some [0, 1, 2, 3, 4, 5] ∧ sixKinds.unfinishedPort = none ∧
    finished.snapshot.rrs.take 3 = [6, 0, 1] ∧ finished.snapshot.status = 0 := by decide +kernel

/-! ### Witnesses: states and operands that meet the hypotheses of each statement together -/

theorem witness_EncodeInvertsDecode : decode 0x0000000000021004 = .ok (.mulD 0 1 2) := by decide
/-- Each clause: a line of each shape, a line dropped for each reason, and a dropped line between two that are kept. -/
theorem witness_AssemblerContract :
    (['s', 'u', 'B', '.', 'd'].map Char.toUpper = mnemonicOf .subD ∧ (15 : Nat) < 16 ∧
      assembleLine ['s', 'u', 'B', '.', 'd'] [.fp (2 * 15), .fp (2 * 0), .fp (2 * 15)] = some (.subD 15 0 15)) ∧
    ((31 : Nat) < 32 ∧ assembleLine ['l', '.', 'd'] [.fp (2 * 15), .mem (-1) 31] = some (.ld 15 31 (-1))) ∧
    (['A', 'D', 'D'].map Char.toUpper ∉ [Op.ld, .sd, .addD, .subD, .mulD, .divD].map mnemonicOf ∧
      assembleLine ['A', 'D', 'D'] [.fp 0, .fp 2, .fp 4] = none) ∧
    (1 % 2 = 1 ∧ assembleLine (mnemonicOf .addD) [.fp 0, .fp 1, .fp 2] = none) ∧
    (30 < 32 ∧ assembleLine (mnemonicOf .sd) [.fp 32, .mem 0 0] = none) ∧
    (31 < 32 ∧ assembleLine (mnemonicOf .ld) [.fp 0, .mem 0 32] = none) ∧
    (-(2 ^ 31) - 1 < -(2 ^ 31) ∧ assembleLine (mnemonicOf .ld) [.fp 0, .mem (-(2 ^ 31) - 1) 0] = none) ∧
    assembleLine (mnemonicOf .sd) [.fp 0, .mem (2 ^ 31) 0] = none ∧
    assembleLine (mnemonicOf .mulD) [.fp 0, .fp 2] = none ∧ assembleLine (mnemonicOf .mulD) [.fp 0, .fp 2, .fp 4, .fp 6] = none ∧
    assembleLine (mnemonicOf .divD) [.fp 0, .fp 2, .other ['F']] = none ∧
    assemble [(mnemonicOf .divD, [.fp 10, .fp 0, .fp 6]), (['N', 'O', 'P'], []), (mnemonicOf .mulD, [.fp 0, .fp 2, .fp 4])] =
      [0x0000000000030505, 0x0000000000021004] := by decide
theorem witness_ConstructionRefusesInvalidRecord :
    ([0x0000000000021002, 6, 8] : List Word)[1]? = some 6 ∧ validRecord 16 6 = false ∧
    (∀ j < 1, ([0x0000000000021002, 6, 8] : List Word)[j]?.all (validRecord 16) = true) ∧
    (construct ⟨Config.Params.default, [0x0000000000021002, 6, 8], none, none, none⟩).faultInfo = some ⟨1, none⟩ := by decide +kernel
/-- The clauses of the defaults, of each supplied file at its last index, and of a program of valid records. -/
theorem witness_ConstructionResetValues :
    (15 : FReg).toNat < 16 ∧ (List.replicate 16 (7 : Word))[(15 : FReg).toNat]? = some 7 ∧ (31 : IReg).toNat < 32 ∧
    (List.replicate 32 (7 : Word))[(31 : IReg).toNat]? = some 7 ∧ (List.replicate 8 (7 : Word))[7]? = some 7 ∧
    ([] : List Word).all (validRecord 16) = true ∧ ([0x0000000000021002] : List Word).all (validRecord 16) = true := by decide
/-- Each of the three clauses: a block that is not running, one with `NEXT = N`, one with a record at `NEXT`. -/
theorem witness_CycleRunsStagesInOrder :
    State.reset.status ≠ .run ∧ (finished.status = .run ∧ finished.next = finished.prog.length) ∧
    (sixKinds.status = .run ∧ sixKinds.prog[sixKinds.next]? = some 0x0000000800000000 ∧
      decodeRecord sixKinds.params.nFpr 0x0000000800000000 = some (.ld 0 0 8)) := by decide
theorem witness_InvalidRecordIsNeverIssued :
    invalidAtNext.status = .run ∧ invalidAtNext.prog[invalidAtNext.next]? = some 6 ∧ validRecord invalidAtNext.params.nFpr 6 = false := by
  decide
theorem witness_ClockCountsCycles : step sixKinds = .next (after sixKinds) ∧ sixKinds.status = .run ∧ (after sixKinds).status ≠ .fault ∧
    step State.reset = .next State.reset ∧ State.reset.status ≠ .run := ⟨rfl, by decide, by decide +kernel, rfl, by decide⟩
/-- Each of the three clauses: a free slot, a full pool, no instruction left. -/
theorem witness_NextAdvancesOnlyByIssue :
    (step sixKinds = .next (after sixKinds) ∧ (after sixKinds).status ≠ .fault ∧ sixKinds.recordAt sixKinds.next = some (.ld 0 0 8) ∧
      ¬ sixKinds.poolFull (poolOf .ld)) ∧
    (step full = .next (after full) ∧ (after full).status ≠ .fault ∧ full.recordAt full.next = some (.ld 0 0 8) ∧ full.poolFull (poolOf .ld)) ∧
    (step finished = .next (after finished) ∧ (after finished).status ≠ .fault ∧ finished.prog.length ≤ finished.next) :=
  by refine ⟨⟨rfl, ?_⟩, ⟨rfl, ?_⟩, rfl, ?_⟩ <;> decide +kernel
theorem witness_FullPoolStallsIssue :
    full.poolFull (poolOf .ld) ∧ full.poolFull (poolOf .sd) ∧ full.poolFull (poolOf .addD) ∧ full.poolFull (poolOf .divD) ∧
    full.status = .run ∧ full.recordAt full.next = some (.ld 0 0 8) ∧ (finishCycle { full with clk := full.clk + 1 }).status ≠ .fault := by
  decide +kernel
theorem witness_AddSubIssue : sixKinds.Wf ∧ (15 : FReg).toNat < sixKinds.params.nFpr ∧ sixKinds.next < sixKinds.prog.length ∧
    firstFree Station.head sixKinds.adds = some 0 := ⟨sixKinds_wf, by decide⟩
theorem witness_MulDivIssue : sixKinds.Wf ∧ (15 : FReg).toNat < sixKinds.params.nFpr ∧ sixKinds.next < sixKinds.prog.length ∧
    firstFree Station.head sixKinds.muls = some 0 := ⟨sixKinds_wf, by decide⟩
theorem witness_LoadIssue : sixKinds.Wf ∧ (15 : FReg).toNat < sixKinds.params.nFpr ∧ sixKinds.next < sixKinds.prog.length ∧
    firstFree LoadBuffer.head sixKinds.loads = some 0 := ⟨sixKinds_wf, by decide⟩
theorem witness_StoreIssue : sixKinds.Wf ∧ sixKinds.next < sixKinds.prog.length ∧
    firstFree StoreBuffer.head sixKinds.stores = some 0 := ⟨sixKinds_wf, by decide⟩
theorem witness_IssueChangesOnlyIssueState : ∃ t, exec (.addD 2 3 4) sixKinds = .next t ∧ t ≠ sixKinds := ⟨_, rfl, by decide⟩
theorem witness_ExecutionStartConsumesNoTick :
    executing.UniqueOwners ∧ ∃ x ∈ executing.slots, x.head.op = .addD ∧ 1 < executing.stamps.length ∧ executing.EligibleSlot x 1 ∧
      (executing.stamp 1).exs = none := by decide +kernel
theorem witness_CountdownTicksToCompletion :
    executing.UniqueOwners ∧ ∃ x ∈ executing.slots, x.head.op = .sd ∧ 0 < executing.stamps.length ∧ executing.EligibleSlot x 0 ∧
      (executing.stamp 0).exs ≠ none := by decide +kernel
/-- In each pool a slot that is not eligible, and an instruction that no eligible slot holds. -/
theorem witness_ExecuteTouchesOnlyEligibleSlots :
    (∃ y, finished.adds[2]? = some y ∧ ∀ k, ¬ finished.EligibleSlot (stationView (⟨.add, 2⟩, y)) k) ∧
    (∃ y, finished.muls[1]? = some y ∧ ∀ k, ¬ finished.EligibleSlot (stationView (⟨.mul, 1⟩, y)) k) ∧
    (∃ y, finished.loads[1]? = some y ∧ ∀ k, ¬ finished.EligibleSlot (loadView (⟨.load, 1⟩, y)) k) ∧
    (∃ y, finished.stores[0]? = some y ∧ ∀ k, ¬ finished.EligibleSlot (storeView (⟨.store, 0⟩, y)) k) ∧
    (∀ x ∈ finished.slots, ¬ finished.EligibleSlot x 0) := by
  refine ⟨⟨_, rfl, not_eligibleSlot ?_⟩, ⟨_, rfl, not_eligibleSlot ?_⟩, ⟨_, rfl, not_eligibleSlot ?_⟩, ⟨_, rfl, not_eligibleSlot ?_⟩, ?_⟩ <;>
    decide +kernel
/-- Both clauses: an entry that names the broadcasting slot, and one that does not. -/
theorem witness_BroadcastGuardsRegisterUpdate :
    (2 : FReg).toNat < finished.fpr.length ∧ (2 : FReg).toNat < finished.rrs.length ∧
    finished.readRRS 2 = some ⟨.add, 0⟩ ∧ finished.readRRS 2 ≠ some ⟨.add, 1⟩ := by decide
theorem witness_BroadcastOrderIsIrrelevant :
    (([⟨⟨.add, 0⟩, 1, 2⟩, ⟨⟨.mul, 0⟩, 2, 2⟩] : List Broadcast).map Broadcast.src).Nodup ∧
    ([⟨⟨.add, 0⟩, 1, 2⟩, ⟨⟨.mul, 0⟩, 2, 2⟩] : List Broadcast).Perm [⟨⟨.mul, 0⟩, 2, 2⟩, ⟨⟨.add, 0⟩, 1, 2⟩] :=
  ⟨by decide, .swap ..⟩
/-- A candidate, an instruction that no candidate holds, in each pool a slot that does not write back, operands of such slots and a
rename entry that name a slot outside the batch. -/
theorem witness_EveryCandidateWritesBack :
    pending.AccessesInRange ∧ (∃ x ∈ pending.slots, pending.CandidateSlot x 0 ∧ 0 < pending.stamps.length) ∧
    (∀ x ∈ pending.slots, ¬ pending.CandidateSlot x 6) ∧
    (¬ pending.WritesBack ⟨.add, 2⟩ ∧ pending.adds[2]?.map Station.qk = some (some ⟨.mul, 1⟩)) ∧
    (¬ pending.WritesBack ⟨.mul, 1⟩ ∧ pending.muls[1]?.map Station.qj = some none) ∧
    (¬ pending.WritesBack ⟨.load, 1⟩ ∧ pending.loads[1]? = some LoadBuffer.free) ∧
    (¬ pending.WritesBack ⟨.store, 1⟩ ∧ pending.stores[1]?.map StoreBuffer.qd = some (some ⟨.mul, 1⟩)) ∧
    pending.readRRS 11 = some ⟨.mul, 1⟩ := by
  simp only [writesBack_iff]
  decide +kernel
/-- Both ops. -/
theorem witness_AddSubResultDelivered :
    finished.Wf ∧ finished.AccessesInRange ∧
    (∃ x, finished.adds[0]? = some x ∧ x.head.instr = some 2 ∧ 2 < finished.stamps.length ∧ x.dest.toNat < finished.params.nFpr ∧
      finished.writable x.head = true ∧ x.head.op = .addD) ∧
    (∃ x, finished.adds[1]? = some x ∧ x.head.instr = some 3 ∧ 3 < finished.stamps.length ∧ x.dest.toNat < finished.params.nFpr ∧
      finished.writable x.head = true ∧ x.head.op = .subD) :=
  ⟨finished_wf, by decide +kernel, ⟨_, rfl, by decide⟩, ⟨_, rfl, by decide⟩⟩
/-- Both ops. -/
theorem witness_MulDivResultDelivered :
    finished.Wf ∧ finished.AccessesInRange ∧
    (∃ x, finished.muls[0]? = some x ∧ x.head.instr = some 4 ∧ 4 < finished.stamps.length ∧ x.dest.toNat < finished.params.nFpr ∧
      finished.writable x.head = true ∧ x.head.op = .mulD) ∧
    (∃ x, finished.muls[1]? = some x ∧ x.head.instr = some 5 ∧ 5 < finished.stamps.length ∧ x.dest.toNat < finished.params.nFpr ∧
      finished.writable x.head = true ∧ x.head.op = .divD) :=
  ⟨finished_wf, by decide +kernel, ⟨_, rfl, by decide⟩, ⟨_, rfl, by decide⟩⟩
theorem witness_LoadResultDelivered :
    finished.Wf ∧ finished.AccessesInRange ∧ finished.params.policy = .snapshot ∧
    (∃ x, finished.loads[0]? = some x ∧ x.head.instr = some 0 ∧ 0 < finished.stamps.length ∧ x.dest.toNat < finished.params.nFpr ∧
      finished.writable x.head = true ∧ cellOf finished.params ((finished.readR x.base).toInt + x.off.toInt) = some 1) :=
  ⟨finished_wf, by decide +kernel, by decide, ⟨_, rfl, by decide⟩⟩
theorem witness_StoreWritesItsCell :
    finished.Wf ∧ finished.AccessesInRange ∧ finished.params.policy = .snapshot ∧
    (∃ x, finished.stores[0]? = some x ∧ x.head.instr = some 1 ∧ 1 < finished.stamps.length ∧ finished.writable x.head = true ∧ x.qd = none ∧
      cellOf finished.params ((finished.readR x.base).toInt + x.off.toInt) = some 0) ∧
    (∀ i < 2, i ≠ 0 → ∀ y ∈ finished.stores[i]?, y.qd ≠ none) :=
  ⟨finished_wf, by decide +kernel, by decide, ⟨_, rfl, by decide⟩, by decide⟩
/-- The last byte of cell 3, to which the store with pending data will go later. -/
theorem witness_WritebackChangesOnlyStoredCells :
    finished.AccessesInRange ∧ ∀ c ∈ finished.storeCandidates, ∀ j ∈ cellOf finished.params (effectiveAddress finished c.2.base c.2.off),
      31 < 8 * j ∨ 8 * j + 8 ≤ 31 := by decide +kernel
/-- All three clauses, on the cell that the load and the store share. -/
theorem witness_RaceChoosesAmongAllowedValues :
    racing.params.policy = .race ∧ cellOf racing.params 7 = some 0 ∧ loadValue racing racing.queuedWrites ⟨.load, 0⟩ 7 ≠ none ∧
    racing.Wf ∧ racing.AccessesInRange ∧ (∃ w ∈ racing.queuedWrites, cellOf racing.params w.addr = some 0) ∧
    (∃ x, racing.loads[0]? = some x ∧ x.head.instr = some 0 ∧ 0 < racing.stamps.length ∧ x.dest.toNat < racing.params.nFpr ∧
      racing.writable x.head = true ∧ cellOf racing.params ((racing.readR x.base).toInt + x.off.toInt) = some 0) := by
  have hc : cellOf racing.params 7 = some 0 := by decide
  refine ⟨by decide, hc, fun h => ?_, racing_wf, by decide +kernel, by decide +kernel, ⟨_, rfl, by decide⟩⟩
  obtain ⟨v, hv⟩ := loadValue_isSome (writes := racing.queuedWrites) (q := ⟨.load, 0⟩) (hc ▸ Option.some_ne_none 0)
  rw [h] at hv; cases hv
/-- The first and the last address in range, and the ones beside them. -/
theorem witness_AccessReachesItsCell :
    State.reset.mem.wf ∧ cellOf Config.Params.default 0 = some 0 ∧ cellOf Config.Params.default 63 = some 7 ∧
    cellOf Config.Params.default (-1) = none ∧ cellOf Config.Params.default 64 = none ∧
    (0 ≤ (63 : Int) ∧ (63 : Int) < (Config.Params.default.nMem * Config.Params.default.cellBytes : Nat)) := ⟨reset_mem_wf, by decide⟩
/-- Both clauses. -/
theorem witness_OutOfRangeAccessFaults :
    (∃ a ∈ beyond.accesses, cellOf beyond.params a.2 = none) ∧ finished.AccessesInRange := by decide +kernel
/-- Each of the three clauses, the cap at its boundary. -/
theorem witness_CompletionBeforeCap :
    (invalidAtNext.status = .run) ∧ (∀ k < { aboutToWrite with stamps := [] }.stamps.length, ({ aboutToWrite with stamps := [] }.stamp k).wbk ≠ none) ∧
    (∃ k < aboutToWrite.stamps.length, (aboutToWrite.stamp k).wbk = none) ∧
    { aboutToWrite with clk := 2000 }.params.cap ≤ { aboutToWrite with clk := 2000 }.clk ∧
    { aboutToWrite with clk := 1999 }.clk < { aboutToWrite with clk := 1999 }.params.cap ∧ aboutToWrite.status = .run := by decide
theorem witness_RecordsAndIntegersNeverChange : step sixKinds = .next (after sixKinds) ∧ (after sixKinds).status ≠ .fault :=
  ⟨rfl, by decide +kernel⟩
theorem witness_RegisterChangesOnlyByNamedBroadcast :
    aboutToWrite.Inv ∧ aboutToWrite.status = .run ∧ step aboutToWrite = .next (after aboutToWrite) ∧ (after aboutToWrite).status ≠ .fault ∧
    (after aboutToWrite).readF 0 ≠ aboutToWrite.readF 0 :=
  ⟨aboutToWrite_inv, by decide, rfl, by decide +kernel, by decide +kernel⟩
theorem witness_MemoryChangesOnlyByStoreWriteback :
    aboutToWrite.Inv ∧ aboutToWrite.status = .run ∧ step aboutToWrite = .next (after aboutToWrite) ∧ (after aboutToWrite).status ≠ .fault ∧
    (after aboutToWrite).mem.readCell 0 ≠ aboutToWrite.mem.readCell 0 :=
  ⟨aboutToWrite_inv, by decide, rfl, by decide +kernel, by decide +kernel⟩
/-- The first three timestamps are set before the step; the fourth is set in it. -/
theorem witness_TimestampsWrittenOnce :
    aboutToWrite.Inv ∧ step aboutToWrite = .next (after aboutToWrite) ∧ (after aboutToWrite).status ≠ .fault ∧
    (1 ∈ (aboutToWrite.stamp 0).iss ∧ 2 ∈ (aboutToWrite.stamp 0).exs ∧ 4 ∈ (aboutToWrite.stamp 0).cmp) ∧
    5 ∈ ((after aboutToWrite).stamp 0).wbk := ⟨aboutToWrite_inv, rfl, by decide +kernel, by decide, by decide +kernel⟩
theorem witness_ConstructionMeetsInvariant : Config.Params.default.wf := by decide
theorem witness_StepKeepsWellFormedness : finished.Wf ∧ step finished = .next (after finished) := ⟨finished_wf, rfl⟩
theorem witness_StepKeepsInvariant : aboutToWrite.Inv ∧ step aboutToWrite = .next (after aboutToWrite) := ⟨aboutToWrite_inv, rfl⟩
theorem witness_InvariantStatesNeverStop : sixKinds.Inv := sixKinds_inv
theorem witness_TimingIndependentOfData :
    SameTiming aboutToWrite otherData ∧ step aboutToWrite = .next (after aboutToWrite) ∧ step otherData = .next (after otherData) ∧
    (after aboutToWrite).status ≠ .fault ∧ (after otherData).status ≠ .fault :=
  ⟨⟨rfl, rfl, rfl, rfl, rfl, rfl, rfl, rfl, rfl, rfl, rfl⟩, rfl, rfl, by decide +kernel, by decide +kernel⟩
/-- The store of `aboutToWrite`'s program as the only instruction, issued next, with its source ready and the cap at the boundary. -/
def oneStore : State := construct ⟨{ Config.Params.default with cap := 4 }, [encode (.sd 1 0 0)], none, none, none⟩
/-- A one-cycle `MUL.D` issued next. -/
def oneMul : State := construct ⟨{ Config.Params.default with latMul := 1, cap := 4 }, [encode (.mulD 2 3 4)], none, none, none⟩
theorem oneStore_inv : oneStore.Inv where
  wf := by constructor <;> decide +kernel
  statusWf := by decide
  coherent _ := by constructor <;> decide +kernel
theorem oneMul_inv : oneMul.Inv where
  wf := by constructor <;> decide +kernel
  statusWf := by decide
  coherent _ := by constructor <;> decide +kernel
theorem witness_ReadyInstructionTiming :
    oneStore.Inv ∧ oneStore.status = .run ∧ oneStore.recordAt oneStore.next = some (.sd 1 0 0) ∧ ¬ oneStore.poolFull (poolOf .sd) ∧
    (∀ f ∈ Instr.sources (.sd 1 0 0), oneStore.readRRS f = none) ∧ oneStore.clk + latency oneStore.params .sd + 3 ≤ oneStore.params.cap ∧
    Sys2Proof.core.run (latency oneStore.params .sd + 3) oneStore = .next (after (after (after (after oneStore)))) ∧
    (after (after (after (after oneStore)))).status ≠ .fault :=
  ⟨oneStore_inv, by decide, by decide +kernel, by decide, by decide, by decide, rfl, by decide +kernel⟩
theorem witness_ReadyArithmeticResult :
    oneMul.Inv ∧ oneMul.status = .run ∧ oneMul.recordAt oneMul.next = some (.mulD 2 3 4) ∧
    (Op.mulD, Instr.mulD 2 3 4) ∈ [(Op.addD, Instr.addD 2 3 4), (Op.subD, .subD 2 3 4), (Op.mulD, .mulD 2 3 4), (Op.divD, .divD 2 3 4)] ∧
    ¬ oneMul.poolFull (poolOf .mulD) ∧ oneMul.readRRS 3 = none ∧ oneMul.readRRS 4 = none ∧
    oneMul.clk + latency oneMul.params .mulD + 3 ≤ oneMul.params.cap ∧
    Sys2Proof.core.run (latency oneMul.params .mulD + 3) oneMul = .next (after (after (after (after oneMul)))) ∧
    (after (after (after (after oneMul)))).status ≠ .fault ∧ ¬ (after (after (after (after oneMul)))).superseded oneMul.next 2 :=
  ⟨oneMul_inv, by decide, by decide +kernel, by decide, by decide, by decide, by decide, by decide, rfl, by decide +kernel, by decide +kernel⟩
theorem witness_EveryProgramCompletes :
    Config.Params.default.wf ∧ ([0x0000000000021004] : List Word).all (validRecord Config.Params.default.nFpr) = true ∧
    livenessBound Config.Params.default [0x0000000000021004] ≤ Config.Params.default.cap := by decide
/-- A finite and an infinite result. -/
theorem witness_RoundingIsNearestTiesToEven :
    isInf (roundToBinary64 true (2 ^ 53 + 1) 1) = false ∧ isFinite (roundToBinary64 true (2 ^ 53 + 1) 1) = true ∧
    isInf (roundToBinary64 true ((2 ^ 54 - 1) * 2 ^ 2044) 1) = true := by decide +kernel
/-- Finite operands with an infinite result, and ones with a tie that another value is equally near to. -/
theorem witness_AddSubCorrectlyRounded :
    (isFinite 0x7FE1CCF385EBC8A0 = true ∧ isInf (fadd 0 0x7FE1CCF385EBC8A0 0x7FE1CCF385EBC8A0) = true) ∧
    (isFinite 0x4340000000000000 = true ∧ isFinite 0xBFF0000000000000 = true ∧ isFinite 0x4340000000000001 = true ∧
      isInf (fsub 0 0x4340000000000000 0xBFF0000000000000) = false ∧
      signedValue 0x4340000000000001 ≠ signedValue (fsub 0 0x4340000000000000 0xBFF0000000000000) ∧
      (signedValue 0x4340000000000001 * 1 - (signedValue 0x4340000000000000 - signedValue 0xBFF0000000000000)).natAbs =
        (signedValue (fsub 0 0x4340000000000000 0xBFF0000000000000) * 1 -
          (signedValue 0x4340000000000000 - signedValue 0xBFF0000000000000)).natAbs) := by decide +kernel
/-- Finite operands with an infinite product, an underflow to 0, and a finite quotient by a value that is not 0. -/
theorem witness_MulDivCorrectlyRounded :
    (isFinite 0x7FE1CCF385EBC8A0 = true ∧ isFinite 0x4024000000000000 = true ∧ isInf (fmul 0 0x7FE1CCF385EBC8A0 0x4024000000000000) = true) ∧
    (isFinite 1 = true ∧ isFinite 0x3FE0000000000000 = true ∧ fmul 0 1 0x3FE0000000000000 = 0 ∧ signedValue 1 * signedValue 0x3FE0000000000000 ≠ 0) ∧
    (isFinite 0x4008000000000000 = true ∧ magnitude 0x4008000000000000 ≠ 0 ∧ isInf (fdiv 0 0x3FE0000000000000 0x4008000000000000) = false) := by
  decide +kernel
/-- A NaN, infinities of either sign, and zeros. -/
theorem witness_InvalidOperationsGiveSomeNaN :
    isNaN 0x7FF0000000000001 = true ∧ isInf 0x7FF0000000000000 = true ∧ isInf 0xFFF0000000000000 = true ∧
    fpSign 0x7FF0000000000000 ≠ fpSign 0xFFF0000000000000 ∧ isFinite 0x8000000000000000 = true ∧ magnitude 0x8000000000000000 = 0 := by decide
/-- A zero, infinities of either sign, and a value that is not 0. -/
theorem witness_SignedZerosAndInfinities :
    isFinite 0x4014000000000000 = true ∧ magnitude 0x4014000000000000 ≠ 0 ∧ isFinite 0x8000000000000000 = true ∧
    magnitude 0x8000000000000000 = 0 ∧ isInf 0xFFF0000000000000 = true ∧ isInf 0x7FF0000000000000 = true ∧
    fpSign 0xFFF0000000000000 ≠ fpSign 0x7FF0000000000000 := by decide +kernel
/-- The first slot and the last one. -/
theorem witness_TagCodesNameSlots :
    Config.Params.default.wf ∧ (⟨.add, 0⟩ : SlotId).idx < Pool.capacity Config.Params.default .add ∧
    (⟨.store, 1⟩ : SlotId).idx < Pool.capacity Config.Params.default .store := by decide

end Sys2Proof.Tests
end

/-! ### What no step changes: the parameters, the records and the integer registers (R6, R24, R27, R52) -/

namespace Sys2Proof.Machine

@[simp] theorem raiseMemRange_params (k : Nat) (ea : Int) (s : State) : (raiseMemRange k ea s).params = s.params := rfl

/-- R27: a register read depends on the integer register file alone. -/
theorem readR_congr {s t : State} (h : t.gpr = s.gpr) (i : IReg) : t.readR i = s.readR i := by
  unfold State.readR; rw [h]

/-- Log 1, log 8: the rest of a cycle keeps the parameters, even when it faults. -/
@[simp] theorem finishCycle_params (u : State) : (finishCycle u).params = u.params := by
  rcases finishCycle_cases u with ⟨-, he⟩ | ⟨b, -, he⟩ <;> simp [he]

/-- R6 (D23): the rest of a cycle keeps the record count, even when it faults. -/
@[simp] theorem finishCycle_prog_length (u : State) : (finishCycle u).prog.length = u.prog.length := by
  rcases finishCycle_cases u with ⟨-, he⟩ | ⟨b, -, he⟩ <;> simp [he]

/-- R24: the rest of a cycle changes no record, short of a fault. -/
theorem finishCycle_prog {u : State} (h : (finishCycle u).status ≠ .fault) : (finishCycle u).prog = u.prog := by
  simp [(finishCycle_of_not_fault h).2]

/-- R27, R52: the rest of a cycle changes no integer register, short of a fault. -/
theorem finishCycle_gpr {u : State} (h : (finishCycle u).status ≠ .fault) : (finishCycle u).gpr = u.gpr := by
  simp [(finishCycle_of_not_fault h).2]

/-- A step does nothing, or is the rest of a cycle from a state in which the clock and Issue have left the parameters, the
records and the integer registers alone (R80 to R86). -/
theorem step_next_finishCycle {s t : State} (h : step s = .next t) :
    t = s ∨ ∃ u, t = finishCycle u ∧ u.params = s.params ∧ u.prog = s.prog ∧ u.gpr = s.gpr := by
  rcases step_next_cases h with ⟨-, rfl⟩ | ⟨-, -, rfl⟩ | ⟨-, i, -, -, rfl⟩ | ⟨-, i, -, -, x, -, -, -, u, hu, rfl⟩
  · exact .inl rfl
  · exact .inr ⟨tick s, rfl, rfl, rfl, rfl⟩
  · exact .inr ⟨tick s, rfl, rfl, rfl, rfl⟩
  · obtain ⟨hparams, -, -, -, -, hprog, -, hgpr, -⟩ := hu.fields
    exact .inr ⟨u, rfl, hparams, hprog, hgpr⟩

/-- Settles O35: Issue leaves the three alone, and the rest of the cycle changes a record or an integer register only by a fault,
which keeps the parameters and the record count. -/
theorem recordsAndIntegersNeverChange : Obligations.RecordsAndIntegersNeverChange := by
  intro s t h
  rcases step_next_finishCycle h with rfl | ⟨u, rfl, hparams, hprog, hgpr⟩
  · exact ⟨rfl, rfl, fun _ => ⟨rfl, fun _ => rfl⟩⟩
  · refine ⟨by rw [finishCycle_params, hparams], by rw [finishCycle_prog_length, hprog], fun hf => ⟨?_, ?_⟩⟩
    · rw [finishCycle_prog hf, hprog]
    · exact readR_congr ((finishCycle_gpr hf).trans hgpr)

end Sys2Proof.Machine

/-! ### The cycle up to Writeback: what Issue leaves for Execute (R80 to R86) -/

namespace Sys2Proof.Machine

/-- There is a record at an index of the record store only. -/
theorem recordAt_lt {s : State} {k : Nat} {i : Instr} (h : s.recordAt k = some i) : k < s.prog.length := by
  obtain ⟨w, hw, -⟩ := Option.bind_eq_some_iff.1 h
  exact (List.getElem?_eq_some_iff.1 hw).1

/-- R80 to R86: `u` is what the clock and Issue make of `s`: Issue does nothing, or fills a free slot of its instruction's pool. -/
inductive IssueStage (s u : State) : Prop where
  | idle (hu : u = tick s)
  | fills (i : Instr) (x : SlotView) (hi : s.recordAt s.next = some i) (hx : x ∈ s.slots) (hfree : x.head.busy = false)
      (hpool : x.id.pool = poolOf i.op) (hu : IssuedInto (tick s) i x.id u)

/-- A step of a running block is Issue and the rest of the cycle; any other step does nothing (R21, R80). -/
theorem step_issueStage {s t : State} (h : step s = .next t) :
    (s.status ≠ .run ∧ t = s) ∨ (s.status = .run ∧ ∃ u, IssueStage s u ∧ t = finishCycle u) := by
  rcases step_next_cases h with h | ⟨hs, -, rfl⟩ | ⟨hs, i, -, -, rfl⟩ | ⟨hs, i, hi, -, x, hx, hb, hp, u, hu, rfl⟩
  · exact .inl h
  · exact .inr ⟨hs, _, .idle rfl, rfl⟩
  · exact .inr ⟨hs, _, .idle rfl, rfl⟩
  · exact .inr ⟨hs, u, .fills i x hi hx hb hp hu, rfl⟩

/-- A cycle that raises no fault commits its batch and checks completion (R80, R104). -/
theorem step_committed {s t : State} (hs : s.status = .run) (h : step s = .next t) (hf : t.status ≠ .fault) :
    ∃ u, IssueStage s u ∧ (executeStage u).AccessesInRange ∧ t = completionCheck (commitBatch (executeStage u)) := by
  obtain ⟨hn, -⟩ | ⟨-, u, hu, rfl⟩ := step_issueStage h
  · exact absurd hs hn
  · exact ⟨u, hu, finishCycle_of_not_fault hf⟩

namespace IssueStage

variable {s u : State}

/-- The clock and Issue leave everything else alone. -/
theorem frame (h : IssueStage s u) : IssueFrame (tick s) u := by
  cases h with
  | idle hu => subst hu; exact ⟨rfl, rfl, rfl, rfl, rfl, rfl, rfl, rfl, fun _ => rfl, rfl⟩
  | fills i x hi hx hfree hpool hu =>
    obtain ⟨hparams, hclk, hstatus, hcode, hinfo, hprog, hfpr, hgpr, hmem, hdraws, -⟩ := hu.fields
    exact ⟨hparams, hclk, hstatus, hcode, hinfo, hprog, hfpr, hgpr, fun _ => by rw [hmem], hdraws⟩

theorem wf (h : IssueStage s u) (hw : s.Wf) : u.Wf := by
  cases h with
  | idle hu => subst hu; exact tick_wf hw
  | fills i x hi hx hfree hpool hu => exact hu.wf (tick_wf hw)

theorem between (h : IssueStage s u) (hw : s.Wf) (hb : s.Between s.clk) : u.Between s.clk := by
  cases h with
  | idle hu => subst hu; exact between_tick hb
  | fills i x hi hx hfree hpool hu => exact between_issue hw hb hi hx hfree hpool hu

/-- Every slot is as before Issue, or holds the instruction that Issue has issued in this cycle (R83). -/
theorem slot_cases (h : IssueStage s u) (hw : s.Wf) {x : SlotView} (hx : x ∈ u.slots) :
    x ∈ s.slots ∨ x.head.instr = some s.next ∧ (u.stamp s.next).iss = some u.clk := by
  cases h with
  | idle hu => subst hu; exact .inl hx
  | fills i y hi hy hfree hpool hu =>
    rw [hu.slots] at hx
    obtain ⟨z, hz, rfl⟩ := List.mem_map.1 hx
    split
    · obtain ⟨-, hclk, -, -, -, -, -, -, -, -, -, hstamps, -⟩ := hu.fields
      have hlt : s.next < s.stamps.length := by rw [hw.stamps]; exact recordAt_lt hi
      exact .inr ⟨rfl, by simp [State.stamp, hstamps, hclk, hlt]⟩
    · exact .inl hz

/-- R25, R83: Issue writes the timestamps of the instruction it considers alone. -/
theorem stamp_other (h : IssueStage s u) {k : Nat} (hk : k ≠ s.next) : u.stamp k = s.stamp k := by
  cases h with
  | idle hu => subst hu; rfl
  | fills i x hi hx hfree hpool hu =>
    obtain ⟨-, -, -, -, -, -, -, -, -, -, -, hstamps, -⟩ := hu.fields
    simp [State.stamp, hstamps, List.getD_eq_getElem?_getD, Ne.symm hk]

/-- R86: Issue leaves an entry of the rename table, or makes it name a slot that was free. -/
theorem readRRS_cases (h : IssueStage s u) (f : FReg) :
    u.readRRS f = s.readRRS f ∨ ∃ x ∈ s.slots, x.head.busy = false ∧ u.readRRS f = some x.id := by
  cases h with
  | idle hu => subst hu; exact .inl rfl
  | fills i x hi hx hfree hpool hu =>
    obtain ⟨-, -, -, -, -, -, -, -, -, -, -, -, hrrs⟩ := hu.fields
    cases hd : i.dest with
    | none => rw [hd] at hrrs; exact .inl (by rw [State.readRRS, hrrs]; rfl)
    | some fa =>
      have hread : u.readRRS f = ((tick s).writeRRS fa (some x.id)).readRRS f := by
        rw [hd] at hrrs; rw [State.readRRS, hrrs]; rfl
      rw [hread]
      by_cases hf : f = fa
      · subst hf
        by_cases hlen : f.toNat < s.rrs.length
        · exact .inr ⟨x, hx, hfree, readRRS_writeRRS_same (s := tick s) hlen _⟩
        · exact .inl (by simp [State.readRRS, State.writeRRS, List.set_eq_of_length_le (Nat.le_of_not_lt hlen)])
      · exact .inl (readRRS_writeRRS_other (tick s) hf _)

/-- R36: at the start of Writeback the invariant of the stages holds, Execute of this cycle being the last one. -/
theorem between_execute (h : IssueStage s u) (hw : s.Wf) (hb : s.Between s.clk) :
    State.Between (executeStage u) (executeStage u).clk := by
  have huw := h.wf hw
  exact Machine.between_execute h.frame.clk huw.stamps (latency_pos huw.params) (h.between hw hb)

end IssueStage

/-! ### Every step keeps the representation (R28, R36 item 1, R40) -/

theorem finishCycle_wf {u : State} (h : u.Wf) : (finishCycle u).Wf := by
  have he := executeStage_wf h
  rcases finishCycle_cases u with ⟨-, hc⟩ | ⟨b, -, hc⟩ <;> rw [hc]
  · exact completionCheck_wf (commitBatch_wf he)
  · exact raiseMemRange_wf he b.1 b.2

/-- Settles O41: each stage keeps the representation, and so does a `MEM_RANGE` fault. -/
theorem stepKeepsWellFormedness : Obligations.StepKeepsWellFormedness := by
  intro s t hw h
  obtain ⟨-, rfl⟩ | ⟨-, u, hu, rfl⟩ := step_issueStage h
  · exact hw
  · exact finishCycle_wf (hu.wf hw)

/-! ### Every step keeps the invariant (R22, R25, R35, R36, R105) -/

/-- R104, R105: what the completion check of a running block finds, and the status it sets. -/
theorem completionCheck_cases {s : State} (h : s.status = .run) :
    (s.complete = true ∧ completionCheck s = { s with status := .done }) ∨
    (s.complete = false ∧ s.params.cap ≤ s.clk ∧ completionCheck s = { s with status := .capHalt }) ∨
    (s.complete = false ∧ s.clk < s.params.cap ∧ completionCheck s = s) := by
  have hnf : s.status ≠ .fault := by rw [h]; decide
  unfold completionCheck
  rw [if_neg hnf]
  by_cases hc : s.complete = true
  · exact .inl ⟨hc, if_pos hc⟩
  · rw [if_neg hc]
    by_cases hcap : s.params.cap ≤ s.clk
    · exact .inr (.inl ⟨by simpa using hc, hcap, if_pos hcap⟩)
    · exact .inr (.inr ⟨by simpa using hc, by omega, if_neg hcap⟩)

/-- The invariant of the stages speaks of no status. -/
theorem between_setStatus {s : State} {pc : Nat} (h : s.Between pc) (status : Status) :
    State.Between { s with status := status } pc :=
  ⟨h.nextLe, h.records, h.issued, h.notIssued, h.ordered, h.started, h.latency, h.issueOrder, h.occupies, h.holds, h.unique,
    h.freeCleared, h.tags, h.rename, h.latestNamed⟩

/-- The completion check makes the invariant of the stages, once no completed instruction but a store's is left over (R95), the
invariant of the end of a cycle. -/
theorem coherent_completionCheck {s : State} (hrun : s.status = .run) (h : s.Between s.clk)
    (hleft : ∀ x ∈ s.slots, x.head.busy = true → x.id.pool ≠ .store → ∀ k ∈ x.head.instr, ∀ c ∈ (s.stamp k).cmp, c = s.clk) :
    (completionCheck s).Coherent := by
  obtain ⟨hc, he⟩ | ⟨hc, hcap, he⟩ | ⟨hc, hcap, he⟩ := completionCheck_cases hrun <;> rw [he]
  · exact coherent_of_between (between_setStatus h _) hleft nofun (fun _ => hc) nofun nofun
  · exact coherent_of_between (between_setStatus h _) hleft nofun nofun (fun _ => ⟨hc, hcap⟩) nofun
  · exact coherent_of_between h hleft (fun _ => hc) (by simp [hrun]) (by simp [hrun]) fun _ => .inl hcap

theorem completionCheck_not_fault {s : State} (h : s.status = .run) : (completionCheck s).status ≠ .fault := by
  obtain ⟨-, he⟩ | ⟨-, -, he⟩ | ⟨-, -, he⟩ := completionCheck_cases h <;> simp [he, h]

/-- R131: after a cycle without a fault the fault registers are as before it. -/
theorem statusWf_completionCheck {s : State} (hrun : s.status = .run) (h : s.StatusWf) : (completionCheck s).StatusWf := by
  obtain ⟨hcode, hinfo⟩ := h
  have hnone : s.faultCode = .none := by
    by_contra hn
    exact absurd (hcode.2 hn) (by rw [hrun]; decide)
  refine ⟨?_, by simpa using hinfo⟩
  simp [completionCheck_not_fault hrun, hnone]

/-- R131, R132: after a `MEM_RANGE` fault the status and the fault registers agree, and nothing else is specified. -/
theorem raiseMemRange_inv {s : State} (hw : s.Wf) (k : Nat) (ea : Int) : (raiseMemRange k ea s).Inv :=
  ⟨raiseMemRange_wf hw k ea, by simp [raiseMemRange, State.StatusWf], fun hf => absurd rfl hf⟩

/-- From what Issue and Execute leave of the invariant, a Writeback without a fault and the completion check make the whole of it. -/
theorem completionCheck_commitBatch_inv {s : State} (hw : s.Wf) (hrun : s.status = .run) (hst : s.StatusWf) (hr : s.AccessesInRange)
    (h : s.Between s.clk) : (completionCheck (commitBatch s)).Inv := by
  have hcr : (commitBatch s).status = .run := by simpa using hrun
  obtain ⟨hb, hleft⟩ := between_commit hw.stamps hr h
  rw [← commitBatch_clk s] at hb
  refine ⟨completionCheck_wf (commitBatch_wf hw), statusWf_completionCheck hcr (by simpa [State.StatusWf] using hst), fun _ => ?_⟩
  exact coherent_completionCheck hcr hb (by simpa using hleft)

/-- Settles O42: between the stages `State.Between` holds, and at the end of the cycle the completion check makes it the invariant. -/
theorem stepKeepsInvariant : Obligations.StepKeepsInvariant := by
  intro s t hinv h
  obtain ⟨-, rfl⟩ | ⟨hrun, u, hu, rfl⟩ := step_issueStage h
  · exact hinv
  have hbetween := between_of_coherent (hinv.coherent (by rw [hrun]; decide))
  have hframe := hu.frame
  have hwf := executeStage_wf (hu.wf hinv.wf)
  obtain ⟨hr, he⟩ | ⟨b, -, he⟩ := finishCycle_cases u <;> rw [he]
  · refine completionCheck_commitBatch_inv hwf (hframe.status.trans hrun) ?_ hr (hu.between_execute hinv.wf hbetween)
    simpa [State.StatusWf, hframe.status, hframe.faultCode, hframe.faultInfo] using hinv.statusWf
  · exact raiseMemRange_inv hwf b.1 b.2

end Sys2Proof.Machine

/-! ### The clock and `NEXT` (R20, R22, R125) -/

namespace Sys2Proof.Machine

/-- Short of a fault, what follows Issue in a cycle moves neither the clock nor `NEXT`. -/
theorem finishCycle_clk_next {u : State} (h : (finishCycle u).status ≠ .fault) :
    (finishCycle u).clk = u.clk ∧ (finishCycle u).next = u.next := by
  simp [(finishCycle_of_not_fault h).2]

/-- Settles O12: the clock advances in `tick` alone. -/
theorem clockCountsCycles : Obligations.ClockCountsCycles := by
  intro s t h
  obtain ⟨hn, rfl⟩ | ⟨hrun, u, hu, rfl⟩ := step_issueStage h
  · exact ⟨fun hrun => absurd hrun hn, fun _ => rfl⟩
  · exact ⟨fun _ hf => (finishCycle_clk_next hf).1.trans hu.frame.clk, fun hn => absurd hrun hn⟩

/-- Settles O13: of what a step can do, only Issue into a free slot moves `NEXT`. -/
theorem nextAdvancesOnlyByIssue : Obligations.NextAdvancesOnlyByIssue := by
  intro s t hrun h hf
  rcases step_next_cases h with ⟨hn, -⟩ | ⟨-, hend, rfl⟩ | ⟨-, i, hi, hfull, rfl⟩ | ⟨-, i, hi, hfree, x, -, -, -, u, hu, rfl⟩
  · exact absurd hrun hn
  · have hnext : (finishCycle (tick s)).next = s.next := (finishCycle_clk_next hf).2
    exact ⟨fun j hj => absurd (recordAt_lt hj) (by omega), fun _ _ _ => hnext, fun _ => hnext⟩
  · have hnext : (finishCycle (tick s)).next = s.next := (finishCycle_clk_next hf).2
    refine ⟨fun j hj hnot => ?_, fun _ _ _ => hnext, fun _ => hnext⟩
    rw [hi] at hj
    cases hj
    exact absurd hfull hnot
  · obtain ⟨-, -, -, -, -, -, -, -, -, -, hissued, -⟩ := hu.fields
    have hnext : (finishCycle u).next = s.next + 1 := (finishCycle_clk_next hf).2.trans hissued
    refine ⟨fun _ _ _ => hnext, fun j hj hfull => ?_, fun hend => absurd (recordAt_lt hi) (by omega)⟩
    rw [hi] at hj
    cases hj
    exact absurd hfull hfree

/-! ### The slots that write back in a cycle (R95) -/

/-- R99, R120: a broadcast is that of a candidate slot with its destination. -/
theorem broadcast_candidate {s : State} {b : Broadcast} (hb : b ∈ s.broadcasts) :
    ∃ y ∈ s.slots, s.candidate y = true ∧ y.id = b.src ∧ y.dest = some b.dest := by
  rcases mem_broadcasts.1 hb with ⟨c, hc, rfl⟩ | ⟨c, hc, v, -, rfl⟩
  · obtain ⟨hy, hcand⟩ := candidate_cases.2 (.inl ⟨c, hc, rfl⟩)
    exact ⟨stationView c, hy, hcand, rfl, rfl⟩
  · obtain ⟨hy, hcand⟩ := candidate_cases.2 (.inr (.inl ⟨c, hc, rfl⟩))
    exact ⟨loadView c, hy, hcand, rfl, rfl⟩

/-- Execute changes nothing of a slot but its head's countdown (R91). -/
theorem executeStage_slot_origin {s : State} {y : SlotView} (hy : y ∈ (executeStage s).slots) :
    ∃ x ∈ s.slots, y = s.executeView x := by
  rw [executeStage_slots] at hy
  obtain ⟨x, hx, rfl⟩ := List.mem_map.1 hy
  exact ⟨x, hx, rfl⟩

/-- R88, R95: an instruction that completed in an earlier cycle was issued in an earlier cycle. -/
theorem issued_before_of_completed {s : State} {pc k : Nat} (h : s.Between pc) (hk : k < s.next) {a c : Nat}
    (ha : a ∈ (s.stamp k).iss) (hc : c ∈ (s.stamp k).cmp) : a < c := by
  obtain ⟨-, hexs, hcmp, -⟩ := h.ordered k hk
  obtain ⟨e, he, hec, -⟩ := hcmp c hc
  obtain ⟨a', ha', hae, -⟩ := hexs e he
  obtain rfl : a' = a := Option.some.inj (ha'.symm.trans ha)
  omega

/-- R95, R97: a candidate of a cycle's Writeback is a slot that was busy before the cycle, with the instruction it held, and the
committed batch writes that instruction's last timestamp. -/
theorem candidate_origin {s u : State} (hw : s.Wf) (hb : s.Between s.clk) (hu : IssueStage s u) {y : SlotView} {k : Nat}
    (hy : y ∈ (executeStage u).slots) (hc : (executeStage u).CandidateSlot y k) :
    (∃ x ∈ s.slots, x.id = y.id ∧ x.dest = y.dest ∧ x.address = y.address ∧ x.head.busy = true ∧ s.Holds x k) ∧
      ((commitBatch (executeStage u)).stamp k).wbk = some u.clk := by
  have hbe := hu.between_execute hw hb
  have hwe := executeStage_wf (hu.wf hw)
  obtain ⟨hbusy, hinstr, ⟨c, hcmp, hcclk⟩, -, -⟩ := id hc
  obtain ⟨k', hk', ⟨hinstr', -⟩, -⟩ := hbe.holds y hy hbusy
  obtain rfl : k' = k := Option.some.inj (hinstr'.symm.trans hinstr)
  refine ⟨?_, by rw [commitBatch_stamp_candidate hy hc (by rw [hwe.stamps]; exact hk'.trans_le hbe.nextLe)]; rfl⟩
  obtain ⟨z, hz, rfl⟩ := executeStage_slot_origin hy
  have hzbusy : z.head.busy = true := by simpa [State.executeView] using hbusy
  have hzinstr : z.head.instr = some k' := by simpa [State.executeView] using hinstr
  rcases hu.slot_cases hw hz with hzs | ⟨hnext, hiss⟩
  · obtain ⟨k, -, hholds, -⟩ := hb.holds z hzs hzbusy
    obtain rfl : k = k' := Option.some.inj (hholds.1.symm.trans hzinstr)
    exact ⟨z, hzs, rfl, rfl, rfl, hzbusy, hholds⟩
  · obtain rfl : k' = s.next := Option.some.inj (hzinstr.symm.trans hnext)
    have hiss' : ((executeStage u).stamp s.next).iss = some u.clk := (executeStage_stamp_iss u s.next).1.trans hiss
    exact absurd hcclk (issued_before_of_completed hbe hk' hiss' hcmp).not_gt

/-! ### What changes a register or a memory cell (R26, R38, R48, R122) -/

/-- R99: a register that a committed batch changes is the destination of a broadcast whose slot its entry names. -/
theorem commitBatch_register_changed {s : State} {f : FReg} (h : (commitBatch s).readF f ≠ s.readF f) :
    (commitBatch s).readRRS f = none ∧ ∃ b ∈ s.broadcasts, b.dest = f ∧ s.readRRS f = some b.src := by
  by_cases hn : ∃ b ∈ s.broadcasts, b.dest = f ∧ s.readRRS f = some b.src
  · obtain ⟨b, hb, rfl, hr⟩ := id hn
    exact ⟨(commitBatch_named s hb hr).1, hn⟩
  · push Not at hn
    exact absurd (commitBatch_unnamed s f fun b hb hh => hn b hb hh.1 hh.2).1 h

/-- Settles O36: the register is changed by a broadcast of a slot its entry names, a slot that was busy before the cycle, so that the
entry named it before the cycle too. -/
theorem registerChangesOnlyByNamedBroadcast : Obligations.RegisterChangesOnlyByNamedBroadcast := by
  intro s t i hinv hrun h hf hne
  obtain ⟨u, hu, -, rfl⟩ := step_committed hrun h hf
  have hb := between_of_coherent (hinv.coherent (by rw [hrun]; decide))
  have hsame : (executeStage u).readF i = s.readF i := by simp [State.readF, hu.frame.fpr]
  have hcheck : (completionCheck (commitBatch (executeStage u))).readF i = (commitBatch (executeStage u)).readF i := by
    simp [State.readF]
  rw [hcheck, ← hsame] at hne
  obtain ⟨hcleared, b, hbm, rfl, hnamed⟩ := commitBatch_register_changed hne
  obtain ⟨y, hy, hcand, hid, hdest⟩ := broadcast_candidate hbm
  obtain ⟨k, hk⟩ := (candidateSlot_iff _ y).1 hcand
  obtain ⟨⟨x, hx, hxid, hxdest, -, hxbusy, hinstr, -, hwbk, -⟩, hwritten⟩ := candidate_origin hinv.wf hb hu hy hk
  refine ⟨by simpa [State.readRRS] using hcleared, x, hx, ?_, hxdest.trans hdest, k, hinstr, hwbk,
    by simpa [State.stamp] using hwritten⟩
  have hnow : u.readRRS b.dest = some x.id := by rw [hxid, hid]; exact hnamed
  rcases hu.readRRS_cases b.dest with hkept | ⟨z, hz, hfree, hclaimed⟩
  · rw [← hkept, hnow]
  · rw [hnow] at hclaimed
    rw [slots_id_inj hx hz (Option.some.inj hclaimed), hfree] at hxbusy
    cases hxbusy

/-- R48, R122: a cell that a committed batch changes is selected by the address of a candidate store. -/
theorem commitBatch_cell_changed {s : State} {j : Nat} (h : (commitBatch s).mem.readCell j ≠ s.mem.readCell j) :
    ∃ y ∈ s.slots, s.candidate y = true ∧ y.id.pool = .store ∧
      ∃ base off, y.address = some (base, off) ∧ cellOf s.params (effectiveAddress s base off) = some j := by
  by_contra hn
  rw [commitBatch_mem] at h
  refine h (applyWrites_readCell_other s _ fun w hw hcell => hn ?_)
  obtain ⟨c, hc, rfl⟩ := List.mem_map.1 hw
  obtain ⟨hy, hcand⟩ := candidate_cases.2 (.inr (.inr ⟨c, hc, rfl⟩))
  obtain ⟨j', -, hid⟩ := mem_tagged.1 (mem_storeCandidates.1 hc).1
  exact ⟨storeView c, hy, hcand, by rw [storeView_id, hid], c.2.base, c.2.off, rfl, hcell⟩

/-- R82, R121: the one operation of pool `Store` is `S.D`. -/
theorem eq_sd_of_poolOf_store {i : Instr} (h : poolOf i.op = .store) : ∃ fa base off, i = .sd fa base off := by
  cases i with
  | sd fa base off => exact ⟨fa, base, off, rfl⟩
  | ld _ _ _ => cases h
  | addD _ _ _ => cases h
  | subD _ _ _ => cases h
  | mulD _ _ _ => cases h
  | divD _ _ _ => cases h

/-- R36 item 3, R85: a slot of pool `Store` holds an `S.D` with the slot's base register and offset. -/
theorem record_of_holds_store {s : State} {x : SlotView} {k : Nat} (h : s.Holds x k) (hp : x.id.pool = .store)
    {base : IReg} {off : Offset} (ha : x.address = some (base, off)) : ∃ fa, s.recordAt k = some (.sd fa base off) := by
  obtain ⟨-, -, -, hop, hpool, -, haddr⟩ := h
  obtain ⟨i, hi, hiop⟩ := Option.map_eq_some_iff.1 hop
  obtain ⟨fa, base', off', rfl⟩ := eq_sd_of_poolOf_store (i := i) (by rw [hiop, hpool, hp])
  rw [hi, ha] at haddr
  cases haddr
  exact ⟨fa, hi⟩

/-- Settles O37: the cell is changed by a candidate store of the cycle, which held its `S.D` before the cycle. -/
theorem memoryChangesOnlyByStoreWriteback : Obligations.MemoryChangesOnlyByStoreWriteback := by
  intro s t j hinv hrun h hf hne
  obtain ⟨u, hu, -, rfl⟩ := step_committed hrun h hf
  have hb := between_of_coherent (hinv.coherent (by rw [hrun]; decide))
  have hframe := hu.frame
  have hsame : (executeStage u).mem.readCell j = s.mem.readCell j := readCell_congr fun b _ => hframe.mem _
  rw [completionCheck_mem, ← hsame] at hne
  obtain ⟨y, hy, hcand, hpool, base, off, haddr, hcell⟩ := commitBatch_cell_changed hne
  obtain ⟨k, hk⟩ := (candidateSlot_iff _ y).1 hcand
  obtain ⟨⟨x, hx, hxid, -, hxaddr, -, hholds⟩, hwritten⟩ := candidate_origin hinv.wf hb hu hy hk
  obtain ⟨fa, hrec⟩ := record_of_holds_store hholds (by rw [hxid, hpool]) (hxaddr.trans haddr)
  obtain ⟨-, -, hwbk, -⟩ := hholds
  refine ⟨k, fa, base, off, hrec, hwbk, by simpa [State.stamp] using hwritten, ?_⟩
  simpa [effectiveAddress, State.readR, hframe.params, hframe.gpr] using hcell

/-! ### A timestamp once written stays (R25) -/

/-- R25: every timestamp that is set in `t` is the same in `t'`. -/
structure Stamps.KeptIn (t t' : Stamps) : Prop where
  iss : ∀ a ∈ t.iss, t'.iss = some a
  exs : ∀ a ∈ t.exs, t'.exs = some a
  cmp : ∀ a ∈ t.cmp, t'.cmp = some a
  wbk : ∀ a ∈ t.wbk, t'.wbk = some a

theorem Stamps.KeptIn.refl (t : Stamps) : t.KeptIn t := ⟨fun _ h => h, fun _ h => h, fun _ h => h, fun _ h => h⟩

theorem Stamps.KeptIn.trans {t t' t'' : Stamps} (h : t.KeptIn t') (h' : t'.KeptIn t'') : t.KeptIn t'' :=
  ⟨fun a ha => h'.iss a (h.iss a ha), fun a ha => h'.exs a (h.exs a ha), fun a ha => h'.cmp a (h.cmp a ha),
    fun a ha => h'.wbk a (h.wbk a ha)⟩

theorem Stamps.empty_keptIn (t : Stamps) : Stamps.empty.KeptIn t := ⟨nofun, nofun, nofun, nofun⟩

/-- R83: Issue stamps an instruction that has no timestamp yet. -/
theorem IssueStage.stamp_keptIn {s u : State} (h : IssueStage s u) (hw : s.Wf) (hb : s.Between s.clk) (k : Nat) :
    (s.stamp k).KeptIn (u.stamp k) := by
  by_cases hk : k = s.next
  · have hempty : s.stamp k = Stamps.empty := by
      by_cases hlen : k < s.prog.length
      · exact hb.notIssued k hlen hk.ge
      · exact stamp_eq_empty (by rw [hw.stamps]; omega)
    rw [hempty]
    exact Stamps.empty_keptIn _
  · rw [h.stamp_other hk]
    exact .refl _

/-- R90, R91: a start is recorded where there is none, and a completion likewise. -/
theorem keptIn_executeStamp {t : Stamps} (h : t.cmp = none) (clk count : Nat) : t.KeptIn (executeStamp clk count t) := by
  unfold executeStamp
  split
  · next hexs => exact ⟨fun _ ha => ha, by simp [hexs], fun _ ha => ha, fun _ ha => ha⟩
  · split
    · exact ⟨fun _ ha => ha, fun _ ha => ha, by simp [h], fun _ ha => ha⟩
    · exact .refl t

/-- R89: Execute stamps no instruction that has completed. -/
theorem executeStage_stamp_keptIn {s : State} (hu : s.UniqueOwners) (k : Nat) :
    (s.stamp k).KeptIn ((executeStage s).stamp k) := by
  by_cases hk : k < s.stamps.length
  · by_cases he : ∃ x ∈ s.slots, s.EligibleSlot x k
    · obtain ⟨x, hx, he⟩ := he
      obtain ⟨-, -, -, hcmp, -⟩ := id he
      rw [executeStage_stamp_eligible hu hx hk he]
      exact keptIn_executeStamp hcmp _ _
    · push Not at he
      rw [executeStage_stamp_other he]
      exact .refl _
  · rw [stamp_eq_empty (Nat.le_of_not_lt hk)]
    exact Stamps.empty_keptIn _

/-- R95, R97: Writeback stamps no instruction that has written back. -/
theorem commitBatch_stamp_keptIn (s : State) (k : Nat) : (s.stamp k).KeptIn ((commitBatch s).stamp k) := by
  by_cases hk : k < s.stamps.length
  · by_cases hc : ∃ x ∈ s.slots, s.CandidateSlot x k
    · obtain ⟨x, hx, hc⟩ := hc
      obtain ⟨-, -, -, hwbk, -⟩ := id hc
      rw [commitBatch_stamp_candidate hx hc hk]
      exact ⟨fun _ ha => ha, fun _ ha => ha, fun _ ha => ha, by simp [hwbk]⟩
    · push Not at hc
      rw [commitBatch_stamp_other hc]
      exact .refl _
  · rw [stamp_eq_empty (Nat.le_of_not_lt hk)]
    exact Stamps.empty_keptIn _

/-- R25: a step of a state of the invariant that raises no fault keeps every timestamp. -/
theorem step_stamp_keptIn {s t : State} (hinv : s.Inv) (h : step s = .next t) (hf : t.status ≠ .fault) (k : Nat) :
    (s.stamp k).KeptIn (t.stamp k) := by
  by_cases hrun : s.status = .run
  · obtain ⟨u, hu, -, rfl⟩ := step_committed hrun h hf
    have hb := between_of_coherent (hinv.coherent (by rw [hrun]; decide))
    have hcheck : (completionCheck (commitBatch (executeStage u))).stamp k = (commitBatch (executeStage u)).stamp k := by
      simp [State.stamp]
    rw [hcheck]
    have hissue := hu.stamp_keptIn hinv.wf hb k
    have hexecute := executeStage_stamp_keptIn (hu.between hinv.wf hb).unique k
    exact hissue.trans (hexecute.trans (commitBatch_stamp_keptIn _ k))
  · obtain ⟨-, rfl⟩ | ⟨hr, -⟩ := step_issueStage h
    · exact .refl _
    · exact absurd hr hrun

/-- Settles O38: Issue, Execute and Writeback each write a timestamp where there is none. -/
theorem timestampsWrittenOnce : Obligations.TimestampsWrittenOnce := by
  intro s t hinv h hf k
  obtain ⟨hiss, hexs, hcmp, hwbk⟩ := step_stamp_keptIn hinv h hf k
  exact ⟨hiss, hexs, hcmp, hwbk⟩

/-! ### Construction (R150) -/

/-- R150: the slots of a block whose inputs are loaded are the free slots of R33. -/
theorem loadInputs_slot {inp : Inputs} {x : SlotView} (hx : x ∈ (loadInputs inp).slots) : x = freeView x.id := by
  rcases mem_slots.1 hx with ⟨j, y, hy, rfl⟩ | ⟨j, y, hy, rfl⟩ | ⟨j, y, hy, rfl⟩ | ⟨j, y, hy, rfl⟩ <;>
    rw [List.eq_of_mem_replicate (List.mem_of_getElem? hy)] <;> rfl

/-- R33, R150: no slot is busy after construction. -/
theorem loadInputs_slot_idle {inp : Inputs} {x : SlotView} (hx : x ∈ (loadInputs inp).slots) : ¬ x.head.busy = true := by
  rw [loadInputs_slot hx]; simp

/-- R150: no timestamp is set after construction. -/
theorem loadInputs_stamp (inp : Inputs) (k : Nat) : (loadInputs inp).stamp k = Stamps.empty := by
  by_cases hk : k < inp.prog.length <;> simp [State.stamp, loadInputs, List.getD_eq_getElem?_getD, hk]

/-- R150: the rename table is clear after construction. -/
theorem loadInputs_readRRS (inp : Inputs) (f : FReg) : (loadInputs inp).readRRS f = none := by
  by_cases hf : f.toNat < inp.params.nFpr <;> simp [State.readRRS, loadInputs, List.getD_eq_getElem?_getD, hf]

theorem loadInputs_wf {inp : Inputs} (h : inp.params.wf) : (loadInputs inp).Wf := by
  obtain ⟨hcanonical, hinside⟩ := foldl_writeCell_wf (fun j => (inp.memInit.getD []).getD j Config.one) inp.params.nMem
  refine ⟨h, ?_, ?_, ?_, ?_, ?_, ?_, ?_, ?_, hcanonical, hinside⟩ <;> simp [loadInputs, loadFile]

/-- The representation speaks of no status and no fault register. -/
theorem wf_setStatus {s : State} (h : s.Wf) (status : Status) (code : FaultCode) (info : Option FaultInfo) :
    State.Wf { s with status := status, faultCode := code, faultInfo := info } :=
  ⟨h.params, h.fpr, h.gpr, h.adds, h.muls, h.loads, h.stores, h.rrs, h.stamps, h.memCanonical, h.memInside⟩

/-- R70: the record check passes a program of valid records alone. -/
theorem firstInvalid_eq_none {nFpr : Nat} {prog : List Word} :
    firstInvalid nFpr prog = none ↔ prog.all (validRecord nFpr) = true := by
  simp [firstInvalid, List.findIdx?_eq_none_iff]

/-- A block whose inputs are loaded has issued nothing: every clause about an issued instruction, a busy slot or a tag is empty. -/
theorem loadInputs_between {inp : Inputs} (h : inp.prog.all (validRecord inp.params.nFpr) = true) :
    (loadInputs inp).Between (loadInputs inp).clk where
  nextLe := Nat.zero_le _
  records := h
  issued := nofun
  notIssued := fun k _ _ => loadInputs_stamp inp k
  ordered := nofun
  started := nofun
  latency := nofun
  issueOrder := nofun
  occupies := nofun
  holds := fun _ hx hb => absurd hb (loadInputs_slot_idle hx)
  unique := fun _ hx _ _ hb => absurd hb (loadInputs_slot_idle hx)
  freeCleared := fun x hx _ => by rw [loadInputs_slot hx]; simp
  tags := fun x hx q hq => by rw [loadInputs_slot hx] at hq; simp at hq
  rename := fun i q hq => by rw [loadInputs_readRRS] at hq; cases hq
  latestNamed := fun _ hx hb => absurd hb (loadInputs_slot_idle hx)

/-- Settles O39: an invalid record is a fault; otherwise nothing is issued yet, and the completion test sets the status. -/
theorem constructionMeetsInvariant : Obligations.ConstructionMeetsInvariant := by
  intro inp hp
  have hw := loadInputs_wf hp
  have hidle : ∀ x ∈ (loadInputs inp).slots, x.head.busy = true → x.id.pool ≠ .store → ∀ k ∈ x.head.instr,
      ∀ c ∈ ((loadInputs inp).stamp k).cmp, c = (loadInputs inp).clk := fun x hx hb => absurd hb (loadInputs_slot_idle hx)
  unfold construct
  cases hv : firstInvalid inp.params.nFpr inp.prog with
  | some k =>
    exact ⟨wf_setStatus hw _ _ _, by simp [State.StatusWf], fun hf => absurd rfl hf⟩
  | none =>
    have hb := loadInputs_between (firstInvalid_eq_none.1 hv)
    by_cases hc : (loadInputs inp).complete = true
    · simp only [hc, if_true]
      exact ⟨wf_setStatus hw _ _ _, by simp [State.StatusWf, loadInputs],
        fun _ => coherent_of_between (between_setStatus hb _) hidle nofun (fun _ => hc) nofun nofun⟩
    · simp only [hc]
      exact ⟨hw, by simp [State.StatusWf, loadInputs],
        fun _ => coherent_of_between hb hidle (fun _ => by simpa using hc) nofun nofun fun _ => .inr rfl⟩

/-- Log 4: the reset state is the construction of the empty program with the defaults. -/
theorem reset_eq_construct : State.reset = construct ⟨Config.Params.default, [], none, none, none⟩ := by decide

/-- Settles O40: the reset state is a construction with legal parameters. -/
theorem resetMeetsInvariant : Obligations.ResetMeetsInvariant := by
  unfold Obligations.ResetMeetsInvariant
  rw [reset_eq_construct]
  exact constructionMeetsInvariant _ (by decide)

/-! ### Tag codes (R29) -/

/-- R29: with legal parameters a slot's position is below 15. -/
theorem position_lt {p : Config.Params} (hp : p.wf) {q : SlotId} (hq : q.idx < q.pool.capacity p) : q.position p < 15 := by
  obtain ⟨⟨-, -, -, -, htotal⟩, -⟩ := hp
  obtain ⟨pool, i⟩ := q
  cases pool <;> simp only [Pool.capacity, SlotId.position] at hq ⊢ <;> omega

/-- R29: the slot at a global position. -/
def SlotId.ofPosition (p : Config.Params) (n : Nat) : SlotId :=
  if n < p.nAdd then ⟨.add, n⟩
  else if n < p.nAdd + p.nMul then ⟨.mul, n - p.nAdd⟩
  else if n < p.nAdd + p.nMul + p.nLoad then ⟨.load, n - (p.nAdd + p.nMul)⟩
  else ⟨.store, n - (p.nAdd + p.nMul + p.nLoad)⟩

theorem ofPosition_position {p : Config.Params} {q : SlotId} (hq : q.idx < q.pool.capacity p) :
    SlotId.ofPosition p (q.position p) = q := by
  obtain ⟨pool, i⟩ := q
  unfold SlotId.ofPosition
  cases pool with
  | add =>
    have hi : i < p.nAdd := hq
    simp [SlotId.position, hi]
  | mul =>
    have hi : i < p.nMul := hq
    simp [SlotId.position, hi]
  | load =>
    have hi : i < p.nLoad := hq
    simp [SlotId.position, hi, Nat.add_assoc]
    omega
  | store =>
    simp [SlotId.position, Nat.add_assoc]
    omega

/-- R29: slots at one position are one slot. -/
theorem position_inj {p : Config.Params} {q r : SlotId} (hq : q.idx < q.pool.capacity p) (hr : r.idx < r.pool.capacity p)
    (h : q.position p = r.position p) : q = r := by
  rw [← ofPosition_position hq, h, ofPosition_position hr]

/-- R29: the 4 bits of a slot's tag hold its code. -/
theorem tagCode_toNat {p : Config.Params} (hp : p.wf) {q : SlotId} (hq : q.idx < q.pool.capacity p) :
    (tagCode p (some q)).toNat = 1 + q.position p := by
  have := position_lt hp hq
  simp only [tagCode, SlotId.code, BitVec.toNat_ofNat]
  omega

/-- Settles O53: the code is 1 more than the position, which determines the slot and is below 15. -/
theorem tagCodesNameSlots : Obligations.TagCodesNameSlots := by
  intro p hp q r hq hr
  have hcode := tagCode_toNat hp hq
  have hcode' := tagCode_toNat hp hr
  refine ⟨fun h => ?_, fun h => position_inj hq hr ?_, ?_⟩
  · rw [h] at hcode
    simp [tagCode] at hcode
    omega
  · rw [h] at hcode
    omega
  · have := position_lt hp hq
    simp only [SlotId.code]
    omega

end Sys2Proof.Machine

/-! ### The cell an access reaches (R41, R43, R47) -/

namespace Sys2Proof.Machine

/-- R40, R41: an address that passes the range check selects the cell that contains it. -/
theorem cellOf_inRange {p : Config.Params} {addr : Int} (h0 : 0 ≤ addr) (h1 : addr < ((p.nMem * p.cellBytes : Nat) : Int)) :
    cellOf p addr = some (addr.toNat / p.cellBytes) := if_pos ⟨h0, h1⟩

/-- R41: an address that fails the range check selects no cell. -/
theorem cellOf_outOfRange {p : Config.Params} {addr : Int} (h : addr < 0 ∨ ((p.nMem * p.cellBytes : Nat) : Int) ≤ addr) :
    cellOf p addr = none := if_neg (by omega)

/-- R41: a read takes the cell its address selects, or faults. -/
theorem memRead_of_cellOf {p : Config.Params} {addr : Int} {o : Option Nat} (h : cellOf p addr = o) (m : Memory) :
    memRead p m addr = o.map m.readCell := by rw [memRead, h]

/-- R41: a write changes the cell its address selects, or faults. -/
theorem memWrite_of_cellOf {p : Config.Params} {addr : Int} {o : Option Nat} (h : cellOf p addr = o) (m : Memory) (v : Word) :
    memWrite p m addr v = o.map fun j => m.writeCell j v := by rw [memWrite, h]

/-- Settles O32: the range check decides between the one cell that contains the address, read or written whole, and none. -/
theorem accessReachesItsCell : Obligations.AccessReachesItsCell := by
  intro p m addr v hm
  refine ⟨fun h0 h1 => ?_, fun h => ?_⟩
  · have hc := cellOf_inRange h0 h1
    exact ⟨memRead_of_cellOf hc m, _, memWrite_of_cellOf hc m v, readCell_writeCell_same hm _ v,
      fun j hj => readCell_writeCell_other m v hj⟩
  · have hc := cellOf_outOfRange h
    exact ⟨memRead_of_cellOf hc m, memWrite_of_cellOf hc m v⟩

/-! ### What Writeback leaves of memory (R48, R122) -/

/-- Settles O30: every queued write is a candidate store's, at its effective address. -/
theorem writebackChangesOnlyStoredCells : Obligations.WritebackChangesOnlyStoredCells := by
  intro s a hr houtside
  rw [writebackStage_inRange hr, commitBatch_mem]
  refine applyWrites_readByte s s.queuedWrites fun w hw => ?_
  obtain ⟨c, hc, rfl⟩ := List.mem_map.1 hw
  exact houtside c hc

/-! ### The slots after a committed batch (R100, R101) -/

/-- R101 on one slot of a pool. -/
theorem releaseIn_getElem? {α : Type} (pool : Pool) (free : α) (done : List SlotId) (slots : List α) (i : Nat) :
    (releaseIn pool free done slots)[i]? = slots[i]?.map fun x => if (⟨pool, i⟩ : SlotId) ∈ done then free else x := by
  simp [releaseIn, List.getElem?_zipIdx, Function.comp_def]

theorem commitBatch_adds_getElem? (s : State) (i : Nat) :
    (commitBatch s).adds[i]? = s.adds[i]?.map fun y =>
      if ⟨.add, i⟩ ∈ s.candidateSlots then Station.free else deliveredStation s.broadcasts y := by
  obtain ⟨hadds, -, -, -⟩ := deliveredBatch_lists s
  rw [commitBatch_eq, release_adds, releaseIn_getElem?, hadds, List.getElem?_map, Option.map_map]
  rfl

theorem commitBatch_muls_getElem? (s : State) (i : Nat) :
    (commitBatch s).muls[i]? = s.muls[i]?.map fun y =>
      if ⟨.mul, i⟩ ∈ s.candidateSlots then Station.free else deliveredStation s.broadcasts y := by
  obtain ⟨-, hmuls, -, -⟩ := deliveredBatch_lists s
  rw [commitBatch_eq, release_muls, releaseIn_getElem?, hmuls, List.getElem?_map, Option.map_map]
  rfl

theorem commitBatch_loads_getElem? (s : State) (i : Nat) :
    (commitBatch s).loads[i]? = s.loads[i]?.map fun y => if ⟨.load, i⟩ ∈ s.candidateSlots then LoadBuffer.free else y := by
  obtain ⟨-, -, hloads, -⟩ := deliveredBatch_lists s
  rw [commitBatch_eq, release_loads, releaseIn_getElem?, hloads]

theorem commitBatch_stores_getElem? (s : State) (i : Nat) :
    (commitBatch s).stores[i]? = s.stores[i]?.map fun y =>
      if ⟨.store, i⟩ ∈ s.candidateSlots then StoreBuffer.free else deliveredStore s.broadcasts y := by
  obtain ⟨-, -, -, hstores⟩ := deliveredBatch_lists s
  rw [commitBatch_eq, release_stores, releaseIn_getElem?, hstores, List.getElem?_map, Option.map_map]
  rfl

/-- R95: a slot writes back exactly if it is a candidate. -/
theorem id_mem_candidateSlots {s : State} {x : SlotView} (hx : x ∈ s.slots) : x.id ∈ s.candidateSlots ↔ s.candidate x = true := by
  rw [mem_candidateSlots]
  constructor
  · rintro ⟨y, hy, hc, hid⟩
    rwa [slots_id_inj hy hx hid] at hc
  · exact fun hc => ⟨x, hx, hc, rfl⟩

/-- R95: a slot that is not writable does not write back. -/
theorem not_mem_candidateSlots_of_not_writable {s : State} {x : SlotView} (hx : x ∈ s.slots) (hw : s.writable x.head = false) :
    x.id ∉ s.candidateSlots := by
  simp [id_mem_candidateSlots hx, State.candidate, hw]

/-- R100: a busy station takes a broadcast value in place of the tag of its slot, in either operand. -/
theorem deliveredStation_named {bs : List Broadcast} (hn : (bs.map Broadcast.src).Nodup) {b : Broadcast} (hb : b ∈ bs) {y : Station}
    (hbusy : y.head.busy = true) :
    (y.qj = some b.src → (deliveredStation bs y).vj = b.value ∧ (deliveredStation bs y).qj = none) ∧
    (y.qk = some b.src → (deliveredStation bs y).vk = b.value ∧ (deliveredStation bs y).qk = none) := by
  rw [deliveredStation, if_pos hbusy]
  constructor <;> intro hq <;> simp [hq, delivered_named hn hb]

/-- R100: a busy store buffer takes a broadcast value in place of the tag of its slot. -/
theorem deliveredStore_named {bs : List Broadcast} (hn : (bs.map Broadcast.src).Nodup) {b : Broadcast} (hb : b ∈ bs) {y : StoreBuffer}
    (hbusy : y.head.busy = true) (hq : y.qd = some b.src) :
    (deliveredStore bs y).vd = b.value ∧ (deliveredStore bs y).qd = none := by
  rw [deliveredStore, if_pos hbusy]
  simp [hq, delivered_named hn hb]

/-! ### The delivery of a result (R97, R99, R100) -/

/-- R97: the batch writes the last timestamp of an instruction whose slot broadcasts. -/
theorem commitBatch_stamp_broadcast {s : State} {b : Broadcast} (hb : b ∈ s.broadcasts) {x : SlotView} (hx : x ∈ s.slots)
    (hid : x.id = b.src) {k : Nat} (hinstr : x.head.instr = some k) (hk : k < s.stamps.length) :
    (commitBatch s).stamp k = { s.stamp k with wbk := some s.clk } := by
  obtain ⟨z, hz, hcand, hzid, -⟩ := broadcast_candidate hb
  obtain rfl := slots_id_inj hz hx (hzid.trans hid.symm)
  obtain ⟨k', hc⟩ := (candidateSlot_iff s z).1 hcand
  obtain rfl : k' = k := Option.some.inj (hc.2.1.symm.trans hinstr)
  exact commitBatch_stamp_candidate hz hc hk

/-- R99: a register whose entry names no slot of the batch keeps its value and its entry. -/
theorem commitBatch_register_kept {s : State} {f : FReg} (h : ∀ r ∈ s.readRRS f, r ∉ s.candidateSlots) :
    (commitBatch s).readF f = s.readF f ∧ (commitBatch s).readRRS f = s.readRRS f := by
  refine commitBatch_unnamed s f fun b hb hnamed => ?_
  obtain ⟨x, hx, hcand, hid, -⟩ := broadcast_candidate hb
  exact h b.src hnamed.2 (mem_candidateSlots.2 ⟨x, hx, hcand, hid⟩)

/-- R97 to R101: a broadcast of the batch delivers its value for the instruction `k` in its slot. -/
theorem commitBatch_delivers {s : State} {b : Broadcast} (hb : b ∈ s.broadcasts) {x : SlotView} (hx : x ∈ s.slots)
    (hid : x.id = b.src) {k : Nat} (hinstr : x.head.instr = some k) (hk : k < s.stamps.length) (hd : b.dest.toNat < s.fpr.length) :
    ResultDelivered b.src k b.dest b.value s (commitBatch s) where
  written := commitBatch_stamp_broadcast hb hx hid hinstr hk
  register := fun hnamed => ((commitBatch_named s hb hnamed).imp_right fun hf => hf hd).symm
  kept := commitBatch_register_kept
  adds := fun i y hy hbusy hw => by
    have hnot : (⟨.add, i⟩ : SlotId) ∉ s.candidateSlots :=
      not_mem_candidateSlots_of_not_writable (mem_slots.2 (.inl ⟨i, y, hy, rfl⟩)) hw
    refine ⟨_, ?_, deliveredStation_named (broadcast_srcs_nodup s) hb hbusy⟩
    rw [commitBatch_adds_getElem?, hy, Option.map_some, if_neg hnot]
  muls := fun i y hy hbusy hw => by
    have hnot : (⟨.mul, i⟩ : SlotId) ∉ s.candidateSlots :=
      not_mem_candidateSlots_of_not_writable (mem_slots.2 (.inr (.inl ⟨i, y, hy, rfl⟩))) hw
    refine ⟨_, ?_, deliveredStation_named (broadcast_srcs_nodup s) hb hbusy⟩
    rw [commitBatch_muls_getElem?, hy, Option.map_some, if_neg hnot]
  stores := fun i y hy hbusy hq => by
    have hslot : storeView (⟨.store, i⟩, y) ∈ s.slots := mem_slots.2 (.inr (.inr (.inr ⟨i, y, hy, rfl⟩)))
    have hnot : (⟨.store, i⟩ : SlotId) ∉ s.candidateSlots := fun hm => by
      simpa [State.candidate, hq] using (id_mem_candidateSlots hslot).1 hm
    refine ⟨_, ?_, deliveredStore_named (broadcast_srcs_nodup s) hb hbusy hq⟩
    rw [commitBatch_stores_getElem?, hy, Option.map_some, if_neg hnot]

/-- R96 to R101, R120: a finished `L.D` delivers the value it loads, under either policy, and its buffer is freed. -/
theorem writebackStage_delivers_load {s : State} (hw : s.Wf) (hr : s.AccessesInRange) {j k : Nat} {x : LoadBuffer}
    (hx : s.loads[j]? = some x) (hinstr : x.head.instr = some k) (hk : k < s.stamps.length) (hd : x.dest.toNat < s.params.nFpr)
    (hwritable : s.writable x.head = true) {v : Word} (hv : loadValue s s.queuedWrites ⟨.load, j⟩ (x.address s) = some v) :
    ResultDelivered ⟨.load, j⟩ k x.dest v s (writebackStage s) ∧ (writebackStage s).loads[j]? = some LoadBuffer.free := by
  have hcand : (⟨.load, j⟩, x) ∈ s.loadCandidates := mem_loadCandidates.2 ⟨mem_tagged.2 ⟨j, hx, rfl⟩, hwritable⟩
  have hslot : loadView (⟨.load, j⟩, x) ∈ s.slots := mem_slots.2 (.inr (.inr (.inl ⟨j, x, hx, rfl⟩)))
  have hb : ⟨⟨.load, j⟩, v, x.dest⟩ ∈ s.broadcasts := mem_broadcasts.2 (.inr ⟨_, hcand, v, hv, rfl⟩)
  have hmem : (⟨.load, j⟩ : SlotId) ∈ s.candidateSlots := (id_mem_candidateSlots hslot).2 (by simp [State.candidate, hwritable])
  rw [writebackStage_inRange hr]
  refine ⟨commitBatch_delivers hb hslot rfl hinstr hk (by rw [hw.fpr]; exact hd), ?_⟩
  rw [commitBatch_loads_getElem?, hx, Option.map_some, if_pos hmem]

/-! ### The values `Race` allows (R50) -/

/-- R50, `Race`: a load reads the old value of its cell or the data of a queued write to it, whatever the draw. -/
theorem loadValue_race {s : State} (hp : s.params.policy = .race) {ws : List StoreWrite} {q : SlotId} {addr : Int} {j : Nat} {v : Word}
    (hc : cellOf s.params addr = some j) (hv : loadValue s ws q addr = some v) :
    v = s.mem.readCell j ∨ ∃ w ∈ ws, cellOf s.params w.addr = some j ∧ v = w.data := by
  simp only [loadValue, hp, hc, Option.map_some, Option.some.injEq] at hv
  have hseen : v ∈ s.mem.readCell j :: (writesTo s ws j).map StoreWrite.data := by
    rw [← hv, List.getD_eq_getElem _ _ (Nat.mod_lt _ (List.length_pos_of_ne_nil (List.cons_ne_nil _ _)))]
    exact List.getElem_mem _
  rcases List.mem_cons.1 hseen with hold | hdata
  · exact .inl hold
  · obtain ⟨w, hw, rfl⟩ := List.mem_map.1 hdata
    obtain ⟨hmem, hcell⟩ := mem_writesTo.1 hw
    exact .inr ⟨w, hmem, hcell, rfl⟩

/-- Settles O31: what a load reads is delivered, and each cell takes one of the queued writes to it. -/
theorem raceChoosesAmongAllowedValues : Obligations.RaceChoosesAmongAllowedValues := by
  intro s hp
  refine ⟨fun q addr j v => loadValue_race hp, ?_, ?_⟩
  · intro hw hr j k c x hx hinstr hk hd hwritable hc
    obtain ⟨v, hv⟩ := loadValue_isSome (writes := s.queuedWrites) (q := ⟨.load, j⟩) (hc ▸ Option.some_ne_none c)
    obtain ⟨hdelivered, hfreed⟩ := writebackStage_delivers_load hw hr hx hinstr hk hd hwritable hv
    exact ⟨⟨v, loadValue_race hp hc hv, hdelivered⟩, hfreed⟩
  · intro hw hr j hj hwritten
    rw [writebackStage_inRange hr, commitBatch_mem]
    exact applyWrites_race hp hw.memCanonical hj hwritten

end Sys2Proof.Machine

/-! ### The record word: a word decodes as the operation whose row of the opcode table it matches (R61 to R68) -/

namespace Sys2Proof

/-- R62, R67: the fields that the format of an operation does not use are 0. -/
def Op.unusedClear : Op → Word → Bool
  | .ld, w | .sd, w => Word.unusedClearM w
  | .addD, w | .subD, w | .mulD, w | .divD, w => Word.unusedClearA w

/-- R61, R62: the instruction of an operation with the operand fields of a word. -/
def Op.instrOf : Op → Word → Instr
  | .ld, w => .ld (Word.faField w) (Word.rbField w) (Word.offField w)
  | .sd, w => .sd (Word.faField w) (Word.rbField w) (Word.offField w)
  | .addD, w => .addD (Word.faField w) (Word.fbField w) (Word.fcField w)
  | .subD, w => .subD (Word.faField w) (Word.fbField w) (Word.fcField w)
  | .mulD, w => .mulD (Word.faField w) (Word.fbField w) (Word.fcField w)
  | .divD, w => .divD (Word.faField w) (Word.fbField w) (Word.fcField w)

@[simp] theorem op_instrOf (op : Op) (w : Word) : (op.instrOf w).op = op := by cases op <;> rfl

theorem matchesWord_iff (w : Word) (op : Op) :
    op.matchesWord w = true ↔ Word.opField w = op.code ∧ Word.reservedClear w = true ∧ op.unusedClear w = true := by
  rw [matchesWord_iff_fields]
  cases op <;> simp [Op.unusedClear]

/-- R61, R67: a word that matches the row of an operation decodes to that operation with its own fields. -/
theorem decode_of_matchesWord {w : Word} {op : Op} (h : op.matchesWord w = true) : decode w = .ok (op.instrOf w) := by
  obtain ⟨hop, hreserved, hunused⟩ := (matchesWord_iff w op).1 h
  simp only [decode, hop, Op.ofCode_code, hreserved, if_true]
  cases op <;> exact if_pos hunused

/-- R61 to R67: a word decodes to an instruction exactly if it matches the row of its operation and holds its operands. -/
theorem decode_eq_ok_iff {w : Word} {i : Instr} : decode w = .ok i ↔ i.op.matchesWord w = true ∧ i = i.op.instrOf w := by
  constructor
  · intro h
    obtain ⟨hop, hreserved, ⟨hunused, rfl | rfl⟩ | ⟨hunused, rfl | rfl | rfl | rfl⟩⟩ := decode_ok_cases h <;>
      exact ⟨(matchesWord_iff _ _).2 ⟨hop, hreserved, hunused⟩, rfl⟩
  · rintro ⟨hmatch, hi⟩
    rw [hi]
    exact decode_of_matchesWord hmatch

/-- R67: a word that matches the row of an operation holds nothing but its operand fields. -/
theorem encode_instrOf {w : Word} {op : Op} (h : op.matchesWord w = true) : encode (op.instrOf w) = w := by
  obtain ⟨hop, hreserved, hunused⟩ := (matchesWord_iff w op).1 h
  cases op with
  | ld | sd => exact encodeM_eq hop hreserved hunused
  | addD | subD | mulD | divD => exact encodeA_eq hop hreserved hunused

/-- R62: the word of an instruction matches the row of its operation. -/
theorem encode_matchesWord (i : Instr) : i.op.matchesWord (encode i) = true := by
  rw [matchesWord_iff]
  cases i with
  | ld | sd => simp [Instr.op, encode, Op.unusedClear, fields_encodeM]
  | addD | subD | mulD | divD => simp [Instr.op, encode, Op.unusedClear, fields_encodeA]

/-- R62: the word of an instruction holds its operands. -/
theorem instrOf_encode (i : Instr) : i.op.instrOf (encode i) = i := by
  cases i with
  | ld | sd => simp [Instr.op, encode, Op.instrOf, fields_encodeM]
  | addD | subD | mulD | divD => simp [Instr.op, encode, Op.instrOf, fields_encodeA]

/-- Settles O2: the word of an instruction matches its row and holds its operands, which is what decoding to it means. -/
theorem decodeInvertsEncode : Obligations.DecodeInvertsEncode :=
  fun i => decode_eq_ok_iff.2 ⟨encode_matchesWord i, (instrOf_encode i).symm⟩

/-- Settles O3: a word that decodes matches the row of its operation, so it holds nothing but its fields. -/
theorem encodeInvertsDecode : Obligations.EncodeInvertsDecode := by
  intro w i h
  obtain ⟨hmatch, hi⟩ := decode_eq_ok_iff.1 h
  rw [hi]
  exact encode_instrOf hmatch

/-- Settles O5: decoding and the opcode table read the same fixed bits. -/
theorem decodeFollowsOpcodeTable : Obligations.DecodeFollowsOpcodeTable := by
  intro w op
  constructor
  · exact fun h => ⟨op.instrOf w, decode_of_matchesWord h, op_instrOf op w⟩
  · rintro ⟨i, h, rfl⟩
    exact (decode_eq_ok_iff.1 h).1

/-- R68, R69: the block issues from a word the instruction it decodes to, if that is well formed. -/
theorem decodeRecord_eq_some_iff {nFpr : Nat} {w : Word} {i : Instr} :
    decodeRecord nFpr w = some i ↔ decode w = .ok i ∧ i.wellFormed nFpr = true := by
  unfold decodeRecord
  cases decode w with
  | error e => simp
  | ok j =>
    simp only [Option.ite_none_right_eq_some, Option.some.injEq, Except.ok.injEq]
    constructor
    · rintro ⟨hwf, rfl⟩
      exact ⟨rfl, hwf⟩
    · rintro ⟨rfl, hwf⟩
      exact ⟨hwf, rfl⟩

/-- R66: an op field of at most 5 is the code of an operation. -/
theorem exists_op_of_code_le {c : BitVec 3} (h : c.toNat ≤ 5) : ∃ op : Op, c = op.code := by
  have hall : ∀ c : BitVec 3, c.toNat ≤ 5 → (Op.ofCode c).isSome = true := by decide
  obtain ⟨op, hop⟩ := Option.isSome_iff_exists.1 (hall c h)
  exact ⟨op, Op.eq_code_of_ofCode hop⟩

theorem op_le_of_validRecord {nFpr : Nat} {w : Word} (h : validRecord nFpr w = true) : (Word.opField w).toNat ≤ 5 := by
  simp only [validRecord, Bool.and_eq_true, decide_eq_true_eq] at h
  exact h.1.1.1.1

/-- R68, once the op field is known: the clauses are those of the operation's row, and that its FP fields are in range. -/
theorem validRecord_iff_of_opField {nFpr : Nat} {w : Word} {op : Op} (h : Word.opField w = op.code) :
    validRecord nFpr w = true ↔ op.matchesWord w = true ∧ (op.instrOf w).wellFormed nFpr = true := by
  have hnum : (w.extractLsb' 0 3).toNat = op.code.toNat := congrArg BitVec.toNat h
  rw [matchesWord_iff, validRecord, hnum]
  cases op <;>
    simp [h, Op.code, Op.instrOf, Op.unusedClear, Instr.wellFormed, Instr.fpFields, Word.reservedClear, Word.unusedClearM,
      Word.unusedClearA, Word.faField, Word.fbField, Word.fcField, and_assoc]

/-- R68: a word is valid exactly if it matches a row of the opcode table with its FP fields in range. -/
theorem validRecord_iff {nFpr : Nat} {w : Word} :
    validRecord nFpr w = true ↔ ∃ op : Op, op.matchesWord w = true ∧ (op.instrOf w).wellFormed nFpr = true := by
  constructor
  · intro h
    obtain ⟨op, hop⟩ := exists_op_of_code_le (op_le_of_validRecord h)
    exact ⟨op, (validRecord_iff_of_opField hop).1 h⟩
  · rintro ⟨op, h⟩
    exact (validRecord_iff_of_opField ((matchesWord_iff w op).1 h.1).1).2 h

/-- Settles O4: both say that the word matches a row of the opcode table with its FP fields in range. -/
theorem validRecordsAreTheDecodableOnes : Obligations.ValidRecordsAreTheDecodableOnes := by
  intro nFpr w
  rw [validRecord_iff]
  constructor
  · rintro ⟨op, hmatch, hwf⟩
    exact ⟨_, decodeRecord_eq_some_iff.2 ⟨decode_of_matchesWord hmatch, hwf⟩⟩
  · rintro ⟨i, h⟩
    obtain ⟨hdecode, hwf⟩ := decodeRecord_eq_some_iff.1 h
    obtain ⟨hmatch, hi⟩ := decode_eq_ok_iff.1 hdecode
    exact ⟨i.op, hmatch, hi ▸ hwf⟩

/-- R69: the block issues nothing from a word that fails the check of R68. -/
theorem decodeRecord_of_invalid {nFpr : Nat} {w : Word} (h : validRecord nFpr w = false) : decodeRecord nFpr w = none := by
  rw [Option.eq_none_iff_forall_ne_some]
  intro i hi
  have hvalid := (validRecordsAreTheDecodableOnes nFpr w).2 ⟨i, hi⟩
  rw [h] at hvalid
  cases hvalid

/-- Settles O1, by running the decoder on the nine words. -/
theorem referenceWordsDecode : Obligations.ReferenceWordsDecode := by
  unfold Obligations.ReferenceWordsDecode
  decide

end Sys2Proof

/-! ### Words that fail the check, and blocks that never stop (R69, R70) -/

namespace Sys2Proof.Machine

/-- R21, R80: `step` has no effect unless `STATUS = RUN`. -/
theorem step_of_not_run {s : State} (h : s.status ≠ .run) : step s = .next s := by
  unfold step stepBlock
  cases hs : s.status with
  | run => exact absurd hs h
  | done | capHalt | fault => rfl

theorem step_of_run {s : State} (h : s.status = .run) : step s = runCycle s := by
  unfold step stepBlock
  rw [h]

/-- R81: a running block at the end of its program runs the cycle without an issue. -/
theorem runCycle_of_end {s : State} (h : s.prog[s.next]? = none) : runCycle s = .next (finishCycle (tick s)) := by
  unfold runCycle fetch
  rw [h]

/-- R81: a running block takes the instruction of the record at `NEXT` through the cycle. -/
theorem runCycle_of_record {s : State} {w : Word} {i : Instr} (h : s.prog[s.next]? = some w)
    (hi : decodeRecord s.params.nFpr w = some i) : runCycle s = cycleWith i s := by
  simp only [runCycle, fetch, h, hi]

/-- R69, log 5: a running block stops at a record that fails the check. -/
theorem runCycle_of_invalid {s : State} {w : Word} (h : s.prog[s.next]? = some w)
    (hw : validRecord s.params.nFpr w = false) : runCycle s = .fault (.invalidRecord s.next) := by
  simp only [runCycle, fetch, h, decodeRecord_of_invalid hw]

/-- Issue stops for no instruction, so a cycle that considers one answers a next state. -/
theorem cycleWith_next (i : Instr) (s : State) : ∃ t, cycleWith i s = .next t := by
  obtain ⟨u, hu⟩ := exec_next i (tick s)
  exact ⟨finishCycle u, by rw [cycleWith, hu]⟩

/-- Settles O11: such a record decodes to nothing, which is where a cycle stops. -/
theorem invalidRecordIsNeverIssued : Obligations.InvalidRecordIsNeverIssued := by
  intro s w hrun hfetch hw
  rw [step_of_run hrun, runCycle_of_invalid hfetch hw]

/-- R70: the record check finds the lowest index of a record that fails R68. -/
theorem firstInvalid_eq_some {nFpr k : Nat} {prog : List Word} {w : Word} (hk : prog[k]? = some w)
    (hw : validRecord nFpr w = false) (hlow : ∀ j < k, ∀ v, prog[j]? = some v → validRecord nFpr v = true) :
    firstInvalid nFpr prog = some k := by
  obtain ⟨hlt, hget⟩ := List.getElem?_eq_some_iff.1 hk
  rw [firstInvalid, List.findIdx?_eq_some_iff_getElem]
  exact ⟨hlt, by simp [hget, hw], fun j hj => by simp [hlow j hj _ (List.getElem?_eq_getElem (hj.trans hlt))]⟩

/-- R70, R131: a program with an invalid record is refused by a fault. -/
theorem construct_of_invalid {inp : Inputs} {k : Nat} (h : firstInvalid inp.params.nFpr inp.prog = some k) :
    construct inp = raiseFault .invalidRecord ⟨k, none⟩ (loadInputs inp) := by
  simp only [construct, h]

/-- Settles O7: the record check raises the fault at the lowest invalid index, on the state just loaded. -/
theorem constructionRefusesInvalidRecord : Obligations.ConstructionRefusesInvalidRecord := by
  intro inp k w hk hw hlow
  rw [construct_of_invalid (firstInvalid_eq_some hk hw hlow)]
  exact ⟨rfl, rfl, rfl, rfl, step_of_not_run (by simp [raiseFault])⟩

/-- R70: a record of a program that passed the check is valid. -/
theorem State.Coherent.validRecord_of_getElem? {s : State} (h : s.Coherent) {k : Nat} {w : Word} (hk : s.prog[k]? = some w) :
    validRecord s.params.nFpr w = true :=
  List.all_eq_true.1 h.records w (List.mem_of_getElem? hk)

/-- Settles O43: a running block of the invariant has passed the record check, so it finds an instruction at `NEXT`, or none is left. -/
theorem invariantStatesNeverStop : Obligations.InvariantStatesNeverStop := by
  intro s hinv
  by_cases hrun : s.status = .run
  · have hcoherent := hinv.coherent (by rw [hrun]; decide)
    rw [step_of_run hrun]
    cases hfetch : s.prog[s.next]? with
    | none => exact ⟨_, runCycle_of_end hfetch⟩
    | some w =>
      obtain ⟨i, hi⟩ := (validRecordsAreTheDecodableOnes _ w).1 (hcoherent.validRecord_of_getElem? hfetch)
      rw [runCycle_of_record hfetch hi]
      exact cycleWith_next i s
  · exact ⟨s, step_of_not_run hrun⟩

end Sys2Proof.Machine

/-! ### The external decoder's contract (R71 to R73) -/

namespace Sys2Proof.Machine

/-- R26, R72: a numeral names the FP register whose numeral it is. -/
theorem fpRegister_eq_some_iff {n : Nat} {f : FReg} : fpRegister n = some f ↔ n = fpNumeral f := by
  have hf := f.isLt
  unfold fpRegister fpNumeral
  constructor
  · intro h
    split at h
    · next hn =>
      cases h
      rw [BitVec.toNat_ofNat]
      omega
    · cases h
  · rintro rfl
    simp only [Nat.mul_mod_right, true_and, Nat.mul_div_cancel_left _ (Nat.two_pos), BitVec.ofNat_toNat, BitVec.setWidth_eq]
    exact if_pos (by omega)

/-- R63, R72: a numeral names the integer register whose number it is. -/
theorem intRegister_eq_some_iff {n : Nat} {r : IReg} : intRegister n = some r ↔ n = r.toNat := by
  have hr := r.isLt
  unfold intRegister
  constructor
  · intro h
    split at h
    · next hn =>
      cases h
      rw [BitVec.toNat_ofNat]
      omega
    · cases h
  · rintro rfl
    rw [BitVec.ofNat_toNat, BitVec.setWidth_eq]
    exact if_pos (by omega)

/-- R72 (D26): an offset names the field of which it is the value. -/
theorem offsetField_eq_some_iff {o : Int} {off : Offset} : offsetField o = some off ↔ o = off.toInt := by
  have hlow := off.le_toInt
  have hhigh := off.toInt_lt
  unfold offsetField
  constructor
  · intro h
    split at h
    · next ho =>
      cases h
      rw [BitVec.toInt_ofInt, Int.bmod_eq_of_le] <;> omega
    · cases h
  · rintro rfl
    rw [BitVec.ofInt_toInt]
    exact if_pos ⟨by omega, by omega⟩

/-- R71: the operand tokens of an instruction's line, by the rows of R71's table. -/
def operandsOf : Instr → List AsmOperand
  | .ld fa base off | .sd fa base off => [.fp (fpNumeral fa), .mem off.toInt base.toNat]
  | .addD fa fb fc | .subD fa fb fc | .mulD fa fb fc | .divD fa fb fc =>
    [.fp (fpNumeral fa), .fp (fpNumeral fb), .fp (fpNumeral fc)]

/-- R71, R72: what an operand list of a load or store gives a record. -/
theorem assembleMem_eq_some_iff {mk : FReg → IReg → Offset → Instr} {l : List AsmOperand} {i : Instr} :
    assembleMem mk l = some i ↔
      ∃ fa base off, l = [.fp (fpNumeral fa), .mem off.toInt base.toNat] ∧ mk fa base off = i := by
  constructor
  · intro h
    unfold assembleMem at h
    split at h
    · split at h
      · next hfa hbase hoff =>
        rw [fpRegister_eq_some_iff] at hfa
        rw [intRegister_eq_some_iff] at hbase
        rw [offsetField_eq_some_iff] at hoff
        exact ⟨_, _, _, by rw [hfa, hbase, hoff], Option.some.inj h⟩
      · cases h
    · cases h
  · rintro ⟨fa, base, off, rfl, rfl⟩
    simp only [assembleMem, fpRegister_eq_some_iff.2 rfl, intRegister_eq_some_iff.2 rfl, offsetField_eq_some_iff.2 rfl]

/-- R71, R72: what an operand list of an arithmetic op gives a record. -/
theorem assembleArith_eq_some_iff {mk : FReg → FReg → FReg → Instr} {l : List AsmOperand} {i : Instr} :
    assembleArith mk l = some i ↔
      ∃ fa fb fc, l = [.fp (fpNumeral fa), .fp (fpNumeral fb), .fp (fpNumeral fc)] ∧ mk fa fb fc = i := by
  constructor
  · intro h
    unfold assembleArith at h
    split at h
    · split at h
      · next hfa hfb hfc =>
        rw [fpRegister_eq_some_iff] at hfa hfb hfc
        exact ⟨_, _, _, by rw [hfa, hfb, hfc], Option.some.inj h⟩
      · cases h
    · cases h
  · rintro ⟨fa, fb, fc, rfl, rfl⟩
    simp only [assembleArith, fpRegister_eq_some_iff.2 rfl]

/-- R71: an operand list gives the record of which it is the operand list. -/
theorem assembleOperands_eq_some_iff {op : Op} {l : List AsmOperand} {i : Instr} :
    assembleOperands op l = some i ↔ op = i.op ∧ l = operandsOf i := by
  cases op with
  | ld | sd =>
    simp only [assembleOperands, assembleMem_eq_some_iff]
    constructor
    · rintro ⟨fa, base, off, rfl, rfl⟩
      exact ⟨rfl, rfl⟩
    · rintro ⟨hop, rfl⟩
      cases i <;> cases hop
      exact ⟨_, _, _, rfl, rfl⟩
  | addD | subD | mulD | divD =>
    simp only [assembleOperands, assembleArith_eq_some_iff]
    constructor
    · rintro ⟨fa, fb, fc, rfl, rfl⟩
      exact ⟨rfl, rfl⟩
    · rintro ⟨hop, rfl⟩
      cases i <;> cases hop
      exact ⟨_, _, _, rfl, rfl⟩

/-- R71: a line gives the record of which it is the line, and no other. -/
theorem assembleLine_eq_some_iff {m : List Char} {l : List AsmOperand} {i : Instr} :
    assembleLine m l = some i ↔ m.map Char.toUpper = mnemonicOf i.op ∧ l = operandsOf i := by
  have hline : assembleLine m l = (opNamed m).bind fun op => assembleOperands op l := by
    unfold assembleLine
    cases opNamed m <;> rfl
  simp only [hline, Option.bind_eq_some_iff, assembleOperands_eq_some_iff]
  constructor
  · rintro ⟨op, hm, rfl, hl⟩
    exact ⟨(opNamed_iff _ _).1 hm, hl⟩
  · rintro ⟨hm, hl⟩
    exact ⟨i.op, (opNamed_iff _ _).2 hm, rfl, hl⟩

/-- R71: a line with the mnemonic and the operands of an instruction gives its record. -/
theorem assembleLine_of_line {m : List Char} {l : List AsmOperand} {i : Instr} (hm : m.map Char.toUpper = mnemonicOf i.op)
    (hl : operandsOf i = l) : assembleLine m l = some i :=
  assembleLine_eq_some_iff.2 ⟨hm, hl.symm⟩

/-- R26: the numeral of the FP register of an index. -/
theorem fpNumeral_ofNat {d : Nat} (h : d < 16) : fpNumeral (BitVec.ofNat 4 d) = 2 * d := by
  rw [fpNumeral, BitVec.toNat_ofNat, Nat.mod_eq_of_lt h]

theorem operandsOf_length (i : Instr) : (operandsOf i).length = if i.op = .ld ∨ i.op = .sd then 2 else 3 := by
  cases i <;> rfl

/-- R26: an FP register token of a line has an even numeral of at most 30. -/
theorem numeral_of_fp_mem_operandsOf {i : Instr} {n : Nat} (h : .fp n ∈ operandsOf i) : n % 2 = 0 ∧ n ≤ 30 := by
  have hnum : ∃ f, n = fpNumeral f := by
    cases i <;> simp only [operandsOf, List.mem_cons, List.not_mem_nil, AsmOperand.fp.injEq, reduceCtorEq, or_false] at h
    case ld | sd => exact ⟨_, h⟩
    all_goals obtain h | h | h := h <;> exact ⟨_, h⟩
  obtain ⟨f, rfl⟩ := hnum
  have hf := f.isLt
  unfold fpNumeral
  omega

/-- R64, R71: a memory token of a line has a register of at most 31 and an offset of 32 bits. -/
theorem bounds_of_mem_mem_operandsOf {i : Instr} {o : Int} {n : Nat} (h : .mem o n ∈ operandsOf i) :
    n ≤ 31 ∧ -(2 ^ 31) ≤ o ∧ o < 2 ^ 31 := by
  have htoken : ∃ (base : IReg) (off : Offset), o = off.toInt ∧ n = base.toNat := by
    cases i <;> simp only [operandsOf, List.mem_cons, List.not_mem_nil, AsmOperand.mem.injEq, reduceCtorEq, or_false, false_or] at h
    all_goals exact ⟨_, _, h⟩
  obtain ⟨base, off, rfl, rfl⟩ := htoken
  exact ⟨Nat.le_of_lt_succ base.isLt, off.le_toInt, off.toInt_lt⟩

/-- R71: the line of an instruction has the form of a row of R71's table. -/
theorem operandsOf_shape (i : Instr) :
    ((i.op = .ld ∨ i.op = .sd) ∧ ∃ d < 16, ∃ b < 32, ∃ off : Offset, operandsOf i = [.fp (2 * d), .mem off.toInt b]) ∨
    ((i.op ≠ .ld ∧ i.op ≠ .sd) ∧ ∃ d < 16, ∃ j < 16, ∃ k < 16, operandsOf i = [.fp (2 * d), .fp (2 * j), .fp (2 * k)]) := by
  cases i with
  | ld fa base off | sd fa base off =>
    exact .inl ⟨by simp [Instr.op], fa.toNat, fa.isLt, base.toNat, base.isLt, off, rfl⟩
  | addD fa fb fc | subD fa fb fc | mulD fa fb fc | divD fa fb fc =>
    exact .inr ⟨by simp [Instr.op], fa.toNat, fa.isLt, fb.toNat, fb.isLt, fc.toNat, fc.isLt, rfl⟩

/-- R72: a line that gives no record is as if it were not there. -/
theorem assemble_dropped {m : List Char} {l : List AsmOperand} (h : assembleLine m l = none)
    (before after : List (List Char × List AsmOperand)) : assemble (before ++ (m, l) :: after) = assemble (before ++ after) := by
  simp [assemble, h]

/-- R72: a line that gives a record takes the next index. -/
theorem assemble_kept {m : List Char} {l : List AsmOperand} {i : Instr} (h : assembleLine m l = some i)
    (before after : List (List Char × List AsmOperand)) :
    assemble (before ++ (m, l) :: after) = assemble before ++ encode i :: assemble after := by
  simp [assemble, h]

/-- Settles O6: every line that gives a record is the line of that record's instruction, so each fault R72 names excludes it. -/
theorem assemblerContract : Obligations.AssemblerContract := by
  refine ⟨by decide, fun m d j k hd hj hk => ?_, fun m d b off hd hb => ?_, fun m l i h => ?_, fun m l h => ?_,
    fun before after m l => ⟨fun h => assemble_dropped h before after, fun i h => assemble_kept h before after⟩⟩
  · have hfp : [AsmOperand.fp (fpNumeral (BitVec.ofNat 4 d)), .fp (fpNumeral (BitVec.ofNat 4 j)), .fp (fpNumeral (BitVec.ofNat 4 k))] =
        [.fp (2 * d), .fp (2 * j), .fp (2 * k)] := by rw [fpNumeral_ofNat hd, fpNumeral_ofNat hj, fpNumeral_ofNat hk]
    exact ⟨fun hm => assembleLine_of_line hm hfp, fun hm => assembleLine_of_line hm hfp,
      fun hm => assembleLine_of_line hm hfp, fun hm => assembleLine_of_line hm hfp⟩
  · have hmem : [AsmOperand.fp (fpNumeral (BitVec.ofNat 4 d)), .mem off.toInt (BitVec.ofNat 5 b).toNat] =
        [.fp (2 * d), .mem off.toInt b] := by rw [fpNumeral_ofNat hd, BitVec.toNat_ofNat, Nat.mod_eq_of_lt hb]
    exact ⟨fun hm => assembleLine_of_line hm hmem, fun hm => assembleLine_of_line hm hmem⟩
  · obtain ⟨hm, rfl⟩ := assembleLine_eq_some_iff.1 h
    exact ⟨hm, operandsOf_shape i⟩
  · rw [Option.eq_none_iff_forall_ne_some]
    intro i hi
    obtain ⟨hm, rfl⟩ := assembleLine_eq_some_iff.1 hi
    rcases h with hunknown | ⟨n, hn, hbad⟩ | ⟨o, n, hn, hbad⟩ | ⟨op, hop, hcount⟩
    · exact hunknown i.op hm
    · have := numeral_of_fp_mem_operandsOf hn
      omega
    · have := bounds_of_mem_mem_operandsOf hn
      omega
    · obtain rfl : op = i.op := Option.some.inj (((opNamed_iff m op).2 hop).symm.trans ((opNamed_iff m i.op).2 hm))
      exact hcount (operandsOf_length i)

end Sys2Proof.Machine

/-! ### One cycle (R80, R81) -/

namespace Sys2Proof.Machine

theorem cycleWith_of_exec {i : Instr} {s u : State} (h : exec i (tick s) = .next u) : cycleWith i s = .next (finishCycle u) := by
  rw [cycleWith, h]

/-- Settles O10: `finishCycle` is the three stages after Issue, which answers a next state for every instruction. -/
theorem cycleRunsStagesInOrder : Obligations.CycleRunsStagesInOrder := by
  intro s
  refine ⟨step_of_not_run, fun hrun hend => ?_, fun hrun w i hw hi => ?_⟩
  · rw [step_of_run hrun, runCycle_of_end (by simp [hend])]
    rfl
  · obtain ⟨u, hu⟩ := exec_next i (tick s)
    refine ⟨u, hu, ?_⟩
    rw [step_of_run hrun, runCycle_of_record hw hi, cycleWith_of_exec hu]
    rfl

/-- R80, R81: what a step of a running block does, by the record at `NEXT`. -/
theorem step_run_cases {s t : State} (hrun : s.status = .run) (h : step s = .next t) :
    (s.prog[s.next]? = none ∧ t = finishCycle (tick s)) ∨
    ∃ w i u, s.prog[s.next]? = some w ∧ decodeRecord s.params.nFpr w = some i ∧ exec i (tick s) = .next u ∧ t = finishCycle u := by
  rw [step_of_run hrun] at h
  cases hw : s.prog[s.next]? with
  | none =>
    rw [runCycle_of_end hw] at h
    cases h
    exact .inl ⟨rfl, rfl⟩
  | some w =>
    cases hi : decodeRecord s.params.nFpr w with
    | none => simp [runCycle, fetch, hw, hi] at h
    | some i =>
      obtain ⟨u, hu⟩ := exec_next i (tick s)
      rw [runCycle_of_record hw hi, cycleWith_of_exec hu] at h
      cases h
      exact .inr ⟨w, i, u, rfl, hi, hu, rfl⟩

end Sys2Proof.Machine

/-! ### Timing does not depend on data (R106) -/

namespace Sys2Proof.Machine

/-- Two lists with the same images under `τ`, filtered and mapped by functions that see no more than the image, give the same list. -/
theorem filter_map_eq_of_map_eq {α β γ : Type} {τ : α → β} {p q : α → Bool} {f g : α → γ} {l l' : List α} (h : l.map τ = l'.map τ)
    (hp : ∀ x y, τ x = τ y → p x = q y) (hf : ∀ x y, τ x = τ y → f x = g y) : (l.filter p).map f = (l'.filter q).map g := by
  induction l generalizing l' with
  | nil => rw [List.map_eq_nil_iff.1 h.symm]; rfl
  | cons x l ih =>
    obtain ⟨y, l', rfl, hy, hl⟩ := List.map_eq_cons_iff.1 h.symm
    rw [List.filter_cons, List.filter_cons, hp x y hy.symm]
    split
    · rw [List.map_cons, List.map_cons, hf x y hy.symm, ih hl.symm]
    · exact ih hl.symm

theorem map_eq_of_map_eq {α β γ : Type} {τ : α → β} {f g : α → γ} {l l' : List α} (h : l.map τ = l'.map τ)
    (hf : ∀ x y, τ x = τ y → f x = g y) : l.map f = l'.map g := by
  simpa using filter_map_eq_of_map_eq (p := fun _ => true) (q := fun _ => true) h (fun _ _ _ => rfl) hf

theorem filterMap_eq_of_map_eq {α β γ : Type} {τ : α → β} {f g : α → Option γ} {l l' : List α} (h : l.map τ = l'.map τ)
    (hf : ∀ x y, τ x = τ y → f x = g y) : l.filterMap f = l'.filterMap g := by
  have hmap : ∀ (f : α → Option γ) (l : List α), l.filterMap f = (l.map f).filterMap id := fun f l => by
    rw [List.filterMap_map]; rfl
  rw [hmap, hmap, map_eq_of_map_eq h hf]

/-- What a timestamp can depend on of slots with their identities. -/
theorem tagged_timing {α β : Type} {τ : α → β} {l l' : List α} (p : Pool) (h : l.map τ = l'.map τ) :
    (tagged p l).map (Prod.map id τ) = (tagged p l').map (Prod.map id τ) := by
  have hmap : ∀ l : List α, (tagged p l).map (Prod.map id τ) = tagged p (l.map τ) := fun l => (tagged_map p τ l).symm
  rw [hmap, hmap, h]

theorem releaseIn_map {α β : Type} (τ : α → β) (p : Pool) (free : α) (done : List SlotId) (l : List α) :
    (releaseIn p free done l).map τ = releaseIn p (τ free) done (l.map τ) := by
  apply List.ext_getElem?
  intro i
  simp only [List.getElem?_map, releaseIn_getElem?, Option.map_map]
  congr 1
  funext x
  simp only [Function.comp]
  split <;> rfl

/-- R101 after a change of each slot that keeps what a timestamp can depend on. -/
theorem releaseIn_timing {α β : Type} {τ : α → β} {f g : α → α} {l l' : List α} (h : l.map τ = l'.map τ)
    (hf : ∀ x y, τ x = τ y → τ (f x) = τ (g y)) (p : Pool) (free : α) (done : List SlotId) :
    (releaseIn p free done (l.map f)).map τ = (releaseIn p free done (l'.map g)).map τ := by
  rw [releaseIn_map, releaseIn_map, List.map_map, List.map_map,
    map_eq_of_map_eq (f := τ ∘ f) (g := τ ∘ g) h hf]

/-- The timing of a station determines its head, its readiness, its destination and its tags, and no more. -/
theorem Station.timing_inj {x y : Station} (h : x.timing = y.timing) :
    x.head = y.head ∧ x.qj = y.qj ∧ x.qk = y.qk ∧ x.dest = y.dest := by
  simpa [Station.timing] using h

theorem LoadBuffer.timing_inj {x y : LoadBuffer} (h : x.timing = y.timing) : x.head = y.head ∧ x.dest = y.dest := by
  simpa [LoadBuffer.timing] using h

theorem StoreBuffer.timing_inj {x y : StoreBuffer} (h : x.timing = y.timing) : x.head = y.head ∧ x.qd = y.qd := by
  simpa [StoreBuffer.timing] using h

theorem Station.ready_of_timing {x y : Station} (h : x.timing = y.timing) : x.ready = y.ready := by
  obtain ⟨-, hj, hk, -⟩ := timing_inj h
  rw [ready, ready, hj, hk]

/-- Pools whose heads agree have the same lowest free slot. -/
theorem firstFree_eq_of_timing {α β : Type} {τ : α → β} {head : α → Head} {l l' : List α} (h : l.map τ = l'.map τ)
    (hhead : ∀ x y, τ x = τ y → head x = head y) : firstFree head l = firstFree head l' := by
  have hheads : ∀ l : List α, firstFree head l = (l.map head).findIdx? fun g => !g.busy := fun l => by
    rw [List.findIdx?_map]; rfl
  rw [hheads, hheads, map_eq_of_map_eq h hhead]

/-- The slot and the register of a broadcast: all of it that a tag or an entry of the rename table depends on. -/
def Broadcast.target (b : Broadcast) : SlotId × FReg := (b.src, b.dest)

/-- R99 on the rename table: the entry of the broadcast's register is cleared if it names the broadcast's slot. -/
def clearEntry (rrs : List Tag) (b : SlotId × FReg) : List Tag :=
  if rrs.getD b.2.toNat none = some b.1 then rrs.set b.2.toNat none else rrs

theorem applyBroadcast_rrs (s : State) (b : Broadcast) : (applyBroadcast s b).rrs = clearEntry s.rrs b.target := by
  have hguard : (s.readRRS b.dest = some b.src) ↔ s.rrs.getD b.target.2.toNat none = some b.target.1 := Iff.rfl
  rw [applyBroadcast, forward_rrs, updateRegister, clearEntry, if_congr hguard rfl rfl]
  split <;> rfl

/-- R99: the rename table after a batch depends on the slots and registers of its broadcasts alone. -/
theorem applyBroadcasts_rrs (s : State) (bs : List Broadcast) :
    (bs.foldl applyBroadcast s).rrs = (bs.map Broadcast.target).foldl clearEntry s.rrs := by
  induction bs generalizing s with
  | nil => rfl
  | cons b bs ih => rw [List.foldl_cons, ih, applyBroadcast_rrs]; rfl

/-- R100: the tag of an operand after a batch depends on the slots of its broadcasts alone. -/
theorem delivered_tag (bs : List Broadcast) (v : Word) (q : Tag) :
    (delivered bs v q).2 = q.filter fun r => r ∉ bs.map Broadcast.src := by
  induction bs generalizing v q with
  | nil => cases q <;> rfl
  | cons b bs ih =>
    rw [delivered_cons, ih]
    cases q with
    | none => rfl
    | some r => by_cases hr : r = b.src <;> simp [deliver, hr, Option.filter]

theorem deliveredStation_timing {bs cs : List Broadcast} (hsrc : bs.map Broadcast.src = cs.map Broadcast.src) (x y : Station)
    (h : x.timing = y.timing) : (deliveredStation bs x).timing = (deliveredStation cs y).timing := by
  obtain ⟨hhead, hj, hk, hdest⟩ := Station.timing_inj h
  unfold deliveredStation
  rw [hhead]
  split
  · simp only [Station.timing, delivered_tag, hsrc, hj, hk, hdest]
  · exact h

theorem deliveredStore_timing {bs cs : List Broadcast} (hsrc : bs.map Broadcast.src = cs.map Broadcast.src) (x y : StoreBuffer)
    (h : x.timing = y.timing) : (deliveredStore bs x).timing = (deliveredStore cs y).timing := by
  obtain ⟨hhead, hqd⟩ := StoreBuffer.timing_inj h
  unfold deliveredStore
  rw [hhead]
  split
  · simp only [StoreBuffer.timing, delivered_tag, hsrc, hqd]
  · exact h

theorem commitBatch_rrs (s : State) : (commitBatch s).rrs = (s.broadcasts.map Broadcast.target).foldl clearEntry s.rrs := by
  simp [commitBatch, applyBroadcasts_rrs]

/-- R97: without an access out of range the broadcasts' slots and registers are those of the candidates with a destination. -/
theorem broadcasts_target {s : State} (hr : s.AccessesInRange) :
    s.broadcasts.map Broadcast.target =
      (s.stationCandidates.map fun c => (c.1, c.2.dest)) ++ s.loadCandidates.map fun c => (c.1, c.2.dest) := by
  have hload : ∀ l : List (SlotId × LoadBuffer), (∀ c ∈ l, c ∈ s.loadCandidates) →
      (l.filterMap fun c => (loadValue s s.queuedWrites c.1 (c.2.address s)).map fun v => (⟨c.1, v, c.2.dest⟩ : Broadcast)).map
        Broadcast.target = l.map fun c => (c.1, c.2.dest) := by
    intro l hl
    induction l with
    | nil => rfl
    | cons c l ih =>
      obtain ⟨v, hv⟩ := loadValue_isSome (writes := s.queuedWrites) (q := c.1)
        (accessesInRange_load hr (hl c (List.mem_cons_self ..)))
      rw [List.filterMap_cons_some (by rw [hv]; rfl), List.map_cons, ih fun d hd => hl d (List.mem_cons_of_mem _ hd)]
      rfl
  rw [State.broadcasts, List.map_append, hload _ fun _ hc => hc, List.map_map]
  rfl

namespace SameTiming

variable {s t : State}

theorem nFpr (h : SameTiming s t) : s.params.nFpr = t.params.nFpr := by
  have hparam := congrArg Config.Params.nFpr h.params
  exact hparam

theorem cap (h : SameTiming s t) : s.params.cap = t.params.cap := by
  have hparam := congrArg Config.Params.cap h.params
  exact hparam

theorem latency (h : SameTiming s t) (op : Op) : latency s.params op = latency t.params op := by
  have hlat := congrArg (fun p => Machine.latency p op) h.params
  cases op <;> exact hlat

theorem stamp (h : SameTiming s t) : s.stamp = t.stamp := by
  funext k; rw [State.stamp, State.stamp, h.stamps]

theorem readRRS (h : SameTiming s t) : s.readRRS = t.readRRS := by
  funext f; rw [State.readRRS, State.readRRS, h.rrs]

theorem eligible (h : SameTiming s t) : s.eligible = t.eligible := by
  funext r g; simp only [State.eligible, h.stamp, h.clk]

theorem executeHead (h : SameTiming s t) : s.executeHead = t.executeHead := by
  funext r g; simp only [State.executeHead, h.eligible, h.stamp]

theorem writable (h : SameTiming s t) : s.writable = t.writable := by
  funext g; simp only [State.writable, h.stamp, h.clk]

theorem complete (h : SameTiming s t) : s.complete = t.complete := by
  rw [State.complete, State.complete, h.stamps]

/-! #### Issue -/

theorem issuedHead (h : SameTiming s t) (op : Op) : s.issuedHead op = t.issuedHead op := by
  rw [State.issuedHead, State.issuedHead, h.next, h.latency]

theorem captureStation (h : SameTiming s t) (op : Op) (fa fb fc : FReg) :
    (captureStation s op fa fb fc).timing = (captureStation t op fa fb fc).timing := by
  simp [Station.timing, Machine.captureStation, h.issuedHead, h.readRRS]

theorem captureLoad (h : SameTiming s t) (fa : FReg) (base : IReg) (off : Offset) :
    (captureLoad s fa base off).timing = (captureLoad t fa base off).timing := by
  simp [LoadBuffer.timing, Machine.captureLoad, h.issuedHead]

theorem captureStore (h : SameTiming s t) (fa : FReg) (base : IReg) (off : Offset) :
    (captureStore s fa base off).timing = (captureStore t fa base off).timing := by
  simp [StoreBuffer.timing, Machine.captureStore, h.issuedHead, h.readRRS]

theorem tick (h : SameTiming s t) : SameTiming (tick s) (tick t) :=
  { h with clk := congrArg (· + 1) h.clk }

theorem noteIssue (h : SameTiming s t) : SameTiming (noteIssue s) (noteIssue t) :=
  { h with
    next := congrArg (· + 1) h.next
    stamps := by rw [noteIssue_stamps, noteIssue_stamps, h.stamps, h.next, h.stamp, h.clk] }

theorem claimDestination (h : SameTiming s t) (q : SlotId) (fa : FReg) :
    SameTiming (claimDestination q fa s) (claimDestination q fa t) :=
  { h with rrs := by rw [claimDestination_rrs, claimDestination_rrs, h.rrs] }


theorem issueToAdd (h : SameTiming s t) (op : Op) (fa fb fc : FReg) :
    SameTiming (issueToAdd op fa fb fc s) (issueToAdd op fa fb fc t) := by
  unfold Machine.issueToAdd
  rw [firstFree_eq_of_timing h.adds fun x y hxy => (Station.timing_inj hxy).1]
  cases firstFree Station.head t.adds with
  | none => exact h
  | some j =>
    have hfill : SameTiming { s with adds := s.adds.set j (Machine.captureStation s op fa fb fc) }
        { t with adds := t.adds.set j (Machine.captureStation t op fa fb fc) } :=
      { h with adds := by rw [List.map_set, List.map_set, h.adds, h.captureStation] }
    exact (hfill.claimDestination _ fa).noteIssue

theorem issueToMul (h : SameTiming s t) (op : Op) (fa fb fc : FReg) :
    SameTiming (issueToMul op fa fb fc s) (issueToMul op fa fb fc t) := by
  unfold Machine.issueToMul
  rw [firstFree_eq_of_timing h.muls fun x y hxy => (Station.timing_inj hxy).1]
  cases firstFree Station.head t.muls with
  | none => exact h
  | some j =>
    have hfill : SameTiming { s with muls := s.muls.set j (Machine.captureStation s op fa fb fc) }
        { t with muls := t.muls.set j (Machine.captureStation t op fa fb fc) } :=
      { h with muls := by rw [List.map_set, List.map_set, h.muls, h.captureStation] }
    exact (hfill.claimDestination _ fa).noteIssue

theorem execLD (h : SameTiming s t) (fa : FReg) (base : IReg) (off : Offset) :
    ∃ s' t', execLD fa base off s = .next s' ∧ execLD fa base off t = .next t' ∧ SameTiming s' t' := by
  unfold Machine.execLD
  rw [firstFree_eq_of_timing h.loads fun x y hxy => (LoadBuffer.timing_inj hxy).1]
  cases firstFree LoadBuffer.head t.loads with
  | none => exact ⟨s, t, rfl, rfl, h⟩
  | some j =>
    have hfill : SameTiming { s with loads := s.loads.set j (Machine.captureLoad s fa base off) }
        { t with loads := t.loads.set j (Machine.captureLoad t fa base off) } :=
      { h with loads := by rw [List.map_set, List.map_set, h.loads, h.captureLoad] }
    exact ⟨_, _, rfl, rfl, (hfill.claimDestination _ fa).noteIssue⟩

theorem execSD (h : SameTiming s t) (fa : FReg) (base : IReg) (off : Offset) :
    ∃ s' t', execSD fa base off s = .next s' ∧ execSD fa base off t = .next t' ∧ SameTiming s' t' := by
  unfold Machine.execSD
  rw [firstFree_eq_of_timing h.stores fun x y hxy => (StoreBuffer.timing_inj hxy).1]
  cases firstFree StoreBuffer.head t.stores with
  | none => exact ⟨s, t, rfl, rfl, h⟩
  | some j =>
    have hfill : SameTiming { s with stores := s.stores.set j (Machine.captureStore s fa base off) }
        { t with stores := t.stores.set j (Machine.captureStore t fa base off) } :=
      { h with stores := by rw [List.map_set, List.map_set, h.stores, h.captureStore] }
    exact ⟨_, _, rfl, rfl, hfill.noteIssue⟩

/-- R82 to R86: Issue of one instruction. -/
theorem exec (h : SameTiming s t) (i : Instr) : ∃ s' t', exec i s = .next s' ∧ exec i t = .next t' ∧ SameTiming s' t' := by
  cases i with
  | ld fa base off => exact h.execLD fa base off
  | sd fa base off => exact h.execSD fa base off
  | addD fa fb fc => exact ⟨_, _, rfl, rfl, h.issueToAdd .addD fa fb fc⟩
  | subD fa fb fc => exact ⟨_, _, rfl, rfl, h.issueToAdd .subD fa fb fc⟩
  | mulD fa fb fc => exact ⟨_, _, rfl, rfl, h.issueToMul .mulD fa fb fc⟩
  | divD fa fb fc => exact ⟨_, _, rfl, rfl, h.issueToMul .divD fa fb fc⟩

/-! #### Execute -/

/-- R89: the same slots are eligible. -/
theorem executing (h : SameTiming s t) : s.executing = t.executing := by
  have hstation : ∀ x y : Station, x.timing = y.timing → s.eligible x.ready x.head = t.eligible y.ready y.head := by
    intro x y hxy
    rw [h.eligible, Station.ready_of_timing hxy, (Station.timing_inj hxy).1]
  have hload : ∀ x y : LoadBuffer, x.timing = y.timing → s.eligible true x.head = t.eligible true y.head := by
    intro x y hxy
    rw [h.eligible, (LoadBuffer.timing_inj hxy).1]
  have hstore : ∀ x y : StoreBuffer, x.timing = y.timing → s.eligible true x.head = t.eligible true y.head := by
    intro x y hxy
    rw [h.eligible, (StoreBuffer.timing_inj hxy).1]
  unfold State.executing
  rw [filter_map_eq_of_map_eq h.adds hstation fun x y hxy => (Station.timing_inj hxy).1,
    filter_map_eq_of_map_eq h.muls hstation fun x y hxy => (Station.timing_inj hxy).1,
    filter_map_eq_of_map_eq h.loads hload fun x y hxy => (LoadBuffer.timing_inj hxy).1,
    filter_map_eq_of_map_eq h.stores hstore fun x y hxy => (StoreBuffer.timing_inj hxy).1]

theorem executeStation (h : SameTiming s t) {x y : Station} (hxy : x.timing = y.timing) :
    Station.timing { x with head := s.executeHead x.ready x.head } = Station.timing { y with head := t.executeHead y.ready y.head } := by
  obtain ⟨hhead, hj, hk, hdest⟩ := Station.timing_inj hxy
  rw [Station.timing, Station.timing, h.executeHead, Station.ready_of_timing hxy, hhead, hj, hk, hdest]

theorem executeStage (h : SameTiming s t) : SameTiming (executeStage s) (executeStage t) :=
  { h with
    stamps := by unfold Machine.executeStage; simp only [h.executing, h.stamps, h.clk]
    adds := by
      simp only [Machine.executeStage, List.map_map]
      exact map_eq_of_map_eq h.adds fun x y hxy => h.executeStation hxy
    muls := by
      simp only [Machine.executeStage, List.map_map]
      exact map_eq_of_map_eq h.muls fun x y hxy => h.executeStation hxy
    loads := by
      simp only [Machine.executeStage, List.map_map]
      refine map_eq_of_map_eq h.loads fun x y hxy => ?_
      obtain ⟨hhead, hdest⟩ := LoadBuffer.timing_inj hxy
      simp only [Function.comp, LoadBuffer.timing, h.executeHead, hhead, hdest]
    stores := by
      simp only [Machine.executeStage, List.map_map]
      refine map_eq_of_map_eq h.stores fun x y hxy => ?_
      obtain ⟨hhead, hqd⟩ := StoreBuffer.timing_inj hxy
      simp only [Function.comp, StoreBuffer.timing, h.executeHead, hhead, hqd] }

/-! #### Writeback and the completion check -/

/-- R95: the same stations are candidates. -/
theorem stationCandidates (h : SameTiming s t) :
    s.stationCandidates.map (Prod.map id Station.timing) = t.stationCandidates.map (Prod.map id Station.timing) := by
  refine filter_map_eq_of_map_eq (τ := Prod.map id Station.timing) ?_ (fun x y hxy => ?_) fun x y hxy => hxy
  · rw [List.map_append, List.map_append, tagged_timing .add h.adds, tagged_timing .mul h.muls]
  · rw [h.writable, (Station.timing_inj (Prod.ext_iff.1 hxy).2).1]

theorem loadCandidates (h : SameTiming s t) :
    s.loadCandidates.map (Prod.map id LoadBuffer.timing) = t.loadCandidates.map (Prod.map id LoadBuffer.timing) :=
  filter_map_eq_of_map_eq (tagged_timing .load h.loads)
    (fun x y hxy => by rw [h.writable, (LoadBuffer.timing_inj (Prod.ext_iff.1 hxy).2).1]) fun _ _ hxy => hxy

theorem storeCandidates (h : SameTiming s t) :
    s.storeCandidates.map (Prod.map id StoreBuffer.timing) = t.storeCandidates.map (Prod.map id StoreBuffer.timing) := by
  refine filter_map_eq_of_map_eq (tagged_timing .store h.stores) (fun x y hxy => ?_) fun _ _ hxy => hxy
  obtain ⟨hhead, hqd⟩ := StoreBuffer.timing_inj (Prod.ext_iff.1 hxy).2
  rw [h.writable, hhead, hqd]

theorem candidateSlots (h : SameTiming s t) : s.candidateSlots = t.candidateSlots := by
  have hstation := map_eq_of_map_eq (f := Prod.fst) (g := Prod.fst) h.stationCandidates fun _ _ hxy => (Prod.ext_iff.1 hxy).1
  have hload := map_eq_of_map_eq (f := Prod.fst) (g := Prod.fst) h.loadCandidates fun _ _ hxy => (Prod.ext_iff.1 hxy).1
  have hstore := map_eq_of_map_eq (f := Prod.fst) (g := Prod.fst) h.storeCandidates fun _ _ hxy => (Prod.ext_iff.1 hxy).1
  rw [State.candidateSlots, State.candidateSlots, hstation, hload, hstore]

theorem candidateInstrs (h : SameTiming s t) : s.candidateInstrs = t.candidateInstrs := by
  unfold State.candidateInstrs
  rw [filterMap_eq_of_map_eq h.stationCandidates fun x y hxy => by rw [(Station.timing_inj (Prod.ext_iff.1 hxy).2).1],
    filterMap_eq_of_map_eq h.loadCandidates fun x y hxy => by rw [(LoadBuffer.timing_inj (Prod.ext_iff.1 hxy).2).1],
    filterMap_eq_of_map_eq h.storeCandidates fun x y hxy => by rw [(StoreBuffer.timing_inj (Prod.ext_iff.1 hxy).2).1]]

/-- R97: the broadcasts go from the same slots to the same registers. -/
theorem broadcasts (h : SameTiming s t) (hs : s.AccessesInRange) (ht : t.AccessesInRange) :
    s.broadcasts.map Broadcast.target = t.broadcasts.map Broadcast.target := by
  rw [broadcasts_target hs, broadcasts_target ht, map_eq_of_map_eq h.stationCandidates fun x y hxy => ?_,
    map_eq_of_map_eq h.loadCandidates fun x y hxy => ?_]
  · obtain ⟨hid, htiming⟩ := Prod.ext_iff.1 hxy
    exact Prod.ext hid (LoadBuffer.timing_inj htiming).2
  · obtain ⟨hid, htiming⟩ := Prod.ext_iff.1 hxy
    exact Prod.ext hid (Station.timing_inj htiming).2.2.2

theorem commitBatch (h : SameTiming s t) (hs : s.AccessesInRange) (ht : t.AccessesInRange) :
    SameTiming (commitBatch s) (commitBatch t) := by
  have htarget := h.broadcasts hs ht
  have hsrc : s.broadcasts.map Broadcast.src = t.broadcasts.map Broadcast.src := by
    have := congrArg (List.map Prod.fst) htarget
    simpa [Function.comp_def, Broadcast.target] using this
  obtain ⟨sadds, smuls, sloads, sstores⟩ := deliveredBatch_lists s
  obtain ⟨tadds, tmuls, tloads, tstores⟩ := deliveredBatch_lists t
  constructor
  case params => simpa using h.params
  case clk => simpa using h.clk
  case status => simpa using h.status
  case next => simpa using h.next
  case prog => simpa using h.prog
  case stamps =>
    rw [commitBatch_stamps, commitBatch_stamps, recordWriteback, recordWriteback, h.stamps, h.candidateInstrs, h.clk]
  case adds =>
    rw [commitBatch_eq, commitBatch_eq, release_adds, release_adds, sadds, tadds, h.candidateSlots]
    exact releaseIn_timing h.adds (deliveredStation_timing hsrc) ..
  case muls =>
    rw [commitBatch_eq, commitBatch_eq, release_muls, release_muls, smuls, tmuls, h.candidateSlots]
    exact releaseIn_timing h.muls (deliveredStation_timing hsrc) ..
  case loads =>
    rw [commitBatch_eq, commitBatch_eq, release_loads, release_loads, releaseIn_map, releaseIn_map, sloads, tloads, h.candidateSlots,
      h.loads]
  case stores =>
    rw [commitBatch_eq, commitBatch_eq, release_stores, release_stores, sstores, tstores, h.candidateSlots]
    exact releaseIn_timing h.stores (deliveredStore_timing hsrc) ..
  case rrs => rw [commitBatch_rrs, commitBatch_rrs, htarget, h.rrs]

theorem completionCheck (h : SameTiming s t) : SameTiming (completionCheck s) (completionCheck t) := by
  have hcap : s.params.cap ≤ s.clk ↔ t.params.cap ≤ t.clk := by rw [h.cap, h.clk]
  simp only [Machine.completionCheck, h.status, h.complete, hcap]
  split_ifs
  · exact h
  · exact { h with status := rfl }
  · exact { h with status := rfl }
  · exact h

theorem finishCycle (h : SameTiming s t) (hs : (finishCycle s).status ≠ .fault) (ht : (finishCycle t).status ≠ .fault) :
    SameTiming (finishCycle s) (finishCycle t) := by
  obtain ⟨hsr, hse⟩ := finishCycle_of_not_fault hs
  obtain ⟨htr, hte⟩ := finishCycle_of_not_fault ht
  rw [hse, hte]
  exact (h.executeStage.commitBatch hsr htr).completionCheck

end SameTiming

/-- Settles O44: each stage of a cycle makes states that agree on everything but data of states that do. -/
theorem timingIndependentOfData : Obligations.TimingIndependentOfData := by
  intro s t s' t' h hs ht hsf htf
  by_cases hrun : s.status = .run
  · have hrun' : t.status = .run := h.status ▸ hrun
    rcases step_run_cases hrun hs with ⟨hw, rfl⟩ | ⟨w, i, u, hw, hi, hu, rfl⟩
    · rcases step_run_cases hrun' ht with ⟨-, rfl⟩ | ⟨w', -, -, hw', -⟩
      · exact h.tick.finishCycle hsf htf
      · rw [← h.prog, ← h.next, hw] at hw'
        cases hw'
    · rcases step_run_cases hrun' ht with ⟨hw', -⟩ | ⟨w', i', u', hw', hi', hu', rfl⟩
      · rw [← h.prog, ← h.next, hw] at hw'
        cases hw'
      · rw [← h.prog, ← h.next, hw] at hw'
        cases hw'
        rw [← h.nFpr, hi] at hi'
        cases hi'
        obtain ⟨v, v', hv, hv', hsame⟩ := h.tick.exec i
        rw [hu] at hv
        rw [hu'] at hv'
        cases hv; cases hv'
        exact hsame.finishCycle hsf htf
  · rw [step_of_not_run hrun] at hs
    rw [step_of_not_run (h.status ▸ hrun)] at ht
    cases hs; cases ht
    exact h

end Sys2Proof.Machine

/-! ### Issue (R82 to R87) -/

namespace Sys2Proof.Machine

/-- R81: the record at `NEXT` is a word of the record store that decodes. -/
theorem recordAt_eq_some_iff {s : State} {k : Nat} {i : Instr} :
    s.recordAt k = some i ↔ ∃ w, s.prog[k]? = some w ∧ decodeRecord s.params.nFpr w = some i := by
  simp [State.recordAt, Option.bind_eq_some_iff]

/-- R82: Issue does nothing for an instruction whose pool is full. -/
theorem exec_of_poolFull {i : Instr} {s : State} (h : s.poolFull (poolOf i.op)) : exec i s = .next s := by
  rcases exec_cases i s with ⟨-, he⟩ | ⟨hfree, -⟩
  · exact he
  · exact absurd h hfree

/-- Settles O14: a full pool leaves the state to the later stages, which do not move `NEXT`. -/
theorem fullPoolStallsIssue : Obligations.FullPoolStallsIssue := by
  refine ⟨⟨rfl, rfl, rfl, rfl, rfl, rfl⟩, fun i s => exec_of_poolFull, fun i s hrun hi hfull => ?_⟩
  obtain ⟨w, hw, hdecode⟩ := recordAt_eq_some_iff.1 hi
  have hstall : exec i (tick s) = .next (tick s) := exec_of_poolFull (s := tick s) hfull
  refine ⟨?_, fun hf => (finishCycle_clk_next hf).2⟩
  rw [step_of_run hrun, runCycle_of_record hw hdecode, cycleWith_of_exec hstall]
  rfl

theorem firstFree_lt {α : Type} {head : α → Head} {l : List α} {j : Nat} (h : firstFree head l = some j) : j < l.length := by
  obtain ⟨y, hy, -⟩ := firstFree_some h
  exact (List.getElem?_eq_some_iff.1 hy).1

/-- R83: the slot filled, and the slots beside it. -/
theorem getElem?_set_firstFree {α : Type} {head : α → Head} {l : List α} {j : Nat} (h : firstFree head l = some j) (y : α) :
    (l.set j y)[j]? = some y ∧ OnlySlotChanged j l (l.set j y) :=
  ⟨List.getElem?_set_self (firstFree_lt h), fun _ hi => List.getElem?_set_ne (Ne.symm hi)⟩

/-- R83: the issue is recorded, whatever slot it filled. -/
theorem issueRecorded_noteIssue {s u : State} (hstamps : u.stamps = s.stamps) (hnext : u.next = s.next) (hclk : u.clk = s.clk)
    (hlt : s.next < s.stamps.length) : IssueRecorded s (noteIssue u) where
  issued := by simp [State.stamp, hstamps, hnext, hclk, hlt]
  others := fun k hk => by simp [State.stamp, hstamps, hnext, List.getD_eq_getElem?_getD, Ne.symm hk]
  next := congrArg (· + 1) hnext

/-- R86: the destination is claimed, whatever slot it now names. -/
theorem destinationClaimed_claimDestination {s u : State} {fa : FReg} (q : SlotId) (hrrs : u.rrs = s.rrs)
    (hlt : fa.toNat < s.rrs.length) : DestinationClaimed fa q s (noteIssue (claimDestination q fa u)) where
  claimed := readRRS_writeRRS_same (hrrs ▸ hlt) _
  others := fun f hf => by
    have hread : u.readRRS f = s.readRRS f := by rw [State.readRRS, State.readRRS, hrrs]
    rw [← hread]
    exact readRRS_writeRRS_other u hf _

/-- R84, R85: the station Issue fills, with each operand as value or producer tag. -/
theorem captureStation_eq (s : State) (op : Op) (fa fb fc : FReg) :
    captureStation s op fa fb fc =
      { head := { busy := true, op := op, instr := some s.next, count := latency s.params op }
        vj := if s.readRRS fb = none then s.readF fb else 0, qj := s.readRRS fb
        vk := if s.readRRS fc = none then s.readF fc else 0, qk := s.readRRS fc, dest := fa } := by
  simp only [captureStation, readOperand_value, readOperand_tag, State.issuedHead]

theorem captureStore_eq (s : State) (fa : FReg) (base : IReg) (off : Offset) :
    captureStore s fa base off =
      { head := { busy := true, op := .sd, instr := some s.next, count := s.params.latStore }, base := base, off := off
        vd := if s.readRRS fa = none then s.readF fa else 0, qd := s.readRRS fa } := by
  simp only [captureStore, readOperand_value, readOperand_tag, State.issuedHead, latency]

theorem issueToAdd_of_free {s : State} {j : Nat} (h : firstFree Station.head s.adds = some j) (op : Op) (fa fb fc : FReg) :
    issueToAdd op fa fb fc s =
      noteIssue (claimDestination ⟨.add, j⟩ fa { s with adds := s.adds.set j (captureStation s op fa fb fc) }) := by
  simp only [issueToAdd, h]

theorem issueToMul_of_free {s : State} {j : Nat} (h : firstFree Station.head s.muls = some j) (op : Op) (fa fb fc : FReg) :
    issueToMul op fa fb fc s =
      noteIssue (claimDestination ⟨.mul, j⟩ fa { s with muls := s.muls.set j (captureStation s op fa fb fc) }) := by
  simp only [issueToMul, h]

theorem execLD_of_free {s : State} {j : Nat} (h : firstFree LoadBuffer.head s.loads = some j) (fa : FReg) (base : IReg) (off : Offset) :
    execLD fa base off s =
      .next (noteIssue (claimDestination ⟨.load, j⟩ fa { s with loads := s.loads.set j (captureLoad s fa base off) })) := by
  simp only [execLD, h]

theorem execSD_of_free {s : State} {j : Nat} (h : firstFree StoreBuffer.head s.stores = some j) (fa : FReg) (base : IReg)
    (off : Offset) : execSD fa base off s = .next (noteIssue { s with stores := s.stores.set j (captureStore s fa base off) }) := by
  simp only [execSD, h]

section

variable {s : State} {fa : FReg} {j : Nat} (hw : s.Wf) (hfa : fa.toNat < s.params.nFpr) (hnext : s.next < s.prog.length)
include hw hfa hnext

/-- R82 to R86: an issue to a free add station, for any op of the pool. -/
theorem issueToAdd_effect (hj : firstFree Station.head s.adds = some j) (op : Op) (fb fc : FReg) :
    (issueToAdd op fa fb fc s).adds[j]? = some (captureStation s op fa fb fc) ∧
    OnlySlotChanged j s.adds (issueToAdd op fa fb fc s).adds ∧ (issueToAdd op fa fb fc s).muls = s.muls ∧
    (issueToAdd op fa fb fc s).loads = s.loads ∧ (issueToAdd op fa fb fc s).stores = s.stores ∧
    DestinationClaimed fa ⟨.add, j⟩ s (issueToAdd op fa fb fc s) ∧ IssueRecorded s (issueToAdd op fa fb fc s) ∧
    IssueFrame s (issueToAdd op fa fb fc s) := by
  rw [issueToAdd_of_free hj]
  obtain ⟨hset, hother⟩ := getElem?_set_firstFree hj (captureStation s op fa fb fc)
  exact ⟨hset, hother, rfl, rfl, rfl, destinationClaimed_claimDestination _ rfl (by rw [hw.rrs]; exact hfa),
    issueRecorded_noteIssue rfl rfl rfl (by rw [hw.stamps]; exact hnext),
    ⟨rfl, rfl, rfl, rfl, rfl, rfl, rfl, rfl, fun _ => rfl, rfl⟩⟩

/-- R82 to R86: an issue to a free multiply station, for any op of the pool. -/
theorem issueToMul_effect (hj : firstFree Station.head s.muls = some j) (op : Op) (fb fc : FReg) :
    (issueToMul op fa fb fc s).muls[j]? = some (captureStation s op fa fb fc) ∧
    OnlySlotChanged j s.muls (issueToMul op fa fb fc s).muls ∧ (issueToMul op fa fb fc s).adds = s.adds ∧
    (issueToMul op fa fb fc s).loads = s.loads ∧ (issueToMul op fa fb fc s).stores = s.stores ∧
    DestinationClaimed fa ⟨.mul, j⟩ s (issueToMul op fa fb fc s) ∧ IssueRecorded s (issueToMul op fa fb fc s) ∧
    IssueFrame s (issueToMul op fa fb fc s) := by
  rw [issueToMul_of_free hj]
  obtain ⟨hset, hother⟩ := getElem?_set_firstFree hj (captureStation s op fa fb fc)
  exact ⟨hset, hother, rfl, rfl, rfl, destinationClaimed_claimDestination _ rfl (by rw [hw.rrs]; exact hfa),
    issueRecorded_noteIssue rfl rfl rfl (by rw [hw.stamps]; exact hnext),
    ⟨rfl, rfl, rfl, rfl, rfl, rfl, rfl, rfl, fun _ => rfl, rfl⟩⟩

end

/-- Settles O15: both ops are `issueToAdd`, with one latency. -/
theorem addSubIssue : Obligations.AddSubIssue := by
  intro s fa fb fc j hw hfa hnext hj op hop
  have heffect := issueToAdd_effect hw hfa hnext hj op fb fc
  rw [captureStation_eq] at heffect
  rcases List.mem_pair.1 hop with rfl | rfl
  · exact ⟨_, rfl, heffect⟩
  · exact ⟨_, rfl, heffect⟩

/-- Settles O16: both ops are `issueToMul`, each with its own latency. -/
theorem mulDivIssue : Obligations.MulDivIssue := by
  intro s fa fb fc j hw hfa hnext hj op hop
  have heffect := issueToMul_effect hw hfa hnext hj op fb fc
  rw [captureStation_eq] at heffect
  rcases List.mem_pair.1 hop with rfl | rfl
  · exact ⟨_, rfl, heffect⟩
  · exact ⟨_, rfl, heffect⟩

/-- Settles O17: the lowest free load buffer is filled, its destination claimed, and the issue recorded. -/
theorem loadIssue : Obligations.LoadIssue := by
  intro s fa base off j hw hfa hnext hj
  obtain ⟨hset, hother⟩ := getElem?_set_firstFree hj (captureLoad s fa base off)
  exact ⟨_, execLD_of_free hj fa base off, hset, hother, rfl, rfl, rfl,
    destinationClaimed_claimDestination _ rfl (by rw [hw.rrs]; exact hfa),
    issueRecorded_noteIssue rfl rfl rfl (by rw [hw.stamps]; exact hnext),
    ⟨rfl, rfl, rfl, rfl, rfl, rfl, rfl, rfl, fun _ => rfl, rfl⟩⟩

/-- Settles O18: there is no `claimDestination` in the issue of a store. -/
theorem storeIssue : Obligations.StoreIssue := by
  intro s fa base off j hw hnext hj
  obtain ⟨hset, hother⟩ := getElem?_set_firstFree hj (captureStore s fa base off)
  exact ⟨_, execSD_of_free hj fa base off, hset.trans (congrArg some (captureStore_eq s fa base off)), hother, rfl, rfl, rfl, rfl,
    issueRecorded_noteIssue rfl rfl rfl (by rw [hw.stamps]; exact hnext),
    ⟨rfl, rfl, rfl, rfl, rfl, rfl, rfl, rfl, fun _ => rfl, rfl⟩⟩

/-! ### The frame of Issue (R83 to R86) -/

/-- The pools an issue changes: at most one, and of it one free slot. -/
structure PoolsFramed (p : Pool) (s t : State) : Prop where
  otherAdd : p ≠ .add → t.adds = s.adds
  otherMul : p ≠ .mul → t.muls = s.muls
  otherLoad : p ≠ .load → t.loads = s.loads
  otherStore : p ≠ .store → t.stores = s.stores
  adds : OnlyFreeSlotChanged Station.head s.adds t.adds
  muls : OnlyFreeSlotChanged Station.head s.muls t.muls
  loads : OnlyFreeSlotChanged LoadBuffer.head s.loads t.loads
  stores : OnlyFreeSlotChanged StoreBuffer.head s.stores t.stores

theorem poolsFramed_refl (p : Pool) (s : State) : PoolsFramed p s s :=
  ⟨fun _ => rfl, fun _ => rfl, fun _ => rfl, fun _ => rfl, onlyFreeSlotChanged_refl _ _, onlyFreeSlotChanged_refl _ _,
    onlyFreeSlotChanged_refl _ _, onlyFreeSlotChanged_refl _ _⟩

theorem issueToAdd_poolsFramed (op : Op) (fa fb fc : FReg) (s : State) : PoolsFramed .add s (issueToAdd op fa fb fc s) := by
  cases hj : firstFree Station.head s.adds with
  | none => simpa only [issueToAdd, hj] using poolsFramed_refl _ _
  | some j =>
    rw [issueToAdd_of_free hj]
    exact { poolsFramed_refl .add s with otherAdd := fun h => absurd rfl h, adds := onlyFreeSlotChanged_set hj _ }

theorem issueToMul_poolsFramed (op : Op) (fa fb fc : FReg) (s : State) : PoolsFramed .mul s (issueToMul op fa fb fc s) := by
  cases hj : firstFree Station.head s.muls with
  | none => simpa only [issueToMul, hj] using poolsFramed_refl _ _
  | some j =>
    rw [issueToMul_of_free hj]
    exact { poolsFramed_refl .mul s with otherMul := fun h => absurd rfl h, muls := onlyFreeSlotChanged_set hj _ }

theorem execLD_poolsFramed {fa : FReg} {base : IReg} {off : Offset} {s t : State} (h : execLD fa base off s = .next t) :
    PoolsFramed .load s t := by
  cases hj : firstFree LoadBuffer.head s.loads with
  | none => simp only [execLD, hj] at h; cases h; exact poolsFramed_refl _ _
  | some j =>
    rw [execLD_of_free hj] at h
    cases h
    exact { poolsFramed_refl .load s with otherLoad := fun h => absurd rfl h, loads := onlyFreeSlotChanged_set hj _ }

theorem execSD_poolsFramed {fa : FReg} {base : IReg} {off : Offset} {s t : State} (h : execSD fa base off s = .next t) :
    PoolsFramed .store s t := by
  cases hj : firstFree StoreBuffer.head s.stores with
  | none => simp only [execSD, hj] at h; cases h; exact poolsFramed_refl _ _
  | some j =>
    rw [execSD_of_free hj] at h
    cases h
    exact { poolsFramed_refl .store s with otherStore := fun h => absurd rfl h, stores := onlyFreeSlotChanged_set hj _ }

/-- R82, R83: an issue fills a slot of its instruction's pool alone. -/
theorem exec_poolsFramed {i : Instr} {s t : State} (h : exec i s = .next t) : PoolsFramed (poolOf i.op) s t := by
  cases i with
  | ld fa base off => exact execLD_poolsFramed h
  | sd fa base off => exact execSD_poolsFramed h
  | addD fa fb fc => cases h; exact issueToAdd_poolsFramed .addD fa fb fc s
  | subD fa fb fc => cases h; exact issueToAdd_poolsFramed .subD fa fb fc s
  | mulD fa fb fc => cases h; exact issueToMul_poolsFramed .mulD fa fb fc s
  | divD fa fb fc => cases h; exact issueToMul_poolsFramed .divD fa fb fc s

theorem IssuedInto.frame {s t : State} {i : Instr} {q : SlotId} (h : IssuedInto s i q t) : IssueFrame s t := by
  obtain ⟨hparams, hclk, hstatus, hcode, hinfo, hprog, hfpr, hgpr, hmem, hdraws, -⟩ := h.fields
  exact ⟨hparams, hclk, hstatus, hcode, hinfo, hprog, hfpr, hgpr, fun _ => by rw [hmem], hdraws⟩

/-- R86: an issue leaves every entry of the rename table but its destination's. -/
theorem IssuedInto.readRRS_other {s t : State} {i : Instr} {q : SlotId} (h : IssuedInto s i q t) {f : FReg} (hf : some f ≠ i.dest) :
    t.readRRS f = s.readRRS f := by
  obtain ⟨-, -, -, -, -, -, -, -, -, -, -, -, hrrs⟩ := h.fields
  cases hd : i.dest with
  | none => rw [hd] at hrrs; rw [State.readRRS, hrrs, State.readRRS]
  | some fa =>
    have hne : f ≠ fa := fun e => hf (by rw [e, hd])
    rw [hd] at hrrs
    rw [State.readRRS, hrrs]
    exact readRRS_writeRRS_other s hne _

/-- R83: an issue writes no other instruction's timestamps. -/
theorem IssuedInto.stamp_other {s t : State} {i : Instr} {q : SlotId} (h : IssuedInto s i q t) {k : Nat} (hk : k ≠ s.next) :
    t.stamp k = s.stamp k := by
  obtain ⟨-, -, -, -, -, -, -, -, -, -, -, hstamps, -⟩ := h.fields
  simp [State.stamp, hstamps, List.getD_eq_getElem?_getD, Ne.symm hk]

/-- Settles O19: a stall changes nothing, and an issue into a free slot changes no more than that slot, the claim and its record. -/
theorem issueChangesOnlyIssueState : Obligations.IssueChangesOnlyIssueState := by
  intro i s t h
  obtain ⟨ha, hm, hl, hs, hadds, hmuls, hloads, hstores⟩ := exec_poolsFramed h
  rcases exec_cases i s with ⟨-, he⟩ | ⟨-, x, -, -, -, u, he, hu⟩ <;> rw [he] at h <;> cases h
  · exact ⟨⟨rfl, rfl, rfl, rfl, rfl, rfl, rfl, rfl, fun _ => rfl, rfl⟩, fun _ _ => rfl, fun _ _ => rfl,
      ha, hm, hl, hs, hadds, hmuls, hloads, hstores, .inl rfl⟩
  · obtain ⟨-, -, -, -, -, -, -, -, -, -, hnext, -⟩ := hu.fields
    exact ⟨hu.frame, fun _ => hu.readRRS_other, fun _ => hu.stamp_other,
      ha, hm, hl, hs, hadds, hmuls, hloads, hstores, .inr hnext⟩

end Sys2Proof.Machine

/-! ### Execute (R89 to R94) -/

namespace Sys2Proof.Machine

/-- R90: a slot of an instruction that has not started keeps its countdown. -/
theorem executeView_not_started {s : State} {x : SlotView} {k : Nat} (hk : x.head.instr = some k) (hexs : (s.stamp k).exs = none) :
    s.executeView x = x := by
  simp [State.executeView, State.executeHead, hk, hexs]

/-- R91: an eligible slot of an instruction that has started ticks. -/
theorem executeView_started {s : State} {x : SlotView} {k : Nat} (he : s.EligibleSlot x k) (hexs : (s.stamp k).exs ≠ none) :
    s.executeView x = { x with head := { x.head with count := x.head.count - 1 } } := by
  obtain ⟨e, he'⟩ := Option.ne_none_iff_exists'.1 hexs
  simp [State.executeView, State.executeHead, (eligibleSlot_iff s x).2 ⟨k, he⟩, he.2.1, he']

theorem executeView_mem {s : State} {x : SlotView} (hx : x ∈ s.slots) : s.executeView x ∈ (executeStage s).slots := by
  rw [executeStage_slots]
  exact List.mem_map_of_mem hx

/-- Settles O20: an instruction that has not started makes `executeStamp` record its start and its slot's view stay. -/
theorem executionStartConsumesNoTick : Obligations.ExecutionStartConsumesNoTick := by
  intro s x k hu hx hk he hexs
  refine ⟨by rw [executeStage_stamp_eligible hu hx hk he]; simp only [executeStamp, hexs], ?_⟩
  have hmem := executeView_mem hx
  rwa [executeView_not_started he.2.1 hexs] at hmem

/-- Settles O21: once started, the view of the slot is the ticked one, and the last tick stamps completion. -/
theorem countdownTicksToCompletion : Obligations.CountdownTicksToCompletion := by
  intro s x k hu hx hk he hexs
  refine ⟨?_, executeView_started he hexs ▸ executeView_mem hx⟩
  obtain ⟨e, he'⟩ := Option.ne_none_iff_exists'.1 hexs
  rw [executeStage_stamp_eligible hu hx hk he]
  simp only [executeStamp, he']

/-- R89: the countdown of a slot that is not eligible stays. -/
theorem executeHead_count_not_eligible {s : State} {x : SlotView} {r : Bool} (hr : x.ready = r) (hn : ∀ k, ¬ s.EligibleSlot x k) :
    (s.executeHead r x.head).count = x.head.count := by
  rw [← hr, executeHead_not_eligible hn]

/-- R91, R92: Execute on one slot of a pool: a new countdown, the same if the slot is not eligible. -/
theorem executeStage_getElem? {α : Type} {l : List α} {ready : α → Bool} {head : α → Head} {put : α → Head → α} {s : State} {j : Nat}
    {y : α} (hy : l[j]? = some y) {x : SlotView} (hhead : x.head = head y) (hready : x.ready = ready y) :
    ∃ n, (l.map fun z => put z (s.executeHead (ready z) (head z)))[j]? = some (put y { head y with count := n }) ∧
      ((∀ k, ¬ s.EligibleSlot x k) → n = (head y).count) := by
  refine ⟨(s.executeHead (ready y) (head y)).count, ?_, fun hn => ?_⟩
  · rw [List.getElem?_map, hy, Option.map_some, executeHead_upto_count]
  · rw [← hhead]
    exact executeHead_count_not_eligible hready hn

/-- Settles O22: slot by slot, a head is replaced by itself with the countdown `executeHead` gives it. -/
theorem executeTouchesOnlyEligibleSlots : Obligations.ExecuteTouchesOnlyEligibleSlots := by
  intro s
  refine ⟨fun j y hy => ?_, fun j y hy => ?_, fun j y hy => ?_, fun j y hy => ?_, fun k => executeStage_stamp_other,
    rfl, rfl, rfl, rfl, rfl, rfl, rfl, rfl, rfl, rfl, rfl, rfl⟩
  · exact executeStage_getElem? (ready := Station.ready) (put := fun z g => { z with head := g }) hy (stationView_head _)
      (stationView_ready (by decide) j y)
  · exact executeStage_getElem? (ready := Station.ready) (put := fun z g => { z with head := g }) hy (stationView_head _)
      (stationView_ready (by decide) j y)
  · exact executeStage_getElem? (ready := fun _ => true) (put := fun z g => { z with head := g }) hy (loadView_head (⟨.load, j⟩, y))
      (by simp [SlotView.ready])
  · exact executeStage_getElem? (ready := fun _ => true) (put := fun z g => { z with head := g }) hy (storeView_head (⟨.store, j⟩, y))
      (by simp [SlotView.ready])

/-! ### The broadcasts of a batch (R99, R100, R102) -/

/-- Settles O23: `applyBroadcast_registers` for the broadcast's register and for any other. -/
theorem broadcastGuardsRegisterUpdate : Obligations.BroadcastGuardsRegisterUpdate := by
  intro s b hf hr
  obtain ⟨hunnamed, hnamed⟩ := applyBroadcast_registers s b b.dest
  refine ⟨fun h => ?_, fun h => hunnamed fun hh => h hh.2, fun f hne => ?_⟩
  · obtain ⟨hentry, hvalue⟩ := hnamed rfl h
    exact ⟨hvalue hf, hentry⟩
  · exact (applyBroadcast_registers s b f).1 fun hh => hne hh.1.symm

/-- R100: deliveries from two slots to one operand commute. -/
theorem deliver_comm {b c : Broadcast} (h : b.src ≠ c.src) (v : Word) (q : Tag) :
    deliver c (deliver b v q).1 (deliver b v q).2 = deliver b (deliver c v q).1 (deliver c v q).2 := by
  unfold deliver
  by_cases hb : q = some b.src
  · have hc : q ≠ some c.src := fun hc => h (Option.some.inj (hb.symm.trans hc))
    simp [hb, h]
  · by_cases hc : q = some c.src <;> simp [hb, hc, h.symm]

theorem forwardStation_comm {b c : Broadcast} (h : b.src ≠ c.src) (x : Station) :
    forwardStation c (forwardStation b x) = forwardStation b (forwardStation c x) := by
  by_cases hx : x.head.busy = true
  · simp only [forwardStation, hx, if_true, deliver_comm h]
  · have hidle : ∀ d, forwardStation d x = x := fun _ => if_neg hx
    simp only [hidle]

theorem forwardStore_comm {b c : Broadcast} (h : b.src ≠ c.src) (x : StoreBuffer) :
    forwardStore c (forwardStore b x) = forwardStore b (forwardStore c x) := by
  by_cases hx : x.head.busy = true
  · simp only [forwardStore, hx, if_true, deliver_comm h]
  · have hidle : ∀ d, forwardStore d x = x := fun _ => if_neg hx
    simp only [hidle]

theorem forward_comm {b c : Broadcast} (h : b.src ≠ c.src) (s : State) : forward c (forward b s) = forward b (forward c s) := by
  simp only [forward, List.map_map, Function.comp_def, forwardStation_comm h, forwardStore_comm h]

/-- R99 and R100 touch different state elements. -/
theorem updateRegister_forward (b c : Broadcast) (s : State) : updateRegister c (forward b s) = forward b (updateRegister c s) := by
  have hentry : (forward b s).readRRS c.dest = s.readRRS c.dest := rfl
  unfold updateRegister
  rw [hentry]
  split <;> rfl

/-- R99: whether a broadcast is named by its register's entry does not depend on another slot's broadcast before it. -/
theorem named_after_updateRegister {b c : Broadcast} (h : b.src ≠ c.src) (s : State) :
    (updateRegister b s).readRRS c.dest = some c.src ↔ s.readRRS c.dest = some c.src := by
  obtain ⟨hunnamed, hnamed⟩ := applyBroadcast_registers s b c.dest
  by_cases hb : b.dest = c.dest ∧ s.readRRS c.dest = some b.src
  · have hcleared : (updateRegister b s).readRRS c.dest = none := (hnamed hb.1 hb.2).1
    simp [hcleared, hb.2, h]
  · have hkept : (updateRegister b s).readRRS c.dest = s.readRRS c.dest := (hunnamed hb).2
    rw [hkept]

/-- R99: two broadcasts that are both named go to different registers. -/
theorem updateRegister_comm {b c : Broadcast} (h : b.src ≠ c.src) (s : State) :
    updateRegister c (updateRegister b s) = updateRegister b (updateRegister c s) := by
  have hcb := named_after_updateRegister h s
  have hbc := named_after_updateRegister h.symm s
  have hnot : ∀ {d : Broadcast} {u : State}, ¬ u.readRRS d.dest = some d.src → updateRegister d u = u := fun hd => if_neg hd
  by_cases hc : s.readRRS c.dest = some c.src
  · by_cases hb : s.readRRS b.dest = some b.src
    · have hne : b.dest.toNat ≠ c.dest.toNat := fun e => by
        rw [BitVec.eq_of_toNat_eq e, hc] at hb
        exact h (Option.some.inj hb).symm
      rw [updateRegister, if_pos (hcb.2 hc), updateRegister, if_pos hb, updateRegister.eq_def b (updateRegister c s),
        if_pos (hbc.2 hb), updateRegister, if_pos hc]
      simp only [State.writeF, State.writeRRS, List.set_comm _ _ hne]
    · rw [hnot hb, hnot (mt hbc.1 hb)]
  · rw [hnot hc, hnot (mt hcb.1 hc)]

theorem applyBroadcast_comm {b c : Broadcast} (h : b.src ≠ c.src) (s : State) :
    applyBroadcast (applyBroadcast s b) c = applyBroadcast (applyBroadcast s c) b := by
  unfold applyBroadcast
  rw [updateRegister_forward, updateRegister_forward, forward_comm h, updateRegister_comm h]

/-- Settles O24: broadcasts from different slots commute. -/
theorem broadcastOrderIsIrrelevant : Obligations.BroadcastOrderIsIrrelevant := by
  intro s bs cs hnodup hperm
  refine hperm.foldl_eq' (fun b hb c hc u => ?_) s
  by_cases hbc : b = c
  · rw [hbc]
  · exact applyBroadcast_comm (fun hsrc => hbc (List.inj_on_of_nodup_map hnodup hb hc hsrc)) u

end Sys2Proof.Machine

/-! ### Writeback (R95 to R103) -/

namespace Sys2Proof.Machine

/-- R100: the batch's broadcasts change nothing of a station that does not write back but the operands that wait for a slot of it. -/
theorem deliveredStation_kept {s : State} (hr : s.AccessesInRange) (y : Station) :
    (deliveredStation s.broadcasts y).head = y.head ∧ (deliveredStation s.broadcasts y).dest = y.dest ∧
    s.OperandKept y.vj y.qj (deliveredStation s.broadcasts y).vj (deliveredStation s.broadcasts y).qj ∧
    s.OperandKept y.vk y.qk (deliveredStation s.broadcasts y).vk (deliveredStation s.broadcasts y).qk := by
  unfold deliveredStation
  split
  · exact ⟨rfl, rfl, delivered_kept hr _ _, delivered_kept hr _ _⟩
  · exact ⟨rfl, rfl, fun _ => ⟨rfl, rfl⟩, fun _ => ⟨rfl, rfl⟩⟩

theorem deliveredStore_kept {s : State} (hr : s.AccessesInRange) (y : StoreBuffer) :
    (deliveredStore s.broadcasts y).head = y.head ∧ (deliveredStore s.broadcasts y).base = y.base ∧
    (deliveredStore s.broadcasts y).off = y.off ∧
    s.OperandKept y.vd y.qd (deliveredStore s.broadcasts y).vd (deliveredStore s.broadcasts y).qd := by
  unfold deliveredStore
  split
  · exact ⟨rfl, rfl, rfl, delivered_kept hr _ _⟩
  · exact ⟨rfl, rfl, rfl, fun _ => ⟨rfl, rfl⟩⟩

/-- R101: the view of a candidate's slot after the batch is the free slot. -/
theorem freeView_mem_commitBatch {s : State} {x : SlotView} (hx : x ∈ s.slots) (hc : s.candidate x = true) :
    freeView x.id ∈ (commitBatch s).slots := by
  rw [commitBatch_slots]
  exact List.mem_map.2 ⟨x, hx, if_pos hc⟩

/-- R100: no busy slot waits for a slot that has broadcast. -/
theorem commitBatch_not_waiting {s : State} {q : SlotId} (hq : q ∈ s.broadcasts.map Broadcast.src) {z : SlotView}
    (hz : z ∈ (commitBatch s).slots) (hbusy : z.head.busy = true) : q ∉ z.waits := by
  rw [commitBatch_slots] at hz
  obtain ⟨x, -, rfl⟩ := List.mem_map.1 hz
  unfold State.commitView at hbusy ⊢
  split
  · simp
  · next hc =>
    rw [if_neg hc] at hbusy
    split
    · simp only [List.mem_filter, decide_eq_true_eq, not_and, not_not]
      exact fun _ => hq
    · next hidle => rw [if_neg hidle] at hbusy; exact absurd hbusy hidle

/-- R99: after a batch no entry names a slot that has broadcast to its register. -/
theorem commitBatch_not_named {s : State} {b : Broadcast} (hb : b ∈ s.broadcasts) : (commitBatch s).readRRS b.dest ≠ some b.src := by
  by_cases h : ∃ c ∈ s.broadcasts, c.dest = b.dest ∧ s.readRRS b.dest = some c.src
  · obtain ⟨c, hc, hdest, hnamed⟩ := h
    rw [← hdest] at hnamed ⊢
    rw [(commitBatch_named s hc hnamed).1]
    exact nofun
  · push Not at h
    rw [(commitBatch_unnamed s b.dest fun c hc hh => h c hc hh.1 hh.2).2]
    exact h b hb rfl

/-- Settles O25: the batch stamps, delivers and releases for its candidates, and leaves every other slot, register and timestamp. -/
theorem everyCandidateWritesBack : Obligations.EveryCandidateWritesBack := by
  intro s hr
  rw [writebackStage_inRange hr]
  simp only [writesBack_iff]
  refine ⟨fun x hx k hc hk => ?_, fun k => commitBatch_stamp_other, fun j y hy hn => ?_, fun j y hy hn => ?_, fun j y hy hn => ?_,
    fun j y hy hn => ?_, fun f => commitBatch_register_kept⟩
  · have hcand := (candidateSlot_iff s x).2 ⟨k, hc⟩
    refine ⟨commitBatch_stamp_candidate hx hc hk, ⟨_, freeView_mem_commitBatch hx hcand, by simp⟩, fun d hd => ?_⟩
    obtain ⟨b, hb, hsrc, rfl⟩ := candidate_broadcasts hr hx hcand hd
    rw [← hsrc]
    exact ⟨commitBatch_not_named hb, fun z => commitBatch_not_waiting (List.mem_map_of_mem hb)⟩
  · rw [commitBatch_adds_getElem?, hy, Option.map_some, if_neg hn]
    exact ⟨_, rfl, deliveredStation_kept hr y⟩
  · rw [commitBatch_muls_getElem?, hy, Option.map_some, if_neg hn]
    exact ⟨_, rfl, deliveredStation_kept hr y⟩
  · rw [commitBatch_loads_getElem?, hy, Option.map_some, if_neg hn]
  · rw [commitBatch_stores_getElem?, hy, Option.map_some, if_neg hn]
    exact ⟨_, rfl, deliveredStore_kept hr y⟩

/-- R96 to R101: a finished station delivers its result, and is freed. -/
theorem commitBatch_delivers_station {s : State} (hw : s.Wf) {c : SlotId × Station} (hc : c ∈ s.stationCandidates) {k : Nat}
    (hinstr : c.2.head.instr = some k) (hk : k < s.stamps.length) (hd : c.2.dest.toNat < s.params.nFpr) :
    ResultDelivered c.1 k c.2.dest (stationResult s c.1 c.2) s (commitBatch s) ∧ c.1 ∈ s.candidateSlots := by
  obtain ⟨hslot, hcand⟩ := candidate_cases.2 (.inl ⟨c, hc, rfl⟩)
  exact ⟨commitBatch_delivers (mem_broadcasts.2 (.inl ⟨c, hc, rfl⟩)) hslot rfl hinstr hk (by rw [hw.fpr]; exact hd),
    (id_mem_candidateSlots hslot).2 hcand⟩

/-- Settles O26: a station of pool `Add` is one of the candidate stations, and its op picks the result. -/
theorem addSubResultDelivered : Obligations.AddSubResultDelivered := by
  intro s j k x hw hr hx hinstr hk hd hwritable
  have hc : (⟨.add, j⟩, x) ∈ s.stationCandidates := mem_stationCandidates.2 ⟨.inl (mem_tagged.2 ⟨j, hx, rfl⟩), hwritable⟩
  obtain ⟨hdelivered, hfreed⟩ := commitBatch_delivers_station hw hc hinstr hk hd
  rw [writebackStage_inRange hr]
  refine ⟨fun hop => ?_, fun hop => ?_, ?_⟩
  · simpa only [stationResult, hop, resultAddD] using hdelivered
  · simpa only [stationResult, hop, resultSubD] using hdelivered
  · rw [commitBatch_adds_getElem?, hx, Option.map_some, if_pos hfreed]

/-- Settles O27: the same for a station of pool `Mul`. -/
theorem mulDivResultDelivered : Obligations.MulDivResultDelivered := by
  intro s j k x hw hr hx hinstr hk hd hwritable
  have hc : (⟨.mul, j⟩, x) ∈ s.stationCandidates := mem_stationCandidates.2 ⟨.inr (mem_tagged.2 ⟨j, hx, rfl⟩), hwritable⟩
  obtain ⟨hdelivered, hfreed⟩ := commitBatch_delivers_station hw hc hinstr hk hd
  rw [writebackStage_inRange hr]
  refine ⟨fun hop => ?_, fun hop => ?_, ?_⟩
  · simpa only [stationResult, hop, resultMulD] using hdelivered
  · simpa only [stationResult, hop, resultDivD] using hdelivered
  · rw [commitBatch_muls_getElem?, hx, Option.map_some, if_pos hfreed]

/-! ### Completion and the cap (R104, R105) -/

/-- R105: the unfinished list holds exactly the instructions that have not written back. -/
theorem mem_unfinished {s : State} {k : Nat} : k ∈ s.unfinished ↔ k < s.stamps.length ∧ (s.stamp k).wbk = none := by
  have hstamp : ∀ t, s.stamps[k]? = some t ↔ ∃ h : k < s.stamps.length, s.stamp k = t := by
    intro t
    rw [List.getElem?_eq_some_iff]
    refine exists_congr fun hk => ?_
    rw [State.stamp, List.getD_eq_getElem _ _ hk]
  simp only [State.unfinished, List.mem_map, List.mem_filter, Prod.exists, exists_eq_right, List.mem_zipIdx_iff_getElem?, hstamp,
    Option.isNone_iff_eq_none]
  constructor
  · rintro ⟨t, ⟨hk, rfl⟩, hwbk⟩
    exact ⟨hk, hwbk⟩
  · rintro ⟨hk, hwbk⟩
    exact ⟨_, ⟨hk, rfl⟩, hwbk⟩

/-- R105: the unfinished list ascends. -/
theorem unfinished_pairwise (s : State) : s.unfinished.Pairwise (· < ·) := by
  have hall : (s.stamps.zipIdx.map Prod.snd).Pairwise (· < ·) := by
    rw [List.zipIdx_map_snd]
    exact List.pairwise_lt_range'
  exact hall.sublist (List.filter_sublist.map Prod.snd)

/-- Settles O34: the three cases of the completion check, told apart by whether an instruction is left and by the cap. -/
theorem completionBeforeCap : Obligations.CompletionBeforeCap := by
  intro s hrun
  have hopen : (∃ k < s.stamps.length, (s.stamp k).wbk = none) → s.complete ≠ true := by
    rintro ⟨k, hk, hwbk⟩ hc
    exact complete_iff.1 hc k hk hwbk
  rcases completionCheck_cases hrun with ⟨hc, he⟩ | ⟨hc, hcap, he⟩ | ⟨hc, hcap, he⟩
  · exact ⟨fun _ => he, fun h => absurd hc (hopen h), fun h => absurd hc (hopen h)⟩
  · refine ⟨fun h => ?_, fun _ _ => ⟨he, s.unfinished, ?_, unfinished_pairwise s, fun _ => mem_unfinished⟩, fun _ h => ?_⟩
    · rw [complete_iff.2 h] at hc; cases hc
    · rw [he]; rfl
    · omega
  · refine ⟨fun h => ?_, fun _ h => ?_, fun _ _ => he⟩
    · rw [complete_iff.2 h] at hc; cases hc
    · omega

end Sys2Proof.Machine

/-! ### A ready instruction from cycle to cycle (R87 to R97) -/

namespace Sys2Proof.Machine

@[simp] theorem completionCheck_stamp (s : State) (k : Nat) : (completionCheck s).stamp k = s.stamp k := by
  rw [State.stamp, State.stamp, completionCheck_stamps]

@[simp] theorem completionCheck_slots (s : State) : (completionCheck s).slots = s.slots := by
  rw [State.slots, State.slots, completionCheck_adds, completionCheck_muls, completionCheck_loads, completionCheck_stores]

/-- A busy slot that holds instruction `k` and waits for no operand (R84, R89). -/
structure State.ReadySlot (s : State) (x : SlotView) (k : Nat) : Prop where
  mem : x ∈ s.slots
  busy : x.head.busy = true
  instr : x.head.instr = some k
  waits : x.waits = []

namespace IssueStage

variable {s u : State} {x : SlotView} {k : Nat}

/-- R83: Issue fills a free slot, so a busy one stays. -/
theorem slot_kept (h : IssueStage s u) (hx : x ∈ s.slots) (hbusy : x.head.busy = true) : x ∈ u.slots := by
  cases h with
  | idle hu => subst hu; exact hx
  | fills i y hi hy hfree hpool hu =>
    have hne : x.id ≠ y.id := fun e => by
      rw [slots_id_inj hx hy e, hfree] at hbusy
      cases hbusy
    rw [hu.slots]
    exact List.mem_map.2 ⟨x, hx, if_neg hne⟩

theorem readySlot (h : IssueStage s u) (hx : s.ReadySlot x k) : u.ReadySlot x k :=
  ⟨h.slot_kept hx.mem hx.busy, hx.busy, hx.instr, hx.waits⟩

end IssueStage

section

variable {s : State} {x : SlotView} {k : Nat}

theorem State.ReadySlot.executed (hx : s.ReadySlot x k) : (executeStage s).ReadySlot (s.executeView x) k :=
  ⟨executeView_mem hx.mem, by simp [State.executeView, hx.busy], by simp [State.executeView, hx.instr], hx.waits⟩

/-- R97: a ready slot whose instruction the batch does not stamp is no candidate. -/
theorem State.ReadySlot.not_candidate (hx : s.ReadySlot x k) (hk : k < s.stamps.length)
    (hwbk : ((commitBatch s).stamp k).wbk = none) : s.candidate x = false := by
  by_contra hc
  obtain ⟨k', hk'⟩ := (candidateSlot_iff s x).1 (by simpa using hc)
  obtain ⟨-, hinstr, -⟩ := id hk'
  obtain rfl : k' = k := Option.some.inj (hinstr.symm.trans hx.instr)
  rw [commitBatch_stamp_candidate hx.mem hk' hk] at hwbk
  cases hwbk

/-- R95, R101: a ready slot whose instruction the batch does not stamp stays as it is. -/
theorem State.ReadySlot.committed (hx : s.ReadySlot x k) (hk : k < s.stamps.length) (hwbk : ((commitBatch s).stamp k).wbk = none) :
    (commitBatch s).ReadySlot x k := by
  have hcand := hx.not_candidate hk hwbk
  have hview : s.commitView x = x := by
    rw [State.commitView, hcand, if_neg Bool.false_ne_true, if_pos hx.busy, hx.waits, List.filter_nil, ← hx.waits]
  refine ⟨?_, hx.busy, hx.instr, hx.waits⟩
  rw [commitBatch_slots]
  exact List.mem_map.2 ⟨x, hx.mem, hview⟩

/-- R95: the batch does not stamp an instruction that has completed in no earlier cycle. -/
theorem commitBatch_stamp_not_completed (h : ∀ c ∈ (s.stamp k).cmp, s.clk ≤ c) : (commitBatch s).stamp k = s.stamp k :=
  commitBatch_stamp_other fun _ _ ⟨_, _, ⟨c, hc, hlt⟩, _⟩ => absurd (h c hc) hlt.not_ge

/-- R89 to R92: what the rest of a cycle does to an instruction that was issued before, is ready and has not completed. -/
theorem State.ReadySlot.stamp_executed (hu : s.UniqueOwners) (hx : s.ReadySlot x k) (hk : k < s.stamps.length)
    (hiss : ∃ a ∈ (s.stamp k).iss, a < s.clk) (hcmp : (s.stamp k).cmp = none) :
    (commitBatch (executeStage s)).stamp k = executeStamp s.clk x.head.count (s.stamp k) := by
  have hexec := executeStage_stamp_eligible hu hx.mem hk ⟨hx.busy, hx.instr, hiss, hcmp, fun _ => hx.waits⟩
  rw [commitBatch_stamp_not_completed, hexec]
  intro c hc
  rw [hexec] at hc
  unfold executeStamp at hc
  split at hc
  · rw [Option.mem_def, hcmp] at hc; cases hc
  · split at hc
    · cases hc; exact le_refl _
    · rw [Option.mem_def, hcmp] at hc; cases hc

/-- R89: Execute leaves an instruction that has completed. -/
theorem executeStage_stamp_completed (h : (s.stamp k).cmp ≠ none) : (executeStage s).stamp k = s.stamp k :=
  executeStage_stamp_other fun _ _ ⟨_, _, _, hcmp, _⟩ => h hcmp

/-- R95: a ready slot whose instruction completed in an earlier cycle is a candidate after Execute, which leaves its timestamps. -/
theorem State.ReadySlot.candidate_executed (hx : s.ReadySlot x k) (hcmp : ∃ c ∈ (s.stamp k).cmp, c < s.clk)
    (hwbk : (s.stamp k).wbk = none) :
    (executeStage s).stamp k = s.stamp k ∧ (executeStage s).CandidateSlot (s.executeView x) k := by
  have hexec : (executeStage s).stamp k = s.stamp k := executeStage_stamp_completed fun hn => by
    obtain ⟨c, hc, -⟩ := hcmp
    rw [hn] at hc; cases hc
  obtain ⟨-, hbusy, hinstr, hwaits⟩ := hx.executed
  exact ⟨hexec, hbusy, hinstr, by rw [hexec]; exact hcmp, by rw [hexec]; exact hwbk, fun _ => hwaits⟩

/-- R97: a ready instruction that completed in an earlier cycle writes back. -/
theorem State.ReadySlot.stamp_written (hx : s.ReadySlot x k) (hk : k < s.stamps.length) (hcmp : ∃ c ∈ (s.stamp k).cmp, c < s.clk)
    (hwbk : (s.stamp k).wbk = none) :
    (commitBatch (executeStage s)).stamp k = { s.stamp k with wbk := some s.clk } := by
  obtain ⟨hexec, hcand⟩ := hx.candidate_executed hcmp hwbk
  rw [commitBatch_stamp_candidate hx.executed.mem hcand (by rw [executeStage_stamps_length]; exact hk), hexec, executeStage_clk]

/-- R88, R95: an instruction issued in this very cycle is neither executed nor written back. -/
theorem stamp_just_issued (hiss : (s.stamp k).iss = some s.clk) (hcmp : (s.stamp k).cmp = none) :
    (commitBatch (executeStage s)).stamp k = s.stamp k := by
  have hexec : (executeStage s).stamp k = s.stamp k := executeStage_stamp_other fun _ _ ⟨_, _, ⟨a, ha, hlt⟩, _⟩ => by
    rw [hiss, Option.mem_some_iff] at ha
    omega
  rw [commitBatch_stamp_not_completed (by rw [hexec, hcmp]; exact nofun), hexec]

end

section

variable {s t : State} {x : SlotView} {k : Nat}

/-- R25, R36: the instruction of a ready slot has been issued and has not written back, and its countdown matches its timestamps. -/
theorem State.ReadySlot.facts (hx : s.ReadySlot x k) (h : s.Coherent) :
    k < s.next ∧ (s.stamp k).wbk = none ∧ (∃ a ∈ (s.stamp k).iss, a ≤ s.clk) ∧ (∀ e ∈ (s.stamp k).exs, e ≤ s.clk) ∧
      (∀ c ∈ (s.stamp k).cmp, c ≤ s.clk) ∧ s.Progress x k := by
  obtain ⟨k', hk, ⟨hinstr, -, hwbk, -⟩, hprogress⟩ := h.holds x hx.mem hx.busy
  obtain rfl : k' = k := Option.some.inj (hinstr.symm.trans hx.instr)
  obtain ⟨a, ha⟩ := Option.ne_none_iff_exists'.1 (h.issued k' hk)
  obtain ⟨hiss, hexs, hcmp, -⟩ := h.ordered k' hk
  refine ⟨hk, hwbk, ⟨a, ha, (hiss a ha).2⟩, fun e he => ?_, fun c hc => ?_, hprogress⟩
  · obtain ⟨-, -, -, hle⟩ := hexs e he
    exact hle
  · obtain ⟨-, -, -, hle⟩ := hcmp c hc
    exact hle

variable (hinv : s.Inv) (hrun : s.status = .run) (h : step s = .next t) (hf : t.status ≠ .fault)
include hinv hrun h hf

/-- R90 to R92: what a step does to an instruction in a ready slot that has not completed. -/
theorem State.ReadySlot.step_executed (hx : s.ReadySlot x k) (hcmp : (s.stamp k).cmp = none) :
    t.stamp k = executeStamp (s.clk + 1) x.head.count (s.stamp k) := by
  have hcoherent := hinv.coherent (by rw [hrun]; decide)
  obtain ⟨hk, -, ⟨a, ha, hle⟩, -⟩ := hx.facts hcoherent
  obtain ⟨u, hu, -, rfl⟩ := step_committed hrun h hf
  have hb := hu.between hinv.wf (between_of_coherent hcoherent)
  have hstamp : u.stamp k = s.stamp k := hu.stamp_other hk.ne
  have hclk : u.clk = s.clk + 1 := hu.frame.clk
  have hlen : k < u.stamps.length := by
    rw [(hu.wf hinv.wf).stamps, hu.frame.prog]; exact hk.trans_le hcoherent.nextLe
  rw [completionCheck_stamp, (hu.readySlot hx).stamp_executed hb.unique hlen ⟨a, hstamp ▸ ha, by omega⟩ (hstamp ▸ hcmp), hstamp, hclk]

/-- R95, R97: what a step does to an instruction in a ready slot that has completed. -/
theorem State.ReadySlot.step_written (hx : s.ReadySlot x k) (hcmp : (s.stamp k).cmp ≠ none) :
    t.stamp k = { s.stamp k with wbk := some (s.clk + 1) } := by
  have hcoherent := hinv.coherent (by rw [hrun]; decide)
  obtain ⟨hk, hwbk, -, -, hdone, -⟩ := hx.facts hcoherent
  obtain ⟨c, hc⟩ := Option.ne_none_iff_exists'.1 hcmp
  obtain ⟨u, hu, -, rfl⟩ := step_committed hrun h hf
  have hstamp : u.stamp k = s.stamp k := hu.stamp_other hk.ne
  have hclk : u.clk = s.clk + 1 := hu.frame.clk
  have hlen : k < u.stamps.length := by
    rw [(hu.wf hinv.wf).stamps, hu.frame.prog]; exact hk.trans_le hcoherent.nextLe
  have hle := hdone c hc
  rw [completionCheck_stamp, (hu.readySlot hx).stamp_written hlen ⟨c, hstamp ▸ hc, by omega⟩ (hstamp ▸ hwbk), hstamp, hclk]

/-- A step keeps a ready slot, unless its instruction writes back. -/
theorem State.ReadySlot.step_kept (hx : s.ReadySlot x k) (hwbk : (t.stamp k).wbk = none) :
    ∃ y, t.ReadySlot y k ∧ y.id = x.id ∧ y.head.op = x.head.op := by
  have hcoherent := hinv.coherent (by rw [hrun]; decide)
  obtain ⟨hk, -⟩ := hx.facts hcoherent
  obtain ⟨u, hu, -, rfl⟩ := step_committed hrun h hf
  have hlen : k < (executeStage u).stamps.length := by
    rw [executeStage_stamps_length, (hu.wf hinv.wf).stamps, hu.frame.prog]; exact hk.trans_le hcoherent.nextLe
  rw [completionCheck_stamp] at hwbk
  obtain ⟨hmem, hbusy, hinstr, hwaits⟩ := (hu.readySlot hx).executed.committed hlen hwbk
  exact ⟨u.executeView x, ⟨by rw [completionCheck_slots]; exact hmem, hbusy, hinstr, hwaits⟩, rfl, executeHead_op _ _ _⟩

/-- R83, R88: a step that finds a free slot issues the instruction at `NEXT`; with its sources ready it is then in a ready slot. -/
theorem step_issues {i : Instr} (hi : s.recordAt s.next = some i) (hfree : ¬ s.poolFull (poolOf i.op)) :
    t.stamp s.next = ⟨some (s.clk + 1), none, none, none⟩ ∧
      ((∀ f ∈ i.sources, s.readRRS f = none) → ∃ y, t.ReadySlot y s.next ∧ y.head.op = i.op) := by
  have hcoherent := hinv.coherent (by rw [hrun]; decide)
  have hlt := recordAt_lt hi
  rcases step_next_cases h with ⟨hn, -⟩ | ⟨-, hend, -⟩ | ⟨-, j, hj, hfull, -⟩ | ⟨-, j, hj, -, x, hx, hbusy, hpool, u, hu, rfl⟩
  · exact absurd hrun hn
  · omega
  · rw [hi] at hj; cases hj; exact absurd hfull hfree
  rw [hi] at hj
  cases hj
  obtain ⟨-, he⟩ := finishCycle_of_not_fault hf
  have hlen : s.next < s.stamps.length := by rw [hinv.wf.stamps]; exact hlt
  have hstamp : u.stamp s.next = ⟨some (s.clk + 1), none, none, none⟩ := by
    obtain ⟨-, -, -, -, -, -, -, -, -, -, -, hstamps, -⟩ := hu.fields
    have hempty : s.stamp s.next = Stamps.empty := hcoherent.notIssued _ hlt le_rfl
    rw [State.stamp, hstamps]
    simp [hlen, show (tick s).stamp s.next = Stamps.empty from hempty]
  have hclk : u.clk = s.clk + 1 := hu.frame.clk
  have hcommit := stamp_just_issued (s := u) (k := s.next) (by rw [hstamp, hclk]) (by rw [hstamp])
  rw [he, completionCheck_stamp, hcommit, hstamp]
  refine ⟨rfl, fun hsources => ?_⟩
  have hready : u.ReadySlot (issuedView (tick s) i x.id) s.next := by
    refine ⟨?_, rfl, rfl, ?_⟩
    · rw [hu.slots]
      exact List.mem_map.2 ⟨x, hx, if_pos rfl⟩
    · exact List.flatMap_eq_nil_iff.2 fun f hfs => by
        rw [show (tick s).readRRS f = none from hsources f hfs]; rfl
  obtain ⟨hmem, hbusy, hinstr, hwaits⟩ := hready.executed.committed
    (by rw [executeStage_stamps_length, (hu.wf (tick_wf hinv.wf)).stamps, hu.frame.prog]; exact hlt) (by rw [hcommit, hstamp])
  exact ⟨_, ⟨by rw [completionCheck_slots]; exact hmem, hbusy, hinstr, hwaits⟩, executeHead_op _ _ _⟩

end

end Sys2Proof.Machine

/-! ### Runs of several steps -/

namespace Sys2Proof.Machine

theorem run_zero {s u : State} (h : Sys2Proof.core.run 0 s = .next u) : u = s := by
  cases h
  rfl

theorem run_of_step {m : Nat} {s t : State} (h : step s = .next t) : Sys2Proof.core.run (m + 1) s = Sys2Proof.core.run m t := by
  have hstep : Sys2Proof.core.step s = .next t := h
  simp only [Host.Core.run, hstep]

/-- A run is a step and the rest of the run. -/
theorem run_succ {m : Nat} {s u : State} (h : Sys2Proof.core.run (m + 1) s = .next u) :
    ∃ t, step s = .next t ∧ Sys2Proof.core.run m t = .next u := by
  have hstep : Sys2Proof.core.step s = step s := rfl
  cases hs : step s with
  | next t => exact ⟨t, rfl, run_of_step hs ▸ h⟩
  | fault r => simp only [Host.Core.run, hstep, hs] at h; cases h
  | refused r => simp only [Host.Core.run, hstep, hs] at h; cases h

/-- R21: a block that does not run stays as it is. -/
theorem run_of_not_run {m : Nat} {s : State} (h : s.status ≠ .run) : Sys2Proof.core.run m s = .next s := by
  induction m with
  | zero => rfl
  | succ m ih => rw [run_of_step (step_of_not_run h), ih]

/-- R132: a run that does not end in a fault never was in one. -/
theorem run_not_fault {m : Nat} {s u : State} (h : Sys2Proof.core.run m s = .next u) (hf : u.status ≠ .fault) : s.status ≠ .fault := by
  intro hs
  rw [run_of_not_run (by rw [hs]; decide)] at h
  cases h
  exact hf hs

/-- What every step of a run from a state of the invariant keeps holds at its end, short of a fault. -/
theorem run_induction {P : State → Prop}
    (hstep : ∀ s t : State, s.Inv → s.status ≠ .fault → t.status ≠ .fault → step s = .next t → P s → P t) {m : Nat} {s u : State}
    (hinv : s.Inv) (h : Sys2Proof.core.run m s = .next u) (hf : u.status ≠ .fault) (hp : P s) : u.Inv ∧ P u := by
  induction m generalizing s with
  | zero => cases run_zero h; exact ⟨hinv, hp⟩
  | succ m ih =>
    have hs := run_not_fault h hf
    obtain ⟨t, ht, hrest⟩ := run_succ h
    exact ih (stepKeepsInvariant s t hinv ht) hrest (hstep s t hinv hs (run_not_fault hrest hf) ht hp)

/-- R104, R105: a block with an instruction that has not written back runs, short of a fault and of the cap. -/
theorem running_of_not_written {s : State} (hinv : s.Inv) (hf : s.status ≠ .fault) {k : Nat} (hk : k < s.prog.length)
    (hwbk : (s.stamp k).wbk = none) (hcap : s.clk < s.params.cap) : s.status = .run := by
  have hcoherent := hinv.coherent hf
  have hopen : s.complete ≠ true := fun hc => complete_iff.1 hc k (by rw [hinv.wf.stamps]; exact hk) hwbk
  cases hs : s.status with
  | run => rfl
  | done => exact absurd (hcoherent.finished hs) hopen
  | capHalt => exact absurd (hcoherent.halted hs).2 (by omega)
  | fault => exact absurd hs hf

/-- R105: a step short of the cap, after which an instruction has not written back, leaves the block running. -/
theorem step_keeps_running {s t : State} {k : Nat} (hinv : s.Inv) (hrun : s.status = .run) (h : step s = .next t)
    (hf : t.status ≠ .fault) (hcap : s.clk + 1 < s.params.cap) (hk : k < s.prog.length) (hwbk : (t.stamp k).wbk = none) :
    t.status = .run := by
  obtain ⟨hparams, hlength, -⟩ := recordsAndIntegersNeverChange s t h
  have hclk : t.clk = s.clk + 1 := (clockCountsCycles s t h).1 hrun hf
  exact running_of_not_written (stepKeepsInvariant s t hinv h) hf (by rw [hlength]; exact hk) hwbk (by rw [hclk, hparams]; exact hcap)

end Sys2Proof.Machine

/-! ### The timing of a ready instruction (R107) -/

namespace Sys2Proof.Machine

/-- R107: the timestamps in cycle `clk` of an instruction of latency `n` that issued in cycle `a` with its sources ready. -/
def timeline (a n clk : Nat) : Stamps where
  iss := some a
  exs := if a + 1 ≤ clk then some (a + 1) else none
  cmp := if a + 1 + n ≤ clk then some (a + 1 + n) else none
  wbk := if a + 2 + n ≤ clk then some (a + 2 + n) else none

theorem timeline_issued (a n : Nat) : timeline a n a = ⟨some a, none, none, none⟩ := by
  simp [timeline]; omega

theorem timeline_started {a n clk : Nat} (h1 : a + 1 ≤ clk) (h2 : clk < a + 1 + n) :
    timeline a n clk = ⟨some a, some (a + 1), none, none⟩ := by
  simp [timeline]; omega

theorem timeline_completed (a n : Nat) : timeline a n (a + 1 + n) = ⟨some a, some (a + 1), some (a + 1 + n), none⟩ := by
  simp [timeline]

theorem timeline_written {a n clk : Nat} (h : a + 2 + n ≤ clk) :
    timeline a n clk = ⟨some a, some (a + 1), some (a + 1 + n), some (a + 2 + n)⟩ := by
  simp [timeline]; omega

/-- A running block in which instruction `k` of latency `n`, issued in cycle `a`, is in the ready slot `x` and on time. -/
structure InFlight (s : State) (k a n : Nat) (x : SlotView) : Prop where
  inv : s.Inv
  run : s.status = .run
  slot : s.ReadySlot x k
  lat : latency s.params x.head.op = n
  onTime : s.stamp k = timeline a n s.clk
  issued : a ≤ s.clk

namespace InFlight

variable {s t : State} {k a n : Nat} {x : SlotView}

theorem coherent (h : InFlight s k a n x) : s.Coherent := h.inv.coherent (by rw [h.run]; decide)

theorem not_written (h : InFlight s k a n x) : s.clk < a + 2 + n := by
  by_contra hn
  obtain ⟨-, hwbk, -⟩ := h.slot.facts h.coherent
  rw [h.onTime, timeline_written (Nat.le_of_not_lt hn)] at hwbk
  cases hwbk

/-- R90 to R97: one cycle of the timetable. -/
theorem step_onTime (h : InFlight s k a n x) (ht : step s = .next t) (hf : t.status ≠ .fault) :
    t.stamp k = timeline a n (s.clk + 1) := by
  obtain ⟨-, -, -, -, -, -, htick, -⟩ := h.slot.facts h.coherent
  have hpos : 1 ≤ n := h.lat ▸ latency_pos h.inv.wf.params _
  have hbefore := h.not_written
  have hissued := h.issued
  rw [h.lat] at htick
  by_cases hstart : s.clk = a
  · have hstamp : s.stamp k = ⟨some a, none, none, none⟩ := by rw [h.onTime, hstart, timeline_issued]
    rw [h.slot.step_executed h.inv h.run ht hf (by rw [hstamp]), hstamp, timeline_started (by omega) (by omega), hstart]
    rfl
  by_cases hdone : s.clk < a + 1 + n
  · have hstamp : s.stamp k = ⟨some a, some (a + 1), none, none⟩ := by rw [h.onTime, timeline_started (by omega) hdone]
    obtain ⟨hcount, hsum⟩ := htick (a + 1) (by rw [hstamp]; rfl) (by rw [hstamp])
    rw [h.slot.step_executed h.inv h.run ht hf (by rw [hstamp]), hstamp]
    by_cases hlast : x.head.count - 1 = 0
    · have hclk : s.clk + 1 = a + 1 + n := by omega
      rw [hclk, timeline_completed]
      simp [executeStamp, hlast]
    · rw [timeline_started (by omega) (by omega)]
      simp [executeStamp, hlast]
  · have hclk : s.clk = a + 1 + n := by omega
    have hstamp : s.stamp k = ⟨some a, some (a + 1), some (a + 1 + n), none⟩ := by rw [h.onTime, hclk, timeline_completed]
    rw [h.slot.step_written h.inv h.run ht hf (by rw [hstamp]; exact nofun), hstamp, timeline_written (by omega), hclk]
    simp; omega

/-- A step short of the write-back leaves the instruction in flight, in the same slot. -/
theorem step_inFlight (h : InFlight s k a n x) (ht : step s = .next t) (hf : t.status ≠ .fault)
    (hlt : s.clk + 1 < a + 2 + n) (hcap : a + 2 + n ≤ s.params.cap) : ∃ y, InFlight t k a n y ∧ y.id = x.id := by
  have hclk : t.clk = s.clk + 1 := (clockCountsCycles s t ht).1 h.run hf
  have hstamp := h.step_onTime ht hf
  have hwbk : (t.stamp k).wbk = none := by
    rw [hstamp]; exact if_neg hlt.not_ge
  obtain ⟨hk, -⟩ := h.slot.facts h.coherent
  obtain ⟨hparams, -⟩ := recordsAndIntegersNeverChange s t ht
  obtain ⟨y, hy, hid, hop⟩ := h.slot.step_kept h.inv h.run ht hf hwbk
  have hissued := h.issued
  exact ⟨y, ⟨stepKeepsInvariant s t h.inv ht,
    step_keeps_running h.inv h.run ht hf (by omega) (hk.trans_le h.coherent.nextLe) hwbk, hy, by rw [hparams, hop, h.lat],
    by rw [hstamp, hclk], by omega⟩, hid⟩

/-- R107: after the cycles left until its write-back the instruction has the timestamps of the timetable. -/
theorem run_onTime {m : Nat} {u : State} (h : InFlight s k a n x) (hm : s.clk + m = a + 2 + n) (hcap : a + 2 + n ≤ s.params.cap)
    (hrun : Sys2Proof.core.run m s = .next u) (hf : u.status ≠ .fault) : u.stamp k = timeline a n (a + 2 + n) := by
  induction m generalizing s x with
  | zero => exact absurd h.not_written (by omega)
  | succ m ih =>
    obtain ⟨t, ht, hrest⟩ := run_succ hrun
    have htf := run_not_fault hrest hf
    by_cases hlast : m = 0
    · subst hlast
      cases run_zero hrest
      rw [h.step_onTime ht htf, show s.clk + 1 = a + 2 + n from hm]
    · obtain ⟨y, hy, -⟩ := h.step_inFlight ht htf (by omega) hcap
      have hclk : t.clk = s.clk + 1 := (clockCountsCycles s t ht).1 h.run htf
      obtain ⟨hparams, -⟩ := recordsAndIntegersNeverChange s t ht
      exact ih hy (by omega) (by rw [hparams]; exact hcap) hrest

end InFlight

/-- R107: an instruction that finds a free slot and its sources ready is in flight after the step that issues it. -/
theorem step_issues_inFlight {s t : State} {i : Instr} (hinv : s.Inv) (hrun : s.status = .run) (ht : step s = .next t)
    (hf : t.status ≠ .fault) (hi : s.recordAt s.next = some i) (hfree : ¬ s.poolFull (poolOf i.op))
    (hsources : ∀ f ∈ i.sources, s.readRRS f = none) (hcap : s.clk + 1 < s.params.cap) :
    ∃ y, InFlight t s.next (s.clk + 1) (latency s.params i.op) y := by
  have hclk : t.clk = s.clk + 1 := (clockCountsCycles s t ht).1 hrun hf
  obtain ⟨hparams, -⟩ := recordsAndIntegersNeverChange s t ht
  obtain ⟨hstamp, hready⟩ := step_issues hinv hrun ht hf hi hfree
  obtain ⟨y, hy, hop⟩ := hready hsources
  exact ⟨y, stepKeepsInvariant s t hinv ht, step_keeps_running hinv hrun ht hf hcap (recordAt_lt hi) (by rw [hstamp]), hy,
    by rw [hparams, hop], by rw [hstamp, hclk, timeline_issued], by rw [hclk]⟩

/-- Settles O45: the first step issues the instruction, and it is in flight until the last one. -/
theorem readyInstructionTiming : Obligations.ReadyInstructionTiming := by
  intro s u i hinv hrun hi hfree hsources hcap hu hf
  obtain ⟨t, ht, hrest⟩ := run_succ hu
  have htf := run_not_fault hrest hf
  obtain ⟨y, hy⟩ := step_issues_inFlight hinv hrun ht htf hi hfree hsources (by omega)
  have hclk : t.clk = s.clk + 1 := (clockCountsCycles s t ht).1 hrun htf
  obtain ⟨hparams, -⟩ := recordsAndIntegersNeverChange s t ht
  rw [hy.run_onTime (by omega) (by rw [hparams]; omega) hrest hf, timeline_written le_rfl]

end Sys2Proof.Machine

/-! ### No deadlock (R108) -/

namespace Sys2Proof.Machine

/-- R108: in how many cycles an instruction of latency `n` with the timestamps `t` in cycle `clk` writes back at the latest, once every
older one has. -/
def Stamps.remaining (n clk : Nat) (t : Stamps) : Nat :=
  match t.wbk, t.cmp, t.exs, t.iss with
  | some _, _, _, _ => 0
  | none, some _, _, _ => 1
  | none, none, some e, _ => n - (clk - e) + 1
  | none, none, none, some _ => n + 2
  | none, none, none, none => n + 3

theorem Stamps.remaining_written {n clk : Nat} {t : Stamps} (h : t.wbk ≠ none) : t.remaining n clk = 0 := by
  obtain ⟨w, hw⟩ := Option.ne_none_iff_exists'.1 h
  simp [remaining, hw]

theorem Stamps.remaining_completed {n clk : Nat} {t : Stamps} (hw : t.wbk = none) (hc : t.cmp ≠ none) : t.remaining n clk = 1 := by
  obtain ⟨c, hc⟩ := Option.ne_none_iff_exists'.1 hc
  simp [remaining, hw, hc]

theorem Stamps.remaining_started {n clk e : Nat} {t : Stamps} (hw : t.wbk = none) (hc : t.cmp = none) (he : t.exs = some e) :
    t.remaining n clk = n - (clk - e) + 1 := by
  simp [remaining, hw, hc, he]

theorem Stamps.remaining_issued {n clk : Nat} {t : Stamps} (hw : t.wbk = none) (hc : t.cmp = none) (he : t.exs = none)
    (hi : t.iss ≠ none) : t.remaining n clk = n + 2 := by
  obtain ⟨a, ha⟩ := Option.ne_none_iff_exists'.1 hi
  simp [remaining, hw, hc, he, ha]

theorem Stamps.remaining_empty (n clk : Nat) : Stamps.empty.remaining n clk = n + 3 := rfl

theorem Stamps.remaining_pos {n clk : Nat} {t : Stamps} (h : t.wbk = none) : 1 ≤ t.remaining n clk := by
  unfold remaining
  split <;> simp_all

theorem Stamps.remaining_le (n clk : Nat) (t : Stamps) : t.remaining n clk ≤ n + 3 := by
  unfold remaining
  split <;> omega

/-- R90 to R92: a cycle of execution brings the write-back nearer. -/
theorem Stamps.remaining_executeStamp {n clk count : Nat} {t : Stamps} (hw : t.wbk = none) (hc : t.cmp = none) (hi : t.iss ≠ none)
    (hcount : ∀ e ∈ t.exs, e ≤ clk ∧ 1 ≤ count ∧ count + (clk - e) = n) (hpos : 1 ≤ n) :
    (executeStamp (clk + 1) count t).remaining n (clk + 1) < t.remaining n clk := by
  cases he : t.exs with
  | none =>
    have hstart : executeStamp (clk + 1) count t = { t with exs := some (clk + 1) } := by simp [executeStamp, he]
    rw [remaining_issued hw hc he hi, hstart, remaining_started (t := { t with exs := some (clk + 1) }) hw hc rfl]
    omega
  | some e =>
    obtain ⟨hle, hone, hsum⟩ := hcount e he
    rw [remaining_started hw hc he]
    by_cases hlast : count - 1 = 0
    · have hdone : executeStamp (clk + 1) count t = { t with cmp := some (clk + 1) } := by simp [executeStamp, he, hlast]
      rw [hdone, remaining_completed (t := { t with cmp := some (clk + 1) }) hw (Option.some_ne_none _)]
      omega
    · have htick : executeStamp (clk + 1) count t = t := by simp [executeStamp, he, hlast]
      rw [htick, remaining_started hw hc he]
      omega

/-- Every instruction before `k` has written back. -/
abbrev State.WrittenBelow (s : State) (k : Nat) : Prop := ∀ j < k, (s.stamp j).wbk ≠ none

namespace State.Coherent

variable {s : State} {k : Nat}

/-- R36: a busy slot holds no instruction that has written back. -/
theorem busy_not_written (h : s.Coherent) {x : SlotView} (hx : x ∈ s.slots) (hbusy : x.head.busy = true) {j : Nat}
    (hj : x.head.instr = some j) : (s.stamp j).wbk = none := by
  obtain ⟨j', -, ⟨hinstr, -, hwbk, -⟩, -⟩ := h.holds x hx hbusy
  obtain rfl : j' = j := Option.some.inj (hinstr.symm.trans hj)
  exact hwbk

/-- R36 items 2 and 4: the oldest instruction that has not written back waits for no operand. -/
theorem oldest_readySlot (h : s.Coherent) (hold : s.WrittenBelow k) (hk : k < s.next) (hwbk : (s.stamp k).wbk = none) :
    ∃ x, s.ReadySlot x k := by
  obtain ⟨x, hx, hbusy, hinstr⟩ := h.occupies k hk hwbk
  refine ⟨x, hx, hbusy, hinstr, List.eq_nil_iff_forall_not_mem.2 fun q hq => ?_⟩
  obtain ⟨y, hy, -, hybusy, -, k', hk', j, hj, hlt⟩ := h.tags x hx q hq
  obtain rfl : k' = k := Option.some.inj (hk'.symm.trans hinstr)
  exact hold j hlt (h.busy_not_written hy hybusy hj)

/-- Once every issued instruction has written back no slot is busy. -/
theorem idle_of_written (h : s.Coherent) (hold : s.WrittenBelow s.next) {x : SlotView} (hx : x ∈ s.slots) : ¬ x.head.busy = true := by
  intro hbusy
  obtain ⟨j, hj, ⟨hinstr, -⟩, -⟩ := h.holds x hx hbusy
  exact hold j hj (h.busy_not_written hx hbusy hinstr)

/-- R70: every record of a block that has passed the record check is an instruction. -/
theorem exists_recordAt (h : s.Coherent) (hk : k < s.prog.length) : ∃ i, s.recordAt k = some i := by
  have hw := List.getElem?_eq_getElem hk
  obtain ⟨i, hi⟩ := (validRecordsAreTheDecodableOnes _ _).1 (h.validRecord_of_getElem? hw)
  exact ⟨i, recordAt_eq_some_iff.2 ⟨_, hw, hi⟩⟩

end State.Coherent

/-- R5, R28: every pool has a slot. -/
theorem exists_slot_of_pool {s : State} (hw : s.Wf) (p : Pool) : ∃ x ∈ s.slots, x.head ∈ s.poolHeads p := by
  obtain ⟨⟨hadd, hmul, hload, hstore, -⟩, -⟩ := hw.params
  cases p with
  | add =>
    have hlt : 0 < s.adds.length := by rw [hw.adds]; exact hadd
    exact ⟨_, mem_slots.2 (.inl ⟨0, _, List.getElem?_eq_getElem hlt, rfl⟩), List.mem_map_of_mem (List.getElem_mem hlt)⟩
  | mul =>
    have hlt : 0 < s.muls.length := by rw [hw.muls]; exact hmul
    exact ⟨_, mem_slots.2 (.inr (.inl ⟨0, _, List.getElem?_eq_getElem hlt, rfl⟩)), List.mem_map_of_mem (List.getElem_mem hlt)⟩
  | load =>
    have hlt : 0 < s.loads.length := by rw [hw.loads]; exact hload
    exact ⟨_, mem_slots.2 (.inr (.inr (.inl ⟨0, _, List.getElem?_eq_getElem hlt, rfl⟩))), List.mem_map_of_mem (List.getElem_mem hlt)⟩
  | store =>
    have hlt : 0 < s.stores.length := by rw [hw.stores]; exact hstore
    exact ⟨_, mem_slots.2 (.inr (.inr (.inr ⟨0, _, List.getElem?_eq_getElem hlt, rfl⟩))), List.mem_map_of_mem (List.getElem_mem hlt)⟩

/-- R108: in every cycle of a running block the oldest instruction that has not written back comes nearer to it. -/
theorem step_remaining_lt {s t : State} {k : Nat} {i : Instr} (hinv : s.Inv) (hrun : s.status = .run) (ht : step s = .next t)
    (hf : t.status ≠ .fault) (hi : s.recordAt k = some i) (hold : s.WrittenBelow k) (hwbk : (s.stamp k).wbk = none) :
    (t.stamp k).remaining (latency s.params i.op) t.clk < (s.stamp k).remaining (latency s.params i.op) s.clk := by
  have hcoherent := hinv.coherent (by rw [hrun]; decide)
  rw [(clockCountsCycles s t ht).1 hrun hf]
  by_cases hk : k < s.next
  · obtain ⟨x, hx⟩ := hcoherent.oldest_readySlot hold hk hwbk
    obtain ⟨-, -, ⟨a, ha, -⟩, hexs, -, -, htick, -⟩ := hx.facts hcoherent
    have hop : latency s.params x.head.op = latency s.params i.op := by
      obtain ⟨k', -, ⟨hinstr, -, -, hop, -⟩, -⟩ := hcoherent.holds x hx.mem hx.busy
      obtain rfl : k' = k := Option.some.inj (hinstr.symm.trans hx.instr)
      rw [hi] at hop
      rw [← Option.some.inj hop]
    rw [hop] at htick
    by_cases hcmp : (s.stamp k).cmp = none
    · rw [hx.step_executed hinv hrun ht hf hcmp]
      exact Stamps.remaining_executeStamp hwbk hcmp (by rw [ha]; exact nofun)
        (fun e he => ⟨hexs e he, htick e he hcmp⟩) (latency_pos hinv.wf.params _)
    · rw [hx.step_written hinv hrun ht hf hcmp, Stamps.remaining_written (Option.some_ne_none _)]
      exact Stamps.remaining_pos hwbk
  · have hissued : k = s.next := by
      by_contra hne
      have hempty := hcoherent.notIssued s.next ((recordAt_lt hi).trans_le' (Nat.le_of_not_lt hk)) le_rfl
      exact hold s.next (by omega) (by rw [hempty])
    subst hissued
    have hfree : ¬ s.poolFull (poolOf i.op) := fun hfull => by
      obtain ⟨x, hx, hmem⟩ := exists_slot_of_pool hinv.wf (poolOf i.op)
      exact hcoherent.idle_of_written hold hx (hfull _ hmem)
    rw [hcoherent.notIssued _ (recordAt_lt hi) le_rfl, Stamps.remaining_empty, (step_issues hinv hrun ht hf hi hfree).1,
      Stamps.remaining_issued rfl rfl rfl (Option.some_ne_none _)]
    omega

/-- What a run keeps of where it started: the parameters, the records, and every timestamp once written. -/
structure RunKeeps (s u : State) : Prop where
  params : u.params = s.params
  prog : u.prog = s.prog
  stamps : ∀ k, (s.stamp k).KeptIn (u.stamp k)

theorem run_keeps {m : Nat} {s u : State} (hinv : s.Inv) (h : Sys2Proof.core.run m s = .next u) (hf : u.status ≠ .fault) :
    u.Inv ∧ RunKeeps s u := by
  refine run_induction (P := RunKeeps s) (fun v t hv _ htf ht hs => ?_) hinv h hf ⟨rfl, rfl, fun _ => .refl _⟩
  obtain ⟨hparams, -, hrest⟩ := recordsAndIntegersNeverChange v t ht
  exact ⟨hparams.trans hs.params, (hrest htf).1.trans hs.prog, fun k => (hs.stamps k).trans (step_stamp_keptIn hv ht htf k)⟩

theorem RunKeeps.recordAt {s u : State} (h : RunKeeps s u) (k : Nat) : u.recordAt k = s.recordAt k := by
  rw [State.recordAt, State.recordAt, h.prog, h.params]

theorem RunKeeps.written {s u : State} (h : RunKeeps s u) {k : Nat} (hk : (s.stamp k).wbk ≠ none) : (u.stamp k).wbk ≠ none := by
  obtain ⟨w, hw⟩ := Option.ne_none_iff_exists'.1 hk
  rw [(h.stamps k).wbk w hw]
  exact Option.some_ne_none w

/-- R20: a run of `m` steps takes at most `m` cycles. -/
theorem run_clk_le {m : Nat} {s u : State} (h : Sys2Proof.core.run m s = .next u) (hf : u.status ≠ .fault) : u.clk ≤ s.clk + m := by
  induction m generalizing s with
  | zero => cases run_zero h; exact le_rfl
  | succ m ih =>
    obtain ⟨t, ht, hrest⟩ := run_succ h
    obtain ⟨hcycle, hstop⟩ := clockCountsCycles s t ht
    have hle := ih hrest
    by_cases hrun : s.status = .run
    · have := hcycle hrun (run_not_fault hrest hf); omega
    · have := hstop hrun; omega

theorem run_add {m n : Nat} {s u : State} (h : Sys2Proof.core.run (m + n) s = .next u) :
    ∃ t, Sys2Proof.core.run m s = .next t ∧ Sys2Proof.core.run n t = .next u := by
  induction m generalizing s with
  | zero => exact ⟨s, rfl, by rwa [Nat.zero_add] at h⟩
  | succ m ih =>
    rw [Nat.succ_add] at h
    obtain ⟨v, hv, hrest⟩ := run_succ h
    obtain ⟨t, ht, hu⟩ := ih hrest
    exact ⟨t, (run_of_step hv).trans ht, hu⟩

/-- A run from a state of the invariant never stops. -/
theorem run_answers (m : Nat) {s : State} (hinv : s.Inv) : ∃ u, Sys2Proof.core.run m s = .next u := by
  induction m generalizing s with
  | zero => exact ⟨s, rfl⟩
  | succ m ih =>
    obtain ⟨t, ht⟩ := invariantStatesNeverStop s hinv
    rw [run_of_step ht]
    exact ih (stepKeepsInvariant s t hinv ht)

/-- R108: the oldest instruction that has not written back does so within the cycles it has left, short of a fault and of the cap. -/
theorem run_writes_oldest {m : Nat} {s u : State} {k : Nat} {i : Instr} (hinv : s.Inv) (hu : Sys2Proof.core.run m s = .next u)
    (hf : u.status ≠ .fault) (hi : s.recordAt k = some i) (hold : s.WrittenBelow k)
    (hm : (s.stamp k).remaining (latency s.params i.op) s.clk ≤ m) (hcap : s.clk + m ≤ s.params.cap) : (u.stamp k).wbk ≠ none := by
  induction m generalizing s with
  | zero =>
    cases run_zero hu
    intro hwbk
    have := Stamps.remaining_pos (n := latency u.params i.op) (clk := u.clk) hwbk
    omega
  | succ m ih =>
    by_cases hwbk : (s.stamp k).wbk = none
    · have hrun := running_of_not_written hinv (run_not_fault hu hf) (recordAt_lt hi) hwbk (by omega)
      obtain ⟨t, ht, hrest⟩ := run_succ hu
      have htf := run_not_fault hrest hf
      have hlt := step_remaining_lt hinv hrun ht htf hi hold hwbk
      have hclk : t.clk = s.clk + 1 := (clockCountsCycles s t ht).1 hrun htf
      obtain ⟨htinv, hkeeps⟩ := run_keeps (m := 1) hinv (run_of_step ht) htf
      have hparams := hkeeps.params
      exact ih htinv hrest (by rw [hkeeps.recordAt, hi]) (fun j hj => hkeeps.written (hold j hj)) (by rw [hparams]; omega)
        (by rw [hparams]; omega)
    · exact (run_keeps hinv hu hf).2.written hwbk

theorem livenessBound_append (p : Config.Params) (l l' : List Word) :
    livenessBound p (l ++ l') = livenessBound p l + livenessBound p l' := by
  simp [livenessBound]

theorem livenessBound_singleton {p : Config.Params} {w : Word} {i : Instr} (h : decodeRecord p.nFpr w = some i) :
    livenessBound p [w] = latency p i.op + 3 := by
  simp [livenessBound, h]

/-- R108: the bound grows by `Lat + 3` with each instruction. -/
theorem livenessBound_take_succ {s : State} {k : Nat} {i : Instr} (h : s.recordAt k = some i) :
    livenessBound s.params (s.prog.take (k + 1)) = livenessBound s.params (s.prog.take k) + (latency s.params i.op + 3) := by
  obtain ⟨w, hw, hdecode⟩ := recordAt_eq_some_iff.1 h
  rw [List.take_add_one, hw, livenessBound_append]
  exact congrArg _ (livenessBound_singleton hdecode)

theorem livenessBound_take_le (p : Config.Params) (l : List Word) (k : Nat) : livenessBound p (l.take k) ≤ livenessBound p l := by
  have := livenessBound_append p (l.take k) (l.drop k)
  rw [List.take_append_drop] at this
  omega

/-- R108: the first `k` instructions have written back by the sum of their latencies plus three each. -/
theorem run_writes_below {s u : State} (hinv : s.Inv) (hclk : s.clk = 0) (hcap : livenessBound s.params s.prog ≤ s.params.cap) (k : Nat)
    (hk : k ≤ s.prog.length) (hu : Sys2Proof.core.run (livenessBound s.params (s.prog.take k)) s = .next u) (hf : u.status ≠ .fault) :
    u.WrittenBelow k := by
  induction k generalizing u with
  | zero => exact fun j hj => absurd hj (Nat.not_lt_zero j)
  | succ k ih =>
    obtain ⟨i, hi⟩ := (hinv.coherent (run_not_fault hu hf)).exists_recordAt hk
    have hbound := livenessBound_take_succ hi
    have hle := livenessBound_take_le s.params s.prog (k + 1)
    rw [hbound] at hu
    obtain ⟨t, ht, hrest⟩ := run_add hu
    have htf := run_not_fault hrest hf
    obtain ⟨htinv, hkeeps⟩ := run_keeps hinv ht htf
    have hold : t.WrittenBelow k := ih (by omega) ht htf
    have htclk := run_clk_le ht htf
    have hrecord : t.recordAt k = some i := by rw [hkeeps.recordAt, hi]
    have hparams := hkeeps.params
    have hlast : (u.stamp k).wbk ≠ none :=
      run_writes_oldest htinv hrest hf hrecord hold (by rw [hparams]; exact Stamps.remaining_le _ _ _) (by rw [hparams]; omega)
    intro j hj
    by_cases hjk : j = k
    · exact hjk ▸ hlast
    · exact (run_keeps htinv hrest hf).2.written (hold j (by omega))

theorem construct_fields (inp : Inputs) :
    (construct inp).params = inp.params ∧ (construct inp).prog = inp.prog ∧ (construct inp).clk = 0 := by
  unfold construct
  split
  · exact ⟨rfl, rfl, rfl⟩
  · dsimp only
    split <;> exact ⟨rfl, rfl, rfl⟩

/-- Settles O47: instruction by instruction in program order, the oldest one left writes back within its latency plus three cycles. -/
theorem everyProgramCompletes : Obligations.EveryProgramCompletes := by
  intro inp hp _ hcap
  obtain ⟨hparams, hprog, hclk⟩ := construct_fields inp
  have hinv := constructionMeetsInvariant inp hp
  obtain ⟨u, hu⟩ := run_answers (livenessBound inp.params inp.prog) hinv
  refine ⟨u, hu, ?_⟩
  by_cases hf : u.status = .fault
  · exact .inr hf
  obtain ⟨huinv, hkeeps⟩ := run_keeps hinv hu hf
  have hall : u.WrittenBelow inp.prog.length :=
    run_writes_below hinv hclk (by rw [hparams, hprog]; exact hcap) inp.prog.length (by rw [hprog])
      (by rw [hparams, hprog, List.take_length]; exact hu) hf
  have hcomplete : u.complete = true := complete_iff.2 (by rw [huinv.wf.stamps, hkeeps.prog, hprog]; exact hall)
  have hcoherent := huinv.coherent hf
  cases hs : u.status with
  | run => rw [hcoherent.running hs] at hcomplete; cases hcomplete
  | done => exact .inl rfl
  | capHalt => rw [(hcoherent.halted hs).1] at hcomplete; cases hcomplete
  | fault => exact absurd hs hf

end Sys2Proof.Machine

/-! ### The result of a ready arithmetic instruction (R84, R99, R111 to R114) -/

namespace Sys2Proof.Machine

/-- The reservation stations with their identities. -/
def State.stations (s : State) : List (SlotId × Station) := tagged .add s.adds ++ tagged .mul s.muls

theorem mem_stations {s : State} {c : SlotId × Station} :
    c ∈ s.stations ↔ (∃ j, s.adds[j]? = some c.2 ∧ c.1 = ⟨.add, j⟩) ∨ ∃ j, s.muls[j]? = some c.2 ∧ c.1 = ⟨.mul, j⟩ := by
  rw [State.stations, List.mem_append, mem_tagged, mem_tagged]

theorem stationView_mem_slots {s : State} {c : SlotId × Station} (h : c ∈ s.stations) : stationView c ∈ s.slots := by
  obtain ⟨q, x⟩ := c
  rcases mem_stations.1 h with ⟨j, hj, rfl⟩ | ⟨j, hj, rfl⟩
  · exact mem_slots.2 (.inl ⟨j, x, hj, rfl⟩)
  · exact mem_slots.2 (.inr (.inl ⟨j, x, hj, rfl⟩))

/-- R83: a busy slot is not the free slot that an issue fills. -/
theorem getElem?_of_onlyFreeSlotChanged {α : Type} {head : α → Head} {before after : List α} (h : OnlyFreeSlotChanged head before after)
    {i : Nat} {y : α} (hy : before[i]? = some y) (hbusy : (head y).busy = true) : after[i]? = some y := by
  obtain ⟨j, hfree, hother⟩ := h
  rw [hother i, hy]
  rintro rfl
  rw [hfree y hy] at hbusy
  cases hbusy

theorem PoolsFramed.station_kept {p : Pool} {s u : State} (h : PoolsFramed p s u) {c : SlotId × Station} (hc : c ∈ s.stations)
    (hbusy : c.2.head.busy = true) : c ∈ u.stations := by
  rw [mem_stations] at hc ⊢
  exact hc.imp (fun ⟨j, hj, hid⟩ => ⟨j, getElem?_of_onlyFreeSlotChanged h.adds hj hbusy, hid⟩)
    fun ⟨j, hj, hid⟩ => ⟨j, getElem?_of_onlyFreeSlotChanged h.muls hj hbusy, hid⟩

/-- A station after Execute. -/
def State.executeStation (s : State) (x : Station) : Station := { x with head := s.executeHead x.ready x.head }

theorem executeStation_mem {s : State} {q : SlotId} {x : Station} (h : (q, x) ∈ s.stations) :
    (q, s.executeStation x) ∈ (executeStage s).stations := by
  have hmap : (executeStage s).stations = s.stations.map fun c => (c.1, s.executeStation c.2) := by
    rw [State.stations, State.stations, List.map_append, ← tagged_map, ← tagged_map]
    rfl
  rw [hmap]
  exact List.mem_map.2 ⟨_, h, rfl⟩

theorem deliveredStation_no_tags (bs : List Broadcast) {x : Station} (hj : x.qj = none) (hk : x.qk = none) :
    deliveredStation bs x = x := by
  unfold deliveredStation
  split
  · obtain ⟨head, vj, qj, vk, qk, dest⟩ := x
    subst hj hk
    simp only [delivered_none]
  · rfl

/-- R100, R101: a station that waits for nothing and does not write back stays as it is. -/
theorem station_mem_commitBatch {s : State} {c : SlotId × Station} (h : c ∈ s.stations) (hq : c.1 ∉ s.candidateSlots)
    (hj : c.2.qj = none) (hk : c.2.qk = none) : c ∈ (commitBatch s).stations := by
  have hsame := deliveredStation_no_tags s.broadcasts hj hk
  rw [mem_stations] at h ⊢
  refine h.imp (fun ⟨j, hx, hid⟩ => ⟨j, ?_, hid⟩) fun ⟨j, hx, hid⟩ => ⟨j, ?_, hid⟩
  · rw [commitBatch_adds_getElem?, hx, Option.map_some, if_neg (hid ▸ hq), hsame]
  · rw [commitBatch_muls_getElem?, hx, Option.map_some, if_neg (hid ▸ hq), hsame]

/-- What holds a captured result: instruction `k` of op `op` in flight in station `q` with both operand values and its destination. -/
structure InStation (s : State) (k a n : Nat) (op : Op) (fa : FReg) (vj vk : Word) (q : SlotId) (x : Station) : Prop where
  mem : (q, x) ∈ s.stations
  flight : InFlight s k a n (stationView (q, x))
  op : x.head.op = op
  dest : x.dest = fa
  vj : x.vj = vj
  vk : x.vk = vk

/-- A station that waits for no tag has both its operands. -/
theorem no_tags_of_waits {q : SlotId} {x : Station} (h : (stationView (q, x)).waits = []) : x.qj = none ∧ x.qk = none := by
  simpa using h

/-- R80: a cycle of a running block without a fault, with the pools Issue has left. -/
theorem step_committed_framed {s t : State} (hrun : s.status = .run) (h : step s = .next t) (hf : t.status ≠ .fault) :
    ∃ u, IssueStage s u ∧ (∃ p, PoolsFramed p (tick s) u) ∧ (∀ i, s.recordAt s.next = some i → exec i (tick s) = .next u) ∧
      (executeStage u).AccessesInRange ∧ t = completionCheck (commitBatch (executeStage u)) := by
  rcases step_run_cases hrun h with ⟨hend, rfl⟩ | ⟨w, i, u, hw, hi, hu, rfl⟩
  · refine ⟨tick s, .idle rfl, ⟨.add, poolsFramed_refl _ _⟩, fun i hi => ?_, finishCycle_of_not_fault hf⟩
    obtain ⟨w, hw, -⟩ := recordAt_eq_some_iff.1 hi
    rw [hend] at hw; cases hw
  · have hrec : s.recordAt s.next = some i := recordAt_eq_some_iff.2 ⟨w, hw, hi⟩
    refine ⟨u, ?_, ⟨_, exec_poolsFramed hu⟩, fun j hj => ?_, finishCycle_of_not_fault hf⟩
    · rcases exec_cases i (tick s) with ⟨-, he⟩ | ⟨-, x, hx, hbusy, hpool, v, he, hv⟩
      · rw [hu] at he; cases he; exact .idle rfl
      · rw [hu] at he; cases he; exact .fills i x hrec hx hbusy hpool hv
    · rw [hrec] at hj; cases hj; exact hu

/-- The rest of a cycle leaves the operands of an instruction that stays in flight. -/
theorem inStation_of_inFlight {u : State} {k a n : Nat} {q : SlotId} {x : Station} {y : SlotView} (hmem : (q, x) ∈ u.stations)
    (hready : u.ReadySlot (stationView (q, x)) k) (hk : k < u.stamps.length)
    (hy : InFlight (completionCheck (commitBatch (executeStage u))) k a n y) :
    InStation (completionCheck (commitBatch (executeStage u))) k a n x.head.op x.dest x.vj x.vk q (u.executeStation x) := by
  obtain ⟨-, hwbk, -⟩ := hy.slot.facts hy.coherent
  rw [completionCheck_stamp] at hwbk
  have hexec := executeStation_mem hmem
  have hview : stationView (q, u.executeStation x) = u.executeView (stationView (q, x)) :=
    slots_id_inj (stationView_mem_slots hexec) (executeView_mem hready.mem) rfl
  have hslot : (executeStage u).ReadySlot (stationView (q, u.executeStation x)) k := hview ▸ hready.executed
  have hnot : q ∉ (executeStage u).candidateSlots := fun hc => by
    have hcand := (id_mem_candidateSlots hslot.mem).1 hc
    rw [hslot.not_candidate (by rw [executeStage_stamps_length]; exact hk) hwbk] at hcand
    cases hcand
  obtain ⟨hj, hk⟩ := no_tags_of_waits hslot.waits
  have hstation : (q, u.executeStation x) ∈ (completionCheck (commitBatch (executeStage u))).stations := by
    rw [State.stations, completionCheck_adds, completionCheck_muls]
    exact station_mem_commitBatch hexec hnot hj hk
  have hsame : y = stationView (q, u.executeStation x) := by
    have hmem := stationView_mem_slots hstation
    exact slots_id_inj hy.slot.mem hmem (hy.coherent.unique _ hy.slot.mem _ hmem hy.slot.busy hslot.busy
      (hy.slot.instr.trans hslot.instr.symm))
  exact ⟨hstation, hsame ▸ hy, executeHead_op _ _ _, rfl, rfl, rfl⟩

/-- R82, R83: a pool that is not full has a lowest free slot. -/
theorem exists_firstFree {α : Type} {head : α → Head} {l : List α} (h : ¬ ∀ g ∈ l.map head, g.busy = true) :
    ∃ j, firstFree head l = some j := by
  refine Option.ne_none_iff_exists'.1 fun hnone => h fun g hg => ?_
  obtain ⟨y, hy, rfl⟩ := List.mem_map.1 hg
  exact firstFree_none.1 hnone y hy

/-- The four arithmetic instructions with their ops, as the statement lists them. -/
abbrev arithInstrs (fa fb fc : FReg) : List (Op × Instr) :=
  [(Op.addD, Instr.addD fa fb fc), (Op.subD, .subD fa fb fc), (Op.mulD, .mulD fa fb fc), (Op.divD, .divD fa fb fc)]

/-- R82, R111 to R114: Issue of an arithmetic instruction, by the pool of its op. -/
theorem exec_arith {op : Op} {fa fb fc : FReg} {i : Instr} (hi : (op, i) ∈ arithInstrs fa fb fc) (s : State) :
    i.op = op ∧ i.sources = [fb, fc] ∧
      (poolOf op = .add ∧ exec i s = .next (issueToAdd op fa fb fc s) ∨
        poolOf op = .mul ∧ exec i s = .next (issueToMul op fa fb fc s)) := by
  simp only [arithInstrs, List.mem_cons, Prod.mk.injEq, List.not_mem_nil, or_false] at hi
  rcases hi with ⟨rfl, rfl⟩ | ⟨rfl, rfl⟩ | ⟨rfl, rfl⟩ | ⟨rfl, rfl⟩
  · exact ⟨rfl, rfl, .inl ⟨rfl, rfl⟩⟩
  · exact ⟨rfl, rfl, .inl ⟨rfl, rfl⟩⟩
  · exact ⟨rfl, rfl, .inr ⟨rfl, rfl⟩⟩
  · exact ⟨rfl, rfl, .inr ⟨rfl, rfl⟩⟩

/-- R84, R85: an arithmetic instruction that finds a free station is captured in one, with its operands as they are. -/
theorem exec_captures {s u : State} {op : Op} {fa fb fc : FReg} {i : Instr} (hi : (op, i) ∈ arithInstrs fa fb fc)
    (hfree : ¬ s.poolFull (poolOf op)) (hu : exec i s = .next u) : ∃ q, (q, captureStation s op fa fb fc) ∈ u.stations := by
  obtain ⟨-, -, ⟨hp, he⟩ | ⟨hp, he⟩⟩ := exec_arith hi s <;> rw [he] at hu <;> cases hu <;> rw [hp] at hfree
  · obtain ⟨j, hj⟩ := exists_firstFree hfree
    rw [issueToAdd_of_free hj]
    exact ⟨⟨.add, j⟩, mem_stations.2 (.inl ⟨j, (getElem?_set_firstFree hj _).1, rfl⟩)⟩
  · obtain ⟨j, hj⟩ := exists_firstFree hfree
    rw [issueToMul_of_free hj]
    exact ⟨⟨.mul, j⟩, mem_stations.2 (.inr ⟨j, (getElem?_set_firstFree hj _).1, rfl⟩)⟩

/-- R111 to R114: the result of an arithmetic op on two operands, for a draw of the NaN. -/
def arithResult (draw : Word) (op : Op) (vj vk : Word) : Option Word :=
  match op with
  | .addD => some (fadd draw vj vk)
  | .subD => some (fsub draw vj vk)
  | .mulD => some (fmul draw vj vk)
  | .divD => some (fdiv draw vj vk)
  | .ld => none
  | .sd => none

theorem stationResult_arith {s : State} {q : SlotId} {x : Station} {v : Word}
    (h : v ∈ arithResult (s.nanDraw q) x.head.op x.vj x.vk) : stationResult s q x = v := by
  unfold stationResult
  cases hop : x.head.op <;> rw [hop] at h <;> cases h <;> rfl

namespace InStation

variable {s t : State} {k a n : Nat} {op : Op} {fa : FReg} {vj vk : Word} {q : SlotId} {x : Station}

/-- R84: a step short of the write-back leaves the operands in the station. -/
theorem step_inStation (h : InStation s k a n op fa vj vk q x) (ht : step s = .next t) (hf : t.status ≠ .fault)
    (hlt : s.clk + 1 < a + 2 + n) (hcap : a + 2 + n ≤ s.params.cap) : ∃ x', InStation t k a n op fa vj vk q x' := by
  obtain ⟨hmem, hflight, rfl, rfl, rfl, rfl⟩ := h
  obtain ⟨y, hy, -⟩ := hflight.step_inFlight ht hf hlt hcap
  obtain ⟨u, hu, ⟨p, hp⟩, -, -, rfl⟩ := step_committed_framed hflight.run ht hf
  obtain ⟨hk, -⟩ := hflight.slot.facts hflight.coherent
  have hlen : k < u.stamps.length := by
    rw [(hu.wf hflight.inv.wf).stamps, hu.frame.prog]; exact hk.trans_le hflight.coherent.nextLe
  exact ⟨_, inStation_of_inFlight (hp.station_kept hmem hflight.slot.busy) (hu.readySlot hflight.slot) hlen hy⟩

/-- R96 to R99: the write-back leaves the result in the destination, unless a later instruction has claimed it. -/
theorem step_delivers (h : InStation s k a n op fa vj vk q x) (ht : step s = .next t) (hf : t.status ≠ .fault)
    (hlast : s.clk + 1 = a + 2 + n) (hlatest : ¬ t.superseded k fa) :
    ∃ draw, ∀ v ∈ arithResult draw op vj vk, t.readF fa = v := by
  obtain ⟨hmem, hflight, rfl, rfl, rfl, rfl⟩ := h
  obtain ⟨u, hu, ⟨p, hp⟩, -, hr, rfl⟩ := step_committed_framed hflight.run ht hf
  obtain ⟨hk, hwbk, -⟩ := hflight.slot.facts hflight.coherent
  have huw := hu.wf hflight.inv.wf
  have hbetween := hu.between_execute hflight.inv.wf (between_of_coherent hflight.coherent)
  have hlen : k < u.stamps.length := by
    rw [huw.stamps, hu.frame.prog]; exact hk.trans_le hflight.coherent.nextLe
  have hstamp : u.stamp k = s.stamp k := hu.stamp_other hk.ne
  have hcmp : ∃ c ∈ (u.stamp k).cmp, c < u.clk := by
    have hclk : s.clk = a + 1 + n := by omega
    rw [hstamp, hflight.onTime, hu.frame.clk, hclk, timeline_completed]
    exact ⟨a + 1 + n, rfl, by simp [hclk]⟩
  have hready := hu.readySlot hflight.slot
  have hexec := executeStation_mem (hp.station_kept hmem hflight.slot.busy)
  have hview : stationView (q, u.executeStation x) = u.executeView (stationView (q, x)) :=
    slots_id_inj (stationView_mem_slots hexec) (executeView_mem hready.mem) rfl
  obtain ⟨-, hcandidate⟩ := hready.candidate_executed hcmp (hstamp ▸ hwbk)
  rw [← hview] at hcandidate
  obtain ⟨hbusy, hinstr, -⟩ := id hcandidate
  have hc : (q, u.executeStation x) ∈ (executeStage u).stationCandidates := by
    have hcand := (candidateSlot_iff _ _).2 ⟨k, hcandidate⟩
    rw [State.candidate, Bool.and_eq_true] at hcand
    exact List.mem_filter.2 ⟨hexec, hcand.1⟩
  have hnamed : (executeStage u).readRRS x.dest = some q := by
    refine hbetween.latestNamed _ (stationView_mem_slots hexec) hbusy x.dest rfl k hinstr fun hs => hlatest ?_
    simpa [State.superseded, State.destAt, State.recordAt] using hs
  have hdest : x.dest.toNat < (executeStage u).params.nFpr := by
    rw [← (executeStage_wf huw).rrs]; exact readRRS_in_range hnamed
  obtain ⟨hdelivered, -⟩ := commitBatch_delivers_station (executeStage_wf huw) hc hinstr
    (by rw [executeStage_stamps_length]; exact hlen) hdest
  have hvalue : (commitBatch (executeStage u)).readF x.dest = stationResult (executeStage u) q (u.executeStation x) :=
    (hdelivered.register hnamed).1
  refine ⟨(executeStage u).nanDraw q, fun v hv => ?_⟩
  have hop : (u.executeStation x).head.op = x.head.op := executeHead_op _ _ _
  rw [State.readF, completionCheck_fpr, ← State.readF, hvalue]
  exact stationResult_arith (by rw [hop]; exact hv)

/-- R84, R99: the result after the cycles left until the write-back. -/
theorem run_delivers {m : Nat} {u : State} (h : InStation s k a n op fa vj vk q x) (hm : s.clk + m = a + 2 + n)
    (hcap : a + 2 + n ≤ s.params.cap) (hrun : Sys2Proof.core.run m s = .next u) (hf : u.status ≠ .fault)
    (hlatest : ¬ u.superseded k fa) : ∃ draw, ∀ v ∈ arithResult draw op vj vk, u.readF fa = v := by
  induction m generalizing s x with
  | zero => exact absurd h.flight.not_written (by omega)
  | succ m ih =>
    obtain ⟨t, ht, hrest⟩ := run_succ hrun
    have htf := run_not_fault hrest hf
    by_cases hlast : m = 0
    · subst hlast
      cases run_zero hrest
      exact h.step_delivers ht htf hm hlatest
    · obtain ⟨x', hx'⟩ := h.step_inStation ht htf (by omega) hcap
      have hclk : t.clk = s.clk + 1 := (clockCountsCycles s t ht).1 h.flight.run htf
      obtain ⟨hparams, -⟩ := recordsAndIntegersNeverChange s t ht
      exact ih hx' (by omega) (by rw [hparams]; exact hcap) hrest

end InStation

/-- R84, R85: the step that issues an arithmetic instruction with its sources ready leaves it in a station with their values. -/
theorem step_issues_inStation {s t : State} {op : Op} {fa fb fc : FReg} {i : Instr} (hinv : s.Inv) (hrun : s.status = .run)
    (ht : step s = .next t) (hf : t.status ≠ .fault) (hi : s.recordAt s.next = some i) (harith : (op, i) ∈ arithInstrs fa fb fc)
    (hfree : ¬ s.poolFull (poolOf op)) (hfb : s.readRRS fb = none) (hfc : s.readRRS fc = none) (hcap : s.clk + 1 < s.params.cap) :
    ∃ q x, InStation t s.next (s.clk + 1) (latency s.params op) op fa (s.readF fb) (s.readF fc) q x := by
  obtain ⟨hop, hsources, -⟩ := exec_arith harith s
  obtain ⟨y, hy⟩ := step_issues_inFlight hinv hrun ht hf hi (hop ▸ hfree) (by simp [hsources, hfb, hfc]) hcap
  obtain ⟨u, hu, -, hexec, -, rfl⟩ := step_committed_framed hrun ht hf
  obtain ⟨q, hq⟩ := exec_captures (s := tick s) harith hfree (hexec i hi)
  have hlen : s.next < u.stamps.length := by
    rw [(hu.wf hinv.wf).stamps, hu.frame.prog]; exact recordAt_lt hi
  have hready : u.ReadySlot (stationView (q, captureStation (tick s) op fa fb fc)) s.next := by
    refine ⟨stationView_mem_slots hq, rfl, rfl, ?_⟩
    rw [captureStation_view, show (tick s).readRRS fb = none from hfb, show (tick s).readRRS fc = none from hfc]
    rfl
  have hstation := inStation_of_inFlight hq hready hlen hy
  rw [captureStation_eq, show (tick s).readRRS fb = none from hfb, show (tick s).readRRS fc = none from hfc] at hstation
  exact ⟨q, _, hop ▸ hstation⟩

/-- Settles O46: the operands stay in the station until the write-back, which delivers the result to the register. -/
theorem readyArithmeticResult : Obligations.ReadyArithmeticResult := by
  intro s u op fa fb fc i hinv hrun hi harith hfree hfb hfc hcap hu hf hlatest
  obtain ⟨t, ht, hrest⟩ := run_succ hu
  have htf := run_not_fault hrest hf
  obtain ⟨q, x, hx⟩ := step_issues_inStation hinv hrun ht htf hi harith hfree hfb hfc (by omega)
  have hclk : t.clk = s.clk + 1 := (clockCountsCycles s t ht).1 hrun htf
  obtain ⟨hparams, -⟩ := recordsAndIntegersNeverChange s t ht
  obtain ⟨draw, hresult⟩ := hx.run_delivers (by omega) (by rw [hparams]; omega) hrest hf hlatest
  exact ⟨draw, fun hop => hresult _ (by rw [hop]; rfl), fun hop => hresult _ (by rw [hop]; rfl), fun hop => hresult _ (by rw [hop]; rfl),
    fun hop => hresult _ (by rw [hop]; rfl)⟩

end Sys2Proof.Machine

/-! ### The fields of a packed pattern, and the magnitude of its exponent-and-fraction bits (R110) -/

namespace Sys2Proof.Machine

theorem toNat_packSign {s : Bool} {m : Nat} (hm : m < 2 ^ 63) : (packSign s m).toNat = (if s then 2 ^ 63 else 0) + m := by
  rw [packSign, BitVec.toNat_ofNat]
  split <;> omega

theorem fpSign_eq_decide (x : Word) : fpSign x = decide (2 ^ 63 ≤ x.toNat) := BitVec.msb_eq_decide x

theorem fpSign_packSign {s : Bool} {m : Nat} (hm : m < 2 ^ 63) : fpSign (packSign s m) = s := by
  rw [fpSign_eq_decide, toNat_packSign hm]
  cases s
  · simp only [Bool.false_eq_true, if_false, decide_eq_false_iff_not]; omega
  · simp

theorem fpExp_packSign {s : Bool} {m : Nat} (hm : m < 2 ^ 63) : fpExp (packSign s m) = m / 2 ^ 52 := by
  rw [fpExp, BitVec.extractLsb'_toNat, toNat_packSign hm, Nat.shiftRight_eq_div_pow]
  split <;> omega

theorem fpFrac_packSign {s : Bool} {m : Nat} (hm : m < 2 ^ 63) : fpFrac (packSign s m) = m % 2 ^ 52 := by
  rw [fpFrac, BitVec.extractLsb'_toNat, toNat_packSign hm, Nat.shiftRight_zero]
  split <;> omega

theorem fpFrac_lt (x : Word) : fpFrac x < 2 ^ 52 := BitVec.isLt _

/-- A pattern is its sign and its 63 bits of exponent and fraction. -/
theorem eq_packSign (x : Word) : x = packSign (fpSign x) (fpExp x * 2 ^ 52 + fpFrac x) := by
  have hexp : fpExp x < 2 ^ 11 := BitVec.isLt _
  have hfrac := fpFrac_lt x
  refine BitVec.eq_of_toNat_eq ?_
  rw [toNat_packSign (by omega), fpSign_eq_decide, fpExp, fpFrac, BitVec.extractLsb'_toNat, BitVec.extractLsb'_toNat,
    Nat.shiftRight_eq_div_pow, Nat.shiftRight_zero]
  simp only [decide_eq_true_eq]
  split <;> omega

/-- An infinity is one of two patterns, told apart by the sign. -/
theorem eq_packSign_infBits {x : Word} (h : isInf x = true) : x = packSign (fpSign x) infBits := by
  simp only [isInf, Bool.and_eq_true, beq_iff_eq] at h
  obtain ⟨hexp, hfrac⟩ := h
  conv_lhs => rw [eq_packSign x, hexp, hfrac]
  rfl

/-- The magnitude, in units of 2^-1074, of the exponent and fraction bits `m`, with no bound on the exponent. -/
def patternValue (m : Nat) : Nat :=
  if m / 2 ^ 52 = 0 then m % 2 ^ 52 else (2 ^ 52 + m % 2 ^ 52) * 2 ^ (m / 2 ^ 52 - 1)

theorem magnitude_packSign {s : Bool} {m : Nat} (hm : m < 2 ^ 63) : magnitude (packSign s m) = patternValue m := by
  rw [magnitude, fpExp_packSign hm, fpFrac_packSign hm, patternValue]

theorem magnitude_eq_patternValue (x : Word) : magnitude x = patternValue (fpExp x * 2 ^ 52 + fpFrac x) := by
  have hexp : fpExp x < 2 ^ 11 := BitVec.isLt _
  have hfrac := fpFrac_lt x
  conv_lhs => rw [eq_packSign x]
  exact magnitude_packSign (by omega)

/-- A significand `q` above `k` dropped bits: whether it is subnormal, normal or just carried out of its 53 bits, the pattern made by
adding it to the shifted exponent has its value. -/
theorem patternValue_scaled {k q : Nat} (hq : q ≤ 2 ^ 53) (hk : k ≠ 0 → 2 ^ 52 ≤ q) :
    patternValue (k * 2 ^ 52 + q) = q * 2 ^ k := by
  unfold patternValue
  by_cases hsub : q < 2 ^ 52
  · have hk0 : k = 0 := by by_contra h; exact absurd (hk h) (by omega)
    subst hk0
    rw [if_pos (by omega), pow_zero]; omega
  · by_cases hcarry : q = 2 ^ 53
    · rw [if_neg (by omega), show (k * 2 ^ 52 + q) / 2 ^ 52 - 1 = k + 1 by omega, show (k * 2 ^ 52 + q) % 2 ^ 52 = 0 by omega, hcarry]
      ring
    · rw [if_neg (by omega), show (k * 2 ^ 52 + q) / 2 ^ 52 - 1 = k by omega, show 2 ^ 52 + (k * 2 ^ 52 + q) % 2 ^ 52 = q by omega]

/-- Every pattern is a shifted exponent plus a significand of at most 53 bits. -/
theorem exists_scaled (m : Nat) : ∃ k q, m = k * 2 ^ 52 + q ∧ q < 2 ^ 53 ∧ (k ≠ 0 → 2 ^ 52 ≤ q) :=
  ⟨m / 2 ^ 52 - 1, m - (m / 2 ^ 52 - 1) * 2 ^ 52, by omega, by omega, by omega⟩

/-- Larger patterns are larger magnitudes, which is why a carry out of the significand may move the exponent by itself. -/
theorem patternValue_strictMono : StrictMono patternValue := by
  refine strictMono_nat_of_lt_succ fun m => ?_
  obtain ⟨k, q, rfl, hq, hk⟩ := exists_scaled m
  rw [add_assoc, patternValue_scaled hq.le hk, patternValue_scaled (by omega) fun h => (hk h).trans (by omega)]
  exact Nat.mul_lt_mul_of_pos_right q.lt_succ_self (by positivity)

/-! ### Rounding to nearest, ties to even (R110) -/

/-- The exponent and fraction bits of the rounded magnitude, before an overflow is cut to infinity. -/
def roundedPattern (n d : Nat) : Nat := roundShift n d * 2 ^ 52 + roundedSignificand n d

theorem roundToBinary64_eq (s : Bool) (n d : Nat) : roundToBinary64 s n d = packSign s (min (roundedPattern n d) infBits) := rfl

/-- The truncated significand has at most 53 bits, and all of them when low bits are dropped. -/
theorem truncated_bounds (n d : Nat) :
    n / (d * 2 ^ roundShift n d) < 2 ^ 53 ∧ (roundShift n d ≠ 0 → 2 ^ 52 ≤ n / (d * 2 ^ roundShift n d)) := by
  rw [← Nat.div_div_eq_div_mul]
  constructor
  · rw [Nat.div_lt_iff_lt_mul (by positivity), ← pow_add]
    exact Nat.lt_log2_self.trans_le (Nat.pow_le_pow_right (by decide) (by rw [roundShift]; omega))
  · intro hk
    rw [Nat.le_div_iff_mul_le (by positivity), ← pow_add, show 52 + roundShift n d = Nat.log2 (n / d) by rw [roundShift] at *; omega]
    exact Nat.log2_self_le fun h => hk (by simp [roundShift, h])

/-- R110: the exact magnitude lies between two neighbouring patterns, and rounding takes the nearer one, the even one on a tie. -/
theorem roundedPattern_brackets (n : Nat) {d : Nat} (hd : 0 < d) :
    ∃ m, patternValue m * d ≤ n ∧ n < patternValue (m + 1) * d ∧
      (roundedPattern n d = m ∧
          (2 * n < patternValue m * d + patternValue (m + 1) * d ∨
            2 * n = patternValue m * d + patternValue (m + 1) * d ∧ m % 2 = 0) ∨
        roundedPattern n d = m + 1 ∧
          (patternValue m * d + patternValue (m + 1) * d < 2 * n ∨
            2 * n = patternValue m * d + patternValue (m + 1) * d ∧ m % 2 = 1)) := by
  obtain ⟨hlt, hge⟩ := truncated_bounds n d
  have hsplit := Nat.div_add_mod n (d * 2 ^ roundShift n d)
  have hmod : n % (d * 2 ^ roundShift n d) < d * 2 ^ roundShift n d := Nat.mod_lt _ (by positivity)
  have hvalue : ∀ q, q * 2 ^ roundShift n d * d = d * 2 ^ roundShift n d * q := fun q => by ring
  refine ⟨roundShift n d * 2 ^ 52 + n / (d * 2 ^ roundShift n d), ?_⟩
  rw [add_assoc, patternValue_scaled hlt.le hge, patternValue_scaled hlt fun h => (hge h).trans (by omega), roundedPattern,
    roundedSignificand, hvalue, hvalue, Nat.mul_add_one]
  generalize d * 2 ^ roundShift n d = u at *
  generalize u * (n / u) = a at *
  split_ifs <;> omega

/-- R110: no pattern's magnitude is nearer to `n / d` than that of the rounded one, which is even on a tie. -/
theorem roundedPattern_nearest (n : Nat) {d : Nat} (hd : 0 < d) (j : Nat) :
    ((patternValue (roundedPattern n d) * d : Int) - n).natAbs ≤ ((patternValue j * d : Int) - n).natAbs ∧
    (patternValue j ≠ patternValue (roundedPattern n d) →
      ((patternValue (roundedPattern n d) * d : Int) - n).natAbs = ((patternValue j * d : Int) - n).natAbs →
      roundedPattern n d % 2 = 0) := by
  obtain ⟨m, hlow, hhigh, hround⟩ := roundedPattern_brackets n hd
  have hne : patternValue j ≠ patternValue (roundedPattern n d) → patternValue j * d ≠ patternValue (roundedPattern n d) * d :=
    fun h he => h (Nat.eq_of_mul_eq_mul_right hd he)
  have hside : patternValue j * d ≤ patternValue m * d ∨ patternValue (m + 1) * d ≤ patternValue j * d := by
    rcases Nat.lt_or_ge m j with h | h
    · exact .inr (Nat.mul_le_mul_right d (patternValue_strictMono.monotone h))
    · exact .inl (Nat.mul_le_mul_right d (patternValue_strictMono.monotone h))
  simp only [← Nat.cast_mul]
  rcases hround with ⟨he, hround⟩ | ⟨he, hround⟩ <;> rw [he] at hne ⊢ <;> omega

/-- The largest finite magnitude and the next one that an unbounded exponent would give: overflow begins half way between them. -/
theorem patternValue_around_infBits :
    patternValue (infBits - 1) + patternValue infBits = 2 * ((2 ^ 54 - 1) * 2 ^ 2044) := by
  have hmax : patternValue (infBits - 1) = (2 ^ 53 - 1) * 2 ^ 2045 := by
    rw [show infBits - 1 = 2045 * 2 ^ 52 + (2 ^ 53 - 1) from rfl, patternValue_scaled (by decide) fun _ => by decide]
  have hinf : patternValue infBits = 2 ^ 53 * 2 ^ 2045 := by
    rw [show infBits = 2045 * 2 ^ 52 + 2 ^ 53 from rfl, patternValue_scaled (by decide) fun _ => by decide]
  rw [hmax, hinf, show (2 : Nat) ^ 2045 = 2 * 2 ^ 2044 by rw [← pow_succ']]
  generalize (2 : Nat) ^ 2044 = p
  omega

/-- R110: the rounded pattern passes the largest finite one exactly from half a unit beyond it, the tie included, as the largest
finite one is odd. -/
theorem infBits_le_roundedPattern_iff (n : Nat) {d : Nat} (hd : 0 < d) :
    infBits ≤ roundedPattern n d ↔ (2 ^ 54 - 1) * 2 ^ 2044 * d ≤ n := by
  obtain ⟨m, hlow, hhigh, hround⟩ := roundedPattern_brackets n hd
  have hmono : ∀ {i j}, i ≤ j → patternValue i * d ≤ patternValue j * d :=
    fun h => Nat.mul_le_mul_right d (patternValue_strictMono.monotone h)
  have hmid : patternValue (infBits - 1) * d + patternValue infBits * d = 2 * ((2 ^ 54 - 1) * 2 ^ 2044 * d) := by
    rw [← Nat.add_mul, patternValue_around_infBits, Nat.mul_assoc]
  have hstep : patternValue (infBits - 1) * d ≤ patternValue infBits * d := hmono (Nat.sub_le _ _)
  generalize (2 ^ 54 - 1) * 2 ^ 2044 * d = mid at *
  have hodd : infBits % 2 = 0 ∧ 0 < infBits := by decide
  generalize infBits = top at *
  rcases Nat.lt_trichotomy (m + 1) top with h | rfl | h
  · have := hmono (show m + 1 ≤ top - 1 by omega)
    omega
  · rw [Nat.add_sub_cancel] at hmid
    omega
  · have := hmono (show top ≤ m by omega)
    omega

theorem roundedPattern_lt {n d : Nat} (h : roundedPattern n d < infBits) : roundedPattern n d < 2 ^ 63 :=
  h.trans (by decide)

theorem isInf_roundToBinary64 (s : Bool) (n d : Nat) : isInf (roundToBinary64 s n d) = true ↔ infBits ≤ roundedPattern n d := by
  rw [roundToBinary64_eq]
  rcases Nat.lt_or_ge (roundedPattern n d) infBits with h | h
  · rw [min_eq_left h.le, isInf, fpExp_packSign (roundedPattern_lt h), fpFrac_packSign (roundedPattern_lt h)]
    simp only [infBits, Bool.and_eq_true, beq_iff_eq] at *
    omega
  · rw [min_eq_right h]
    cases s <;> simp only [h, iff_true] <;> decide

theorem roundToBinary64_of_not_isInf {s : Bool} {n d : Nat} (h : isInf (roundToBinary64 s n d) = false) :
    roundedPattern n d < infBits ∧ roundToBinary64 s n d = packSign s (roundedPattern n d) := by
  have hlt : roundedPattern n d < infBits := by
    by_contra hge
    exact absurd ((isInf_roundToBinary64 s n d).2 (not_lt.1 hge)) (by simp [h])
  exact ⟨hlt, by rw [roundToBinary64_eq, min_eq_left hlt.le]⟩

theorem fpSign_roundToBinary64 (s : Bool) (n d : Nat) : fpSign (roundToBinary64 s n d) = s :=
  fpSign_packSign ((min_le_right _ _).trans_lt (by decide))

/-- Settles O48: the rounded pattern is the nearer, or on a tie the even, one of the two patterns around the exact magnitude. -/
theorem roundingIsNearestTiesToEven : Obligations.RoundingIsNearestTiesToEven := by
  intro sgn n d hd
  refine ⟨fpSign_roundToBinary64 sgn n d, (isInf_roundToBinary64 sgn n d).trans (infBits_le_roundedPattern_iff n hd), fun hfin => ?_⟩
  obtain ⟨hlt, he⟩ := roundToBinary64_of_not_isInf hfin
  have hlt63 := roundedPattern_lt hlt
  rw [he, isFinite, fpExp_packSign hlt63, magnitude_packSign hlt63, fpFrac_packSign hlt63]
  refine ⟨?_, fun y _ => ?_⟩
  · simp only [infBits, Bool.not_eq_true', beq_eq_false_iff_ne] at *
    omega
  · rw [magnitude_eq_patternValue y]
    obtain ⟨hnear, htie⟩ := roundedPattern_nearest n hd (fpExp y * 2 ^ 52 + fpFrac y)
    refine ⟨hnear, fun hne hdist => ?_⟩
    have := htie hne hdist
    omega

/-! ### From magnitudes to signed values (R110 to R114) -/

theorem natAbs_signedValue (x : Word) : (signedValue x).natAbs = magnitude x := by
  unfold signedValue; split <;> simp

/-- Magnitudes are at most as far apart as the signed values. -/
theorem magnitude_distance_le (x : Word) (n d : Int) :
    ((magnitude x * d.natAbs : Int) - n.natAbs).natAbs ≤ (signedValue x * d - n).natAbs := by
  rw [← natAbs_signedValue, ← Nat.cast_mul, ← Int.natAbs_mul]
  omega

/-- They are as far apart, when the sign of the pattern is that of the exact value. -/
theorem magnitude_distance_eq {x : Word} {n d : Int} (h : n ≠ 0 → fpSign x = decide (n * d < 0)) :
    ((magnitude x * d.natAbs : Int) - n.natAbs).natAbs = (signedValue x * d - n).natAbs := by
  have hsame : 0 ≤ signedValue x * d * n := by
    rw [mul_assoc, mul_comm d n]
    by_cases hn : n = 0
    · simp [hn]
    · by_cases hneg : n * d < 0 <;> simp only [signedValue, h hn, hneg, decide_true, decide_false, if_true, Bool.false_eq_true, if_false]
      · exact mul_nonneg_of_nonpos_of_nonpos (by omega) hneg.le
      · exact mul_nonneg (by omega) (not_lt.1 hneg)
  rw [← natAbs_signedValue, ← Nat.cast_mul, ← Int.natAbs_mul]
  rcases mul_nonneg_iff.1 hsame with h' | h' <;> omega

/-- Equal magnitudes equally far from the exact value are equal values: a value and its opposite are equally far only when one of them
or the exact value is 0. -/
theorem signedValue_eq_of_distance_eq {x y : Word} {n d : Int} (hd : d ≠ 0) (hmag : magnitude y = magnitude x)
    (hdist : (signedValue y * d - n).natAbs = (signedValue x * d - n).natAbs) (h0 : n = 0 → signedValue x * d = 0) :
    signedValue y = signedValue x := by
  rw [← natAbs_signedValue, ← natAbs_signedValue, Int.natAbs_eq_natAbs_iff] at hmag
  rcases hmag with hmag | hmag
  · exact hmag
  · rw [hmag, neg_mul] at hdist
    have hx : signedValue x * d = 0 := by omega
    simp [hmag, (mul_eq_zero.1 hx).resolve_right hd]

/-- R110: a magnitude rounded with the sign of the exact value is that value correctly rounded; the sign of an exact zero is free. -/
theorem correctlyRounded_roundToBinary64 {s : Bool} {n d : Int} {m e : Nat} (hm : n.natAbs = m) (he : d.natAbs = e) (hd : d ≠ 0)
    (hs : n ≠ 0 → s = decide (n * d < 0)) : CorrectlyRounded (roundToBinary64 s m e) n d := by
  subst hm he
  obtain ⟨hsign, hover, hfinite⟩ := roundingIsNearestTiesToEven s n.natAbs d.natAbs (Int.natAbs_pos.2 hd)
  generalize roundToBinary64 s n.natAbs d.natAbs = r at *
  subst hsign
  have hr := magnitude_distance_eq hs
  have hzero : isInf r = false → n = 0 → signedValue r * d = 0 := by
    rintro h rfl
    have h0 := ((hfinite h).2 0 (by decide)).1
    rw [hr, show magnitude 0 = 0 by decide] at h0
    simpa using h0
  refine ⟨hover, fun h => ⟨(hfinite h).1, fun y hy => ?_⟩, fun h y hy hne hdist => ?_, hs⟩
  · exact hr ▸ ((hfinite h).2 y hy).1.trans (magnitude_distance_le y n d)
  · obtain ⟨hnear, htie⟩ := (hfinite h).2 y hy
    have hle := magnitude_distance_le y n d
    exact htie (fun hmag => hne (signedValue_eq_of_distance_eq hd hmag hdist (hzero h))) (by omega)

/-! ### The operations on finite operands (R110 to R114) -/

theorem roundToBinary64_zero (s : Bool) (d : Nat) : roundToBinary64 s 0 d = packSign s 0 := by
  simp [roundToBinary64, roundedSignificand, roundShift]

/-- R111: an exact sum of 0 is `-0.0` for two negative operands, else `+0.0`. -/
theorem fadd_of_isFinite_cancel {a b : Word} (draw : Word) (ha : isFinite a = true) (hb : isFinite b = true)
    (hz : signedValue a + signedValue b = 0) : fadd draw a b = packSign (fpSign a && fpSign b) 0 := by
  simp [fadd, class_of_isFinite ha, class_of_isFinite hb, hz]

/-- R111: the sum of finite values is rounded with the exact sum's sign; an exact 0 takes either. -/
theorem fadd_of_isFinite {a b : Word} (draw : Word) (ha : isFinite a = true) (hb : isFinite b = true) :
    ∃ s, fadd draw a b = roundToBinary64 s (signedValue a + signedValue b).natAbs 1 ∧
      (signedValue a + signedValue b ≠ 0 → s = decide (signedValue a + signedValue b < 0)) := by
  by_cases hz : signedValue a + signedValue b = 0
  · exact ⟨fpSign a && fpSign b, by rw [fadd_of_isFinite_cancel draw ha hb hz, hz, Int.natAbs_zero, roundToBinary64_zero], absurd hz⟩
  · exact ⟨_, by simp [fadd, class_of_isFinite ha, class_of_isFinite hb, hz], fun _ => rfl⟩

/-- R113: a product. -/
theorem fmul_of_isFinite {a b : Word} (draw : Word) (ha : isFinite a = true) (hb : isFinite b = true) :
    fmul draw a b = roundToBinary64 (fpSign a != fpSign b) (magnitude a * magnitude b) (2 ^ 1074) := by
  simp [fmul, class_of_isFinite ha, class_of_isFinite hb, -Nat.reducePow]

/-- R114: a quotient by a value other than 0. -/
theorem fdiv_of_isFinite {a b : Word} (draw : Word) (ha : isFinite a = true) (hb : isFinite b = true) (h0 : magnitude b ≠ 0) :
    fdiv draw a b = roundToBinary64 (fpSign a != fpSign b) (magnitude a * 2 ^ 1074) (magnitude b) := by
  simp [fdiv, class_of_isFinite ha, class_of_isFinite hb, h0, -Nat.reducePow]

/-- R114: a finite value by a zero. -/
theorem fdiv_of_isFinite_zero {a b : Word} (draw : Word) (ha : isFinite a = true) (hb : isFinite b = true) (h0 : magnitude b = 0) :
    fdiv draw a b = if magnitude a = 0 then nanOf draw else packSign (fpSign a != fpSign b) infBits := by
  simp [fdiv, class_of_isFinite ha, class_of_isFinite hb, h0]

theorem fpSign_of_signedValue_ne_zero {x : Word} (h : signedValue x ≠ 0) : fpSign x = decide (signedValue x < 0) := by
  unfold signedValue at *
  split_ifs at h ⊢ with hs
  · rw [hs, eq_comm, decide_eq_true_iff]; omega
  · rw [Bool.eq_false_of_not_eq_true hs, eq_comm, decide_eq_false_iff_not]; omega

/-- The XOR of the signs is the sign of a product that is not 0. -/
theorem fpSign_xor_of_mul_ne_zero {a b : Word} (h : signedValue a * signedValue b ≠ 0) :
    (fpSign a != fpSign b) = decide (signedValue a * signedValue b < 0) := by
  obtain ⟨ha, hb⟩ := mul_ne_zero_iff.1 h
  rw [fpSign_of_signedValue_ne_zero ha, fpSign_of_signedValue_ne_zero hb, Bool.eq_iff_iff, decide_eq_true_iff, mul_neg_iff]
  simp only [bne_iff_ne, ne_eq, decide_eq_decide]
  omega

/-- R113, with `p` units of 2^-1074 to 1.0. -/
theorem correctlyRounded_mul (a b : Word) {p : Nat} (hp : 0 < p) :
    CorrectlyRounded (roundToBinary64 (fpSign a != fpSign b) (magnitude a * magnitude b) p) (signedValue a * signedValue b) p := by
  have hp' : (0 : Int) < p := by exact_mod_cast hp
  have hmag : (signedValue a * signedValue b).natAbs = magnitude a * magnitude b := by simp only [Int.natAbs_mul, natAbs_signedValue]
  refine correctlyRounded_roundToBinary64 hmag (Int.natAbs_natCast p) hp'.ne' fun hn => ?_
  rw [fpSign_xor_of_mul_ne_zero hn, decide_eq_decide, ← mul_lt_mul_iff_left₀ hp', zero_mul]

/-- R114, with `p` units of 2^-1074 to 1.0. -/
theorem correctlyRounded_div (a : Word) {b : Word} (hb : magnitude b ≠ 0) {p : Nat} (hp : 0 < p) :
    CorrectlyRounded (roundToBinary64 (fpSign a != fpSign b) (magnitude a * p) (magnitude b)) (signedValue a * p) (signedValue b) := by
  have hp' : (0 : Int) < p := by exact_mod_cast hp
  have hb' : signedValue b ≠ 0 := Int.natAbs_ne_zero.1 (natAbs_signedValue b ▸ hb)
  have hmag : (signedValue a * p).natAbs = magnitude a * p := by rw [Int.natAbs_mul, natAbs_signedValue, Int.natAbs_natCast]
  refine correctlyRounded_roundToBinary64 hmag (natAbs_signedValue b) hb' fun hn => ?_
  rw [fpSign_xor_of_mul_ne_zero (mul_ne_zero (left_ne_zero_of_mul hn) hb'), decide_eq_decide,
    mul_right_comm, ← mul_lt_mul_iff_left₀ hp', zero_mul]

/-- Settles O49: the exact sum is rounded once, and a difference is the sum with the other sign. -/
theorem addSubCorrectlyRounded : Obligations.AddSubCorrectlyRounded := by
  have hadd : ∀ draw a b : Word, isFinite a = true → isFinite b = true →
      CorrectlyRounded (fadd draw a b) (signedValue a + signedValue b) 1 := by
    intro draw a b ha hb
    obtain ⟨s, he, hs⟩ := fadd_of_isFinite draw ha hb
    rw [he]
    exact correctlyRounded_roundToBinary64 rfl rfl one_ne_zero (by rwa [mul_one])
  refine fun draw a b ha hb => ⟨hadd draw a b ha hb, ?_⟩
  rw [sub_eq_add_neg, ← signedValue_fneg]
  exact hadd draw a (fneg b) ha (by simpa using hb)

/-- Settles O50: the exact product and quotient are rounded once, with the XOR of the signs. -/
theorem mulDivCorrectlyRounded : Obligations.MulDivCorrectlyRounded := by
  intro draw a b ha hb
  have hunit : (2 : Int) ^ 1074 = ((2 ^ 1074 : Nat) : Int) := by rw [Nat.cast_pow, Nat.cast_ofNat]
  rw [hunit, fmul_of_isFinite draw ha hb]
  refine ⟨⟨correctlyRounded_mul a b (by positivity), fpSign_roundToBinary64 _ _ _⟩, fun h0 => ?_⟩
  rw [fdiv_of_isFinite draw ha hb h0]
  exact ⟨correctlyRounded_div a h0 (by positivity), fpSign_roundToBinary64 _ _ _⟩

/-! ### NaNs, signed zeros and infinities (R110 to R114) -/

theorem fadd_of_isNaN {a b : Word} (draw : Word) (h : isNaN a = true ∨ isNaN b = true) : fadd draw a b = nanOf draw := by
  rcases h with h | h <;> simp [fadd, h]

theorem fmul_of_isNaN {a b : Word} (draw : Word) (h : isNaN a = true ∨ isNaN b = true) : fmul draw a b = nanOf draw := by
  rcases h with h | h <;> simp [fmul, h]

theorem fdiv_of_isNaN {a b : Word} (draw : Word) (h : isNaN a = true ∨ isNaN b = true) : fdiv draw a b = nanOf draw := by
  rcases h with h | h <;> simp [fdiv, h]

/-- R111: infinities of one sign add up to it; those of opposite signs give a NaN. -/
theorem fadd_of_isInf_isInf {a b : Word} (draw : Word) (ha : isInf a = true) (hb : isInf b = true) :
    fadd draw a b = if fpSign a = fpSign b then a else nanOf draw := by
  simp [fadd, class_of_isInf ha, class_of_isInf hb, ha, hb, ite_not]

/-- R111: an infinity absorbs a finite value on either side. -/
theorem fadd_of_isInf_isFinite {a b : Word} (draw : Word) (ha : isInf a = true) (hb : isFinite b = true) :
    fadd draw a b = a ∧ fadd draw b a = a := by
  simp [fadd, class_of_isInf ha, class_of_isFinite hb, ha]

/-- R113: an infinity by anything but a NaN and a zero. -/
theorem fmul_of_isInf {a b : Word} (draw : Word) (ha : isInf a = true) (hb : isInf b = true ∨ isFinite b = true ∧ magnitude b ≠ 0) :
    fmul draw a b = packSign (fpSign a != fpSign b) infBits ∧ fmul draw b a = packSign (fpSign a != fpSign b) infBits := by
  have hcomm : (fpSign b != fpSign a) = (fpSign a != fpSign b) := bne_comm
  rcases hb with hb | ⟨hb, h0⟩
  · simp [fmul, class_of_isInf ha, class_of_isInf hb, ha, hb, hcomm]
  · simp [fmul, class_of_isInf ha, class_of_isFinite hb, ha, h0, hcomm]

/-- R113: an infinity by a zero. -/
theorem fmul_of_isInf_zero {a b : Word} (draw : Word) (ha : isInf a = true) (hb : isFinite b = true) (h0 : magnitude b = 0) :
    fmul draw a b = nanOf draw ∧ fmul draw b a = nanOf draw := by
  simp [fmul, class_of_isInf ha, class_of_isFinite hb, ha, hb, h0]

/-- R114: an infinity by an infinity. -/
theorem fdiv_of_isInf_isInf {a b : Word} (draw : Word) (ha : isInf a = true) (hb : isInf b = true) : fdiv draw a b = nanOf draw := by
  simp [fdiv, class_of_isInf ha, class_of_isInf hb, ha, hb]

/-- R114: an infinity by a finite value. -/
theorem fdiv_of_isInf_isFinite {a b : Word} (draw : Word) (ha : isInf a = true) (hb : isFinite b = true) :
    fdiv draw a b = packSign (fpSign a != fpSign b) infBits := by
  simp [fdiv, class_of_isInf ha, class_of_isFinite hb, ha]

/-- R114: a finite value by an infinity. -/
theorem fdiv_of_isFinite_isInf {a b : Word} (draw : Word) (ha : isFinite a = true) (hb : isInf b = true) :
    fdiv draw a b = packSign (fpSign a != fpSign b) 0 := by
  simp [fdiv, class_of_isFinite ha, class_of_isInf hb, hb]

theorem isNaN_nanOf (draw : Word) : isNaN (nanOf draw) = true := by
  unfold nanOf
  split
  · assumption
  · decide

/-- Settles O51: the free draw stands for itself when it is a NaN, and each invalid operation answers it. -/
theorem invalidOperationsGiveSomeNaN : Obligations.InvalidOperationsGiveSomeNaN := by
  refine ⟨isNaN_nanOf, fun w hw => ⟨w, if_pos hw⟩, fun draw a b h => ?_, fun draw a b ha hb => ?_,
    fun draw a b => fmul_of_isInf_zero draw, fun draw a b ha hb ha0 hb0 => ?_⟩
  · exact ⟨fadd_of_isNaN draw h, fadd_of_isNaN draw (by simpa using h), fmul_of_isNaN draw h, fdiv_of_isNaN draw h⟩
  · refine ⟨fun hne => ?_, fun heq => ?_, fdiv_of_isInf_isInf draw ha hb⟩
    · rw [fadd_of_isInf_isInf draw ha hb, if_neg hne]
    · rw [fsub, fadd_of_isInf_isInf draw ha (by simpa using hb), if_neg (by simp [heq])]
  · rw [fdiv_of_isFinite_zero draw ha hb hb0, if_pos ha0]

theorem packSign_xor_zero (s t : Bool) : packSign (s != t) 0 = if s = t then 0 else 0x8000000000000000 := by
  revert s t; decide

theorem packSign_xor_infBits (s t : Bool) : packSign (s != t) infBits = if s = t then 0x7FF0000000000000 else 0xFFF0000000000000 := by
  revert s t; decide

/-- R111: a finite value and its opposite cancel to `+0.0`. -/
theorem fadd_fneg_self {x : Word} (draw : Word) (h : isFinite x = true) : fadd draw x (fneg x) = 0 := by
  rw [fadd_of_isFinite_cancel draw h (by simpa using h) (by simp), fpSign_fneg, Bool.and_not_self]
  rfl

/-- R110: the other infinity. -/
theorem fneg_of_isInf {x : Word} (h : isInf x = true) : fneg x = if fpSign x then 0x7FF0000000000000 else 0xFFF0000000000000 := by
  rw [eq_packSign_infBits h, fpSign_packSign (by decide)]
  generalize fpSign x = s
  revert s; decide

/-- R113: a product with a zero. -/
theorem fmul_of_zero {x y : Word} (draw : Word) (hx : isFinite x = true) (hy : isFinite y = true) (h0 : magnitude x = 0 ∨ magnitude y = 0) :
    fmul draw x y = packSign (fpSign x != fpSign y) 0 := by
  rw [fmul_of_isFinite draw hx hy, Nat.mul_eq_zero.2 h0, roundToBinary64_zero]

/-- Settles O52, operand class by operand class. -/
theorem signedZerosAndInfinities : Obligations.SignedZerosAndInfinities := by
  intro draw x y
  refine ⟨fun hx => ⟨fadd_fneg_self draw hx, fadd_fneg_self draw hx, ?_, fun hy h0 => ?_, fun hy => ?_, fun hy hx0 hy0 => ?_⟩,
    fun hx => ⟨fun hy => ?_, fun hy => ⟨fun heq => ?_, fun hne => ?_⟩, fun hy => ?_, fun hy => ?_⟩⟩
  · exact fadd_of_isFinite_cancel draw (by decide) (by decide) (by decide)
  · rw [fmul_of_zero draw hx hy h0, packSign_xor_zero]
  · rw [fdiv_of_isFinite_isInf draw hx hy, packSign_xor_zero]
  · rw [fdiv_of_isFinite_zero draw hx hy hy0, if_neg hx0, packSign_xor_infBits]
  · obtain ⟨hleft, hright⟩ := fadd_of_isInf_isFinite draw hx hy
    refine ⟨hleft, hright, (fadd_of_isInf_isFinite draw hx (by simpa using hy)).1, ?_⟩
    exact (fadd_of_isInf_isFinite draw (by simpa using hx) hy).2.trans (fneg_of_isInf hx)
  · rw [fadd_of_isInf_isInf draw hx hy, if_pos heq]
  · rw [fsub, fadd_of_isInf_isInf draw hx (by simpa using hy), if_pos (by rw [fpSign_fneg]; exact Bool.eq_not.2 hne)]
  · obtain ⟨hleft, hright⟩ := fmul_of_isInf draw hx hy
    rw [hleft, hright, packSign_xor_infBits]
    exact ⟨rfl, rfl⟩
  · rw [fdiv_of_isInf_isFinite draw hx hy, packSign_xor_infBits]

end Sys2Proof.Machine

/-! ### `L.D` and `S.D` at write-back (R120, R121) -/

namespace Sys2Proof.Machine

/-- R48, R50, `Snapshot`: a load reads its cell as it stood at the start of Writeback, whatever the batch stores. -/
theorem loadValue_snapshot {s : State} (hp : s.params.policy = .snapshot) {addr : Int} {j : Nat} (hc : cellOf s.params addr = some j)
    (ws : List StoreWrite) (q : SlotId) : loadValue s ws q addr = some (s.mem.readCell j) := by
  rw [loadValue, hp]
  exact memRead_of_cellOf hc s.mem

/-- Settles O28: the value the buffer loads, which the batch delivers, is the cell's under `Snapshot`. -/
theorem loadResultDelivered : Obligations.LoadResultDelivered := by
  intro s j k c x hw hr hp hx hinstr hk hd hwritable hc
  exact writebackStage_delivers_load hw hr hx hinstr hk hd hwritable (loadValue_snapshot hp hc _ _)

/-- R96, R97: the queued writes are those of the finished stores with their data. -/
theorem mem_queuedWrites {s : State} {w : StoreWrite} :
    w ∈ s.queuedWrites ↔ ∃ (i k : Nat) (y : StoreBuffer), s.stores[i]? = some y ∧ y.head.instr = some k ∧
      s.writable y.head = true ∧ y.qd = none ∧ w = ⟨k, y.address s, y.vd⟩ := by
  constructor
  · intro hw
    obtain ⟨⟨q, y⟩, hc, rfl⟩ := List.mem_map.1 hw
    obtain ⟨hmem, hwritable, hqd⟩ := mem_storeCandidates.1 hc
    obtain ⟨i, hi, -⟩ := mem_tagged.1 hmem
    obtain ⟨k, -, hk, -⟩ := (writable_iff s y.head).1 hwritable
    exact ⟨i, k, y, hi, hk, hwritable, hqd, by simp [hk]⟩
  · rintro ⟨i, k, y, hi, hk, hwritable, hqd, rfl⟩
    have hc : (⟨.store, i⟩, y) ∈ s.storeCandidates := mem_storeCandidates.2 ⟨mem_tagged.2 ⟨i, hi, rfl⟩, hwritable, hqd⟩
    exact List.mem_map.2 ⟨_, hc, by simp [hk]⟩

/-- R50, R98, `Snapshot`: a cell ends with the data of the write to it that every other write to it precedes in program order. -/
theorem applyWrites_snapshot_latest {s : State} (hp : s.params.policy = .snapshot) (hm : s.mem.wf) {ws : List StoreWrite} {j : Nat}
    {w : StoreWrite} (hw : w ∈ ws) (hc : cellOf s.params w.addr = some j)
    (hlatest : ∀ v ∈ ws, cellOf s.params v.addr = some j → v = w ∨ v.index < w.index) :
    (applyWrites s ws).readCell j = w.data := by
  obtain ⟨v, hv, hvc, hmax, hread⟩ := applyWrites_snapshot hp hm ⟨w, hw, hc⟩
  rcases hlatest v hv hvc with rfl | hlt
  · exact hread
  · exact absurd (hmax w hw hc) hlt.not_ge

/-- R97, R101, R121: the batch writes the last timestamp of a finished `S.D` with its data, under either policy, and frees its buffer. -/
theorem commitBatch_finishes_store {s : State} {j k : Nat} {x : StoreBuffer} (hx : s.stores[j]? = some x) (hinstr : x.head.instr = some k)
    (hk : k < s.stamps.length) (hwritable : s.writable x.head = true) (hqd : x.qd = none) :
    (commitBatch s).stamp k = { s.stamp k with wbk := some s.clk } ∧ (commitBatch s).stores[j]? = some StoreBuffer.free := by
  have hslot : storeView (⟨.store, j⟩, x) ∈ s.slots := mem_slots.2 (.inr (.inr (.inr ⟨j, x, hx, rfl⟩)))
  obtain ⟨k', hbusy, hinstr', hcmp, hwbk⟩ := (writable_iff s x.head).1 hwritable
  obtain rfl : k' = k := Option.some.inj (hinstr'.symm.trans hinstr)
  have hc : s.CandidateSlot (storeView (⟨.store, j⟩, x)) k' := ⟨hbusy, hinstr, hcmp, hwbk, fun _ => by simp [hqd]⟩
  have hmem : (⟨.store, j⟩ : SlotId) ∈ s.candidateSlots := writesBack_iff.1 ⟨_, hslot, rfl, k', hc⟩
  refine ⟨commitBatch_stamp_candidate hslot hc hk, ?_⟩
  rw [commitBatch_stores_getElem?, hx, Option.map_some, if_pos hmem]

/-- Settles O29: any other queued write to the cell is a store's in another buffer, so it comes before this one in program order. -/
theorem storeWritesItsCell : Obligations.StoreWritesItsCell := by
  intro s j k c x hw hr hp hx hinstr hk hwritable hqd hc hlatest
  rw [writebackStage_inRange hr, commitBatch_mem]
  refine ⟨?_, commitBatch_finishes_store hx hinstr hk hwritable hqd⟩
  have hqueued : ⟨k, x.address s, x.vd⟩ ∈ s.queuedWrites := mem_queuedWrites.2 ⟨j, k, x, hx, hinstr, hwritable, hqd, rfl⟩
  refine applyWrites_snapshot_latest hp hw.memCanonical hqueued hc fun v hv hvc => ?_
  obtain ⟨i, k', y, hy, hyinstr, hywritable, hyqd, rfl⟩ := mem_queuedWrites.1 hv
  by_cases hij : i = j
  · subst hij
    obtain rfl := Option.some.inj (hy.symm.trans hx)
    obtain rfl := Option.some.inj (hyinstr.symm.trans hinstr)
    exact .inl rfl
  · exact .inr (hlatest i k' y hij hy hyinstr hywritable hyqd hvc)

end Sys2Proof.Machine

/-! ### An access out of range ends the run (R131 to R134) -/

namespace Sys2Proof.Machine

/-- R132: no completion check is made after a fault. -/
theorem completionCheck_of_fault {s : State} (h : s.status = .fault) : completionCheck s = s := by
  rw [completionCheck, if_pos h]

/-- R132, R133: a candidate's access out of range makes Writeback raise `MEM_RANGE` for such an access of the lowest index. -/
theorem writebackStage_outOfRange {s : State} {a : Nat × Int} (ha : a ∈ s.accesses) (hout : cellOf s.params a.2 = none) :
    ∃ b ∈ s.accesses, cellOf s.params b.2 = none ∧ (∀ c ∈ s.accesses, cellOf s.params c.2 = none → b.1 ≤ c.1) ∧
      writebackStage s = raiseMemRange b.1 b.2 s := by
  rcases writebackStage_cases s with ⟨hrange, -⟩ | ⟨b, hb, he⟩
  · exact absurd hout (hrange a ha)
  · obtain ⟨hmem, hbout, hlowest⟩ := faultingAccess_some hb
    exact ⟨b, hmem, hbout, hlowest, he⟩

/-- Settles O33: Writeback raises the fault, which the completion check and every further step leave as it is; without a faulting
access it commits the batch, which raises none. -/
theorem outOfRangeAccessFaults : Obligations.OutOfRangeAccessFaults := by
  intro s
  refine ⟨fun a ha hout => ?_, fun hrange => ?_⟩
  · obtain ⟨b, hb, hbout, hlowest, he⟩ := writebackStage_outOfRange ha hout
    have hfault : (raiseMemRange b.1 b.2 s).status = .fault := rfl
    rw [he, completionCheck_of_fault hfault]
    exact ⟨b, hb, hbout, hlowest, hfault, rfl, rfl, step_of_not_run (by rw [hfault]; decide)⟩
  · rw [writebackStage_inRange hrange]
    exact ⟨commitBatch_status s, commitBatch_faultCode s, commitBatch_faultInfo s⟩

end Sys2Proof.Machine

/-! ### What construction leaves (R104, R150) -/

namespace Sys2Proof.Machine

/-- R26, R27, R150: a register inside its file holds the value supplied at its index, or else the default. -/
theorem loadFile_getD {n i : Nat} (h : i < n) (dflt : Word) (init : Option (List Word)) :
    (loadFile n dflt init).getD i 0 = (init.getD []).getD i dflt := by
  simp [loadFile, List.getD_eq_getElem?_getD, h]

theorem loadMemory_wf (n : Nat) (init : Option (List Word)) : (loadMemory n init).wf :=
  (foldl_writeCell_wf (fun j => (init.getD []).getD j Config.one) n).1

theorem loadMemory_succ (n : Nat) (init : Option (List Word)) :
    loadMemory (n + 1) init = (loadMemory n init).writeCell n ((init.getD []).getD n Config.one) := by
  simp [loadMemory, List.range_succ]

/-- R38, R150: a cell inside the memory holds the value supplied at its index, or else the default. -/
theorem loadMemory_readCell {n j : Nat} (h : j < n) (init : Option (List Word)) :
    (loadMemory n init).readCell j = (init.getD []).getD j Config.one := by
  induction n with
  | zero => cases h
  | succ n ih =>
    rw [loadMemory_succ]
    by_cases hj : j = n
    · rw [hj, readCell_writeCell_same (loadMemory_wf n init)]
    · rw [readCell_writeCell_other _ _ hj, ih (by omega)]

/-- An index at which the host supplies a value takes it, whatever the default. -/
theorem getD_of_supplied {l : List Word} {i : Nat} {v : Word} (h : l[i]? = some v) (dflt : Word) :
    ((some l).getD []).getD i dflt = v := by
  simp [List.getD_eq_getElem?_getD, h]

/-- R104: a block whose inputs are loaded is complete exactly when it has no record, since no instruction has a timestamp. -/
theorem loadInputs_complete_iff {inp : Inputs} : (loadInputs inp).complete = true ↔ inp.prog = [] := by
  simp [State.complete, loadInputs]

/-- Steps 3 and 4 of R150 set the status and the fault registers alone. -/
theorem construct_eq_setStatus (inp : Inputs) : ∃ status code info,
    construct inp = { loadInputs inp with status := status, faultCode := code, faultInfo := info } := by
  unfold construct
  cases firstInvalid inp.params.nFpr inp.prog with
  | some k => exact ⟨_, _, _, rfl⟩
  | none =>
    by_cases hc : (loadInputs inp).complete = true
    · exact ⟨_, _, _, if_pos hc⟩
    · exact ⟨_, _, _, if_neg hc⟩

/-- Steps 3 and 4 of R150 for a program of valid records: the completion test (R104) alone sets the status. -/
theorem construct_of_valid {inp : Inputs} (h : inp.prog.all (validRecord inp.params.nFpr) = true) :
    construct inp = { loadInputs inp with status := if inp.prog = [] then .done else .run } := by
  simp only [construct, firstInvalid_eq_none.2 h, loadInputs_complete_iff]
  split <;> rfl

section
variable (inp : Inputs)

theorem construct_next : (construct inp).next = 0 := by
  obtain ⟨_, _, _, he⟩ := construct_eq_setStatus inp
  rw [he]; rfl

theorem construct_stamp (k : Nat) : (construct inp).stamp k = Stamps.empty := by
  obtain ⟨_, _, _, he⟩ := construct_eq_setStatus inp
  rw [he]; exact loadInputs_stamp inp k

theorem construct_readRRS (i : FReg) : (construct inp).readRRS i = none := by
  obtain ⟨_, _, _, he⟩ := construct_eq_setStatus inp
  rw [he]; exact loadInputs_readRRS inp i

/-- R33, R150: construction leaves every slot free and cleared. -/
theorem construct_slot {x : SlotView} (hx : x ∈ (construct inp).slots) : x = freeView x.id := by
  obtain ⟨_, _, _, he⟩ := construct_eq_setStatus inp
  rw [he] at hx; exact loadInputs_slot (inp := inp) hx

theorem construct_readF {i : FReg} (hi : i.toNat < inp.params.nFpr) :
    (construct inp).readF i = (inp.fpInit.getD []).getD i.toNat Config.one := by
  obtain ⟨_, _, _, he⟩ := construct_eq_setStatus inp
  rw [he]; exact loadFile_getD hi _ _

theorem construct_readR {i : IReg} (hi : i.toNat < inp.params.nIntr) :
    (construct inp).readR i = (inp.intInit.getD []).getD i.toNat Config.intInit := by
  obtain ⟨_, _, _, he⟩ := construct_eq_setStatus inp
  rw [he]; exact loadFile_getD hi _ _

theorem construct_readCell {j : Nat} (hj : j < inp.params.nMem) :
    (construct inp).mem.readCell j = (inp.memInit.getD []).getD j Config.one := by
  obtain ⟨_, _, _, he⟩ := construct_eq_setStatus inp
  rw [he]; exact loadMemory_readCell hj _

end

/-- Settles O8: the last two steps of construction touch the status and the fault registers alone, so every other element is the one
loaded from the inputs; with valid records the completion test alone sets the status. -/
theorem constructionResetValues : Obligations.ConstructionResetValues := by
  intro inp
  obtain ⟨-, hprog, hclk⟩ := construct_fields inp
  refine ⟨hclk, construct_next inp, construct_stamp inp, fun x hx => ?slots, construct_readRRS inp, hprog, fun hn i hi => ?fpDefault,
    fun l hl i v hi hv => ?fpSupplied, fun l hl i v hi hv => ?intSupplied, fun hn j hj => ?memDefault,
    fun l hl j v hj hv => ?memSupplied, fun hrecords => ?status⟩
  case slots =>
    rw [construct_slot inp hx]
    exact ⟨by rw [freeView_head], freeView_cleared _⟩
  case fpDefault => rw [construct_readF inp hi, hn]; rfl
  case fpSupplied => rw [construct_readF inp hi, hl, getD_of_supplied hv]
  case intSupplied => rw [construct_readR inp hi, hl, getD_of_supplied hv]
  case memDefault => rw [construct_readCell inp hj, hn]; rfl
  case memSupplied => rw [construct_readCell inp hj, hl, getD_of_supplied hv]
  case status => rw [construct_of_valid hrecords]; exact ⟨rfl, rfl, rfl⟩

/-- Settles O9: the reset state is `DONE`, so a step has no effect (R80). -/
theorem resetIsDefaultConstruction : Obligations.ResetIsDefaultConstruction :=
  ⟨reset_eq_construct, rfl, rfl, step_of_not_run (by decide)⟩

end Sys2Proof.Machine
